-- ==== Sys2Proof/Word.lean ====
section
/-! DEFINITION. The word types of the sox_ng NR core. Every signal value, state register, coefficient,
multiplier and table entry is a 64-bit two's-complement integer (00_scope.md R11); a command word has 32
bits (30_encoding.md R100); a byte is one lane of the host port (20_memory.md R85). -/

namespace Sys2Proof

/-- A stored 64-bit value (R11). `BitVec.toInt` reads it as int64, `BitVec.toNat` as unsigned 64. -/
abbrev Word := BitVec 64

/-- One byte lane of a port access (R85). -/
abbrev Byte := BitVec 8

/-- A command word, the value written to CMD (R100). -/
abbrev CmdWord := BitVec 32

end Sys2Proof
end

