-- ==== Sys2Proof/Syntax.lean ====
section
/-! DEFINITION. The commands of the block: one constructor of `Instr` for each row of spec/opcode_table.json
(30_encoding.md R107). The fields are those the command's class uses (R102), at the widths of R101; no command
carries data in its word (R103). An out-of-range channel, instance, register number or index is a field value
like any other: the command that carries it raises a fault (R104, R105). -/

namespace Sys2Proof

/-- A command (R107). `ch` is CH, `t`, `k`, `h` are INST, `n` and `i` are IMM16 (R101). -/
inductive Instr where
  /-- NOP, 40_control.md R131. -/
  | nop
  /-- CFGW, R132. -/
  | cfgw (n : BitVec 16)
  /-- CFGR, R133. -/
  | cfgr (n : BitVec 16)
  /-- TBLW, R134. -/
  | tblw (t : BitVec 3) (i : BitVec 16)
  /-- TBLR, R135. -/
  | tblr (t : BitVec 3) (i : BitVec 16)
  /-- START, R136. -/
  | start
  /-- STOP, R137. -/
  | stop
  /-- RDST, R138. -/
  | rdst (ch : BitVec 2) (n : BitVec 16)
  /-- RDSH, R139. -/
  | rdsh (ch : BitVec 2) (n : BitVec 16)
  /-- DISCARD, R140. -/
  | discard (ch : BitVec 2)
  /-- RTOA, R142. -/
  | rtoa
  /-- RTOB, R143. -/
  | rtob
  /-- MIX, 41_mixer_clip.md R171. -/
  | mix
  /-- UNMIX, R172. -/
  | unmix
  /-- CLIP, R175. -/
  | clip
  /-- LUT, 42_lut.md R191. -/
  | lut (t : BitVec 3)
  /-- DCF, 43_filters.md R221. -/
  | dcf (ch : BitVec 2) (k : BitVec 3)
  /-- DCF.C, R222. -/
  | dcfC (ch : BitVec 2) (k : BitVec 3)
  /-- DCF.U, R223. -/
  | dcfU (ch : BitVec 2) (k : BitVec 3)
  /-- HPF, R231. -/
  | hpf (ch : BitVec 2) (h : BitVec 3)
  /-- HPF.C, R232. -/
  | hpfC (ch : BitVec 2) (h : BitVec 3)
  /-- HPF.U, R233. -/
  | hpfU (ch : BitVec 2) (h : BitVec 3)
  /-- SLF, R241. -/
  | slf (ch : BitVec 2)
  /-- SLF.C, R242. -/
  | slfC (ch : BitVec 2)
  /-- SLF.U, R243. -/
  | slfU (ch : BitVec 2)
  /-- ENV, 44_envelope.md R265. -/
  | env (ch : BitVec 2)
  /-- ENV.C, R266. -/
  | envC (ch : BitVec 2)
  /-- ENV.U, R267. -/
  | envU (ch : BitVec 2)
  /-- SP, 45_sidepath.md R290. -/
  | sp (ch : BitVec 2)
  /-- SP.C, R291. -/
  | spC (ch : BitVec 2)
  /-- SP.U, R292. -/
  | spU (ch : BitVec 2)
  deriving DecidableEq, Repr

end Sys2Proof
end

