-- ==== Sys2Proof/WellFormed.lean ====
section
/-! DEFINITION. Which commands are well formed: the instance field is in the range of 30_encoding.md R105. It
is the only check that a command's word alone decides; a channel, register number, state number or entry index
out of range depends on the state or is a fault of its own (R104, 60_exceptions.md R370). A command that is not
well formed still has a meaning: it raises BAD_INSTANCE (R105). -/

namespace Sys2Proof

/-- `Instr.wf i`: INST is in range (R105): a DC-filter instance is 0 to 2, a fixed high-pass instance 0 or 1, a
table id 0 to 5. -/
def Instr.wf : Instr → Bool
  | .tblw t _ | .tblr t _ | .lut t => decide (t.toNat ≤ 5)
  | .dcf _ k | .dcfC _ k | .dcfU _ k => decide (k.toNat ≤ 2)
  | .hpf _ h | .hpfC _ h | .hpfU _ h => decide (h.toNat ≤ 1)
  | .nop | .cfgw _ | .cfgr _ | .start | .stop | .rdst _ _ | .rdsh _ _ | .discard _ | .rtoa | .rtob => true
  | .mix | .unmix | .clip => true
  | .slf _ | .slfC _ | .slfU _ | .env _ | .envC _ | .envU _ | .sp _ | .spC _ | .spU _ => true

end Sys2Proof
end

