-- ==== Sys2Proof/Decode.lean ====
section
/-! DEFINITION. Decoding and encoding of command words (30_encoding.md). The decoder is total: every word names
one command or is ILLEGAL (R109). It follows the opcode map R107, the fields R101 and the classes R102; an
instance out of range still names its command, whose meaning raises BAD_INSTANCE (R105, R108, R109). Below the
decoder stand the encoder, the byte order of the port (20_memory.md R85) and the host's entry point. -/

namespace Sys2Proof

/-- Why a word or a list of bytes names no command. -/
inductive DecodeError where
  /-- ILLEGAL with detail `w[7:0]`, R109. -/
  | illegal (op : BitVec 8)
  /-- The bytes are not the four bytes of a command word (R100); no CMD write supplies such a list. -/
  | notFourBytes (len : Nat)
  deriving DecidableEq, Repr

/-- The format classes of R102. -/
inductive Format where
  | f0 | fr | ft | fi | fc | fci | fcr
  deriving DecidableEq, Repr

/-! ## The fields of a command word, R101 -/

/-- OP, bits 7:0. -/
def opField (w : CmdWord) : BitVec 8 := w.extractLsb' 0 8

/-- CH, bits 9:8. -/
def chField (w : CmdWord) : BitVec 2 := w.extractLsb' 8 2

/-- INST, bits 12:10. -/
def instField (w : CmdWord) : BitVec 3 := w.extractLsb' 10 3

/-- RSV, bits 15:13. -/
def rsvField (w : CmdWord) : BitVec 3 := w.extractLsb' 13 3

/-- IMM16, bits 31:16. -/
def immField (w : CmdWord) : BitVec 16 := w.extractLsb' 16 16

/-- Does the class use CH? (R102) -/
def Format.usesCh : Format → Bool
  | .fc | .fci | .fcr => true
  | .f0 | .fr | .ft | .fi => false

/-- Does the class use INST? (R102) -/
def Format.usesInst : Format → Bool
  | .ft | .fi | .fci => true
  | .f0 | .fr | .fc | .fcr => false

/-- Does the class use IMM16? (R102) -/
def Format.usesImm : Format → Bool
  | .fr | .ft | .fcr => true
  | .f0 | .fi | .fc | .fci => false

/-- RSV and every field the class does not use are zero (R102, R109 step 2). -/
def Format.unusedZero (f : Format) (w : CmdWord) : Bool :=
  rsvField w == 0 && (f.usesCh || chField w == 0) && (f.usesInst || instField w == 0) &&
    (f.usesImm || immField w == 0)

/-! ## The opcode map, R107 -/

/-- The class and the constructor of an OP value, applied to the fields CH, INST and IMM16; `none` for the 225
unassigned values (R110). -/
def opcodeRow (op : BitVec 8) : Option (Format × (BitVec 2 → BitVec 3 → BitVec 16 → Instr)) :=
  match op.toNat with
  | 0x00 => some (.f0, fun _ _ _ => .nop)
  | 0x01 => some (.fr, fun _ _ n => .cfgw n)
  | 0x02 => some (.fr, fun _ _ n => .cfgr n)
  | 0x03 => some (.ft, fun _ t i => .tblw t i)
  | 0x04 => some (.ft, fun _ t i => .tblr t i)
  | 0x05 => some (.f0, fun _ _ _ => .start)
  | 0x06 => some (.f0, fun _ _ _ => .stop)
  | 0x07 => some (.fcr, fun c _ n => .rdst c n)
  | 0x08 => some (.fcr, fun c _ n => .rdsh c n)
  | 0x09 => some (.fc, fun c _ _ => .discard c)
  | 0x0A => some (.f0, fun _ _ _ => .rtoa)
  | 0x0B => some (.f0, fun _ _ _ => .rtob)
  | 0x10 => some (.f0, fun _ _ _ => .mix)
  | 0x11 => some (.f0, fun _ _ _ => .unmix)
  | 0x12 => some (.f0, fun _ _ _ => .clip)
  | 0x13 => some (.fi, fun _ t _ => .lut t)
  | 0x20 => some (.fci, fun c k _ => .dcf c k)
  | 0x21 => some (.fci, fun c k _ => .dcfC c k)
  | 0x22 => some (.fci, fun c k _ => .dcfU c k)
  | 0x24 => some (.fci, fun c h _ => .hpf c h)
  | 0x25 => some (.fci, fun c h _ => .hpfC c h)
  | 0x26 => some (.fci, fun c h _ => .hpfU c h)
  | 0x28 => some (.fc, fun c _ _ => .slf c)
  | 0x29 => some (.fc, fun c _ _ => .slfC c)
  | 0x2A => some (.fc, fun c _ _ => .slfU c)
  | 0x2C => some (.fc, fun c _ _ => .env c)
  | 0x2D => some (.fc, fun c _ _ => .envC c)
  | 0x2E => some (.fc, fun c _ _ => .envU c)
  | 0x30 => some (.fc, fun c _ _ => .sp c)
  | 0x31 => some (.fc, fun c _ _ => .spC c)
  | 0x32 => some (.fc, fun c _ _ => .spU c)
  | _ => none

/-- The decode procedure of R109, steps 1 and 2. Step 3 (BAD_INSTANCE) is the first check of the commands that
have an instance field, because such a word names its command (R108). -/
def decode (w : CmdWord) : Except DecodeError Instr :=
  match opcodeRow (opField w) with
  | none => .error (.illegal (opField w))
  | some (f, mk) =>
    if f.unusedZero w then .ok (mk (chField w) (instField w) (immField w))
    else .error (.illegal (opField w))

/-! ## The byte order of the port, 20_memory.md R85 -/

/-- The `k` bytes of a value, the byte at the lowest offset first (little-endian, R85). -/
def bytesLE : Nat → Nat → List Byte
  | 0, _ => []
  | k + 1, v => BitVec.ofNat 8 v :: bytesLE k (v / 256)

/-- The value of a list of bytes, the byte at the lowest offset holding bits 7:0 (R85). -/
def valueLE : List Byte → Nat
  | [] => 0
  | b :: bs => b.toNat + 256 * valueLE bs

/-- The command that the bytes of a CMD write name. -/
def decodeBytes (bs : List Byte) : Except DecodeError Instr :=
  if bs.length = 4 then decode (BitVec.ofNat 32 (valueLE bs)) else .error (.notFourBytes bs.length)

/-! ## The encoder -/

/-- A command word from its fields, RSV zero (R101, R114). -/
def packWord (op : BitVec 8) (ch : BitVec 2) (inst : BitVec 3) (imm : BitVec 16) : CmdWord :=
  op.setWidth 32 ||| ch.setWidth 32 <<< 8 ||| inst.setWidth 32 <<< 10 ||| imm.setWidth 32 <<< 16

/-- The OP value of a command, R107. -/
def opOf : Instr → BitVec 8
  | .nop => 0x00
  | .cfgw _ => 0x01
  | .cfgr _ => 0x02
  | .tblw _ _ => 0x03
  | .tblr _ _ => 0x04
  | .start => 0x05
  | .stop => 0x06
  | .rdst _ _ => 0x07
  | .rdsh _ _ => 0x08
  | .discard _ => 0x09
  | .rtoa => 0x0A
  | .rtob => 0x0B
  | .mix => 0x10
  | .unmix => 0x11
  | .clip => 0x12
  | .lut _ => 0x13
  | .dcf _ _ => 0x20
  | .dcfC _ _ => 0x21
  | .dcfU _ _ => 0x22
  | .hpf _ _ => 0x24
  | .hpfC _ _ => 0x25
  | .hpfU _ _ => 0x26
  | .slf _ => 0x28
  | .slfC _ => 0x29
  | .slfU _ => 0x2A
  | .env _ => 0x2C
  | .envC _ => 0x2D
  | .envU _ => 0x2E
  | .sp _ => 0x30
  | .spC _ => 0x31
  | .spU _ => 0x32

/-- The fields CH, INST and IMM16 of a command's word, zero where its class uses none (R102). -/
def fieldsOf : Instr → BitVec 2 × BitVec 3 × BitVec 16
  | .nop | .start | .stop | .rtoa | .rtob | .mix | .unmix | .clip => (0, 0, 0)
  | .cfgw n | .cfgr n => (0, 0, n)
  | .tblw t i | .tblr t i => (0, t, i)
  | .lut t => (0, t, 0)
  | .rdst c n | .rdsh c n => (c, 0, n)
  | .dcf c k | .dcfC c k | .dcfU c k => (c, k, 0)
  | .hpf c h | .hpfC c h | .hpfU c h => (c, h, 0)
  | .discard c | .slf c | .slfC c | .slfU c | .env c | .envC c | .envU c | .sp c | .spC c | .spU c => (c, 0, 0)

/-- The word of a command (R101, R107). -/
def encode (i : Instr) : CmdWord :=
  packWord (opOf i) (fieldsOf i).1 (fieldsOf i).2.1 (fieldsOf i).2.2

/-! ## The classes as masks, R108 -/

/-- The mask of a class (R108). -/
def Format.mask : Format → CmdWord
  | .f0 => 0xFFFFFFFF
  | .fr => 0x0000FFFF
  | .ft => 0x0000E3FF
  | .fi => 0xFFFFE3FF
  | .fc => 0xFFFFFCFF
  | .fci => 0xFFFFE0FF
  | .fcr => 0x0000FCFF

/-- The class of a command (R102). -/
def formatOf : Instr → Format
  | .nop | .start | .stop | .rtoa | .rtob | .mix | .unmix | .clip => .f0
  | .cfgw _ | .cfgr _ => .fr
  | .tblw _ _ | .tblr _ _ => .ft
  | .lut _ => .fi
  | .rdst _ _ | .rdsh _ _ => .fcr
  | .dcf _ _ | .dcfC _ _ | .dcfU _ _ | .hpf _ _ | .hpfC _ _ | .hpfU _ _ => .fci
  | .discard _ | .slf _ | .slfC _ | .slfU _ | .env _ | .envC _ | .envU _ | .sp _ | .spC _ | .spU _ => .fc

/-! ## The host's entry point -/

/-- The bytes of the command whose table word is `w` with `nbits` bits: the bits above `nbits` are 0, and the
bytes lie in the port's order (R85). -/
def tableWordBytes (nbits w : Nat) : List Byte := bytesLE 4 (w % 2 ^ nbits)

/-- The command the decoder reads from a row's word: the host's entry point. -/
def decodeTableWord (nbits w : Nat) : Option Instr := (decodeBytes (tableWordBytes nbits w)).toOption

end Sys2Proof
end

