-- ==== Sys2Proof/Config.lean ====
section
/-! DEFINITION. What is fixed for the machine: the parameters of 00_scope.md R9, the identification constant
of 10_state.md R44, and the parameters the spec leaves open (R10), which are the fields of `HostParams`, an
argument of every host procedure. The block itself has no open parameter: all of its open constants are
registers and table entries that the host writes. -/

namespace Sys2Proof

namespace Config

/-- `ID`, 10_state.md R44. -/
def idValue : Word := 0x534F584E47000701#64

/-- The default filter variant, 10_state.md R36. -/
def defaultVariant : Word := 4#64

/-- Entries of T_ATT, T_ALPHA and T_OATT (R9, 20_memory.md R81). -/
def fetSteps : Nat := 1001

/-- Entries of E1_ATT and E1_ALPHA (R9, R81). -/
def env1Steps : Nat := 976

/-- Entries of E2_ALPHA (R9, R81). -/
def env2Steps : Nat := 701

/-- The effective rate that automatic upsampling aims for, in Hz (R9, 70_reset_and_hazards.md R404). -/
def autoRate : Nat := 200000

/-- The least int64, R11. -/
def int64Min : Int := -(2 ^ 63)

/-- The greatest int64, R11. -/
def int64Max : Int := 2 ^ 63 - 1

/-- The floor of the decoder's tolerance, 48_host_protocol.md R318. -/
def tolFloor : Int := 10

/-- How many secant steps one decoded sample may attempt, R316. -/
def secantLimit : Nat := 2

/-- The host's default decode-accuracy target in dB, R310. -/
def defaultAccDb : Rat := -5

/-- The host's default threshold-gain adjustment in dB, R310. -/
def defaultThrDb : Rat := 0

end Config

/-- The open host parameters (R10; 93_implementation_defined.md I10 to I19; log entry 16), each a named argument. Nothing
of the block reads one of them: they reach it only as register and table values that the host writes. -/
structure HostParams where
  /-- `P_SCALE[8]`, R345. -/
  pScale8 : ℕ+
  /-- `P_SCALE[16]`, R345. -/
  pScale16 : ℕ+
  /-- `P_SCALE[24]`, R345. -/
  pScale24 : ℕ+
  /-- `P_TOL`, a function of the decode-accuracy target in dB, R318. -/
  pTol : Rat → Int
  /-- `P_SIDAMP_M`, R342. -/
  sidampM : Int
  /-- `P_ENVG_M`, R342. -/
  envgM : Int
  /-- `P_CLIP_V`, R344. -/
  clipV : Int
  /-- `P_VD`, R344. -/
  vd : Int
  /-- `P_CAL_AMP`, R331. -/
  calAmp : Float
  /-- `P_CAL_WARM`, R331. -/
  calWarm : Nat
  /-- `P_CAL_WIN`, R331. -/
  calWin : Nat
  /-- `P_CAL_LO` for SidAmp, R332. -/
  sidLo : Float
  /-- `P_CAL_HI` for SidAmp, R332. -/
  sidHi : Float
  /-- `P_CAL_LO` for FETSVt, R332. -/
  fetLo : Int
  /-- `P_CAL_HI` for FETSVt, R332. -/
  fetHi : Int
  /-- `P_FET_K`, R337. -/
  fetK : Float
  /-- `P_FET_VP`, R337. -/
  fetVp : Float
  /-- `P_FET_RMIN`, R337. -/
  fetRmin : Float
  /-- `P_FET_RMAX`, R337. -/
  fetRmax : Float
  /-- `P_FET_C`, R337. -/
  fetC : Float
  /-- `P_POT_R`, R337. -/
  potR : Float
  /-- `P_RC_MIN`, R337. -/
  rcMin : Float
  /-- `P_E1_RLO`, R338. -/
  e1Rlo : Int
  /-- `P_E1_RHI`, R338. -/
  e1Rhi : Int
  /-- `P_E1_IS`, R338. -/
  e1Is : Float
  /-- `P_E1_N`, R338. -/
  e1N : Float
  /-- `P_VT`, R338. -/
  vt : Float
  /-- `P_E1_RS`, R338. -/
  e1Rs : Float
  /-- `P_E1_C`, R338. -/
  e1C : Float
  /-- The diode voltage `Vd` at a terminal voltage and an integer resistance: the open part of the balance
  equation of R338. -/
  e1Vd : Float → Int → Float
  /-- The RC constant of envelope stage two at a voltage: the open resistance law of R339. -/
  e2Rc : Float → Float
  /-- `P_E2_FMAX`, R339. -/
  e2Fmax : Float
  /-- `P_MUX_TOP`, R340. -/
  muxTop : Float
  /-- `P_DCF_RC[k]`, R343. -/
  dcfRc : Fin 3 → Float
  /-- `P_HPF_RC[h]`, R343. -/
  hpfRc : Fin 2 → Float
  /-- The base voltage the host writes to `TBL_V0[t]`, R335. -/
  tblV0 : Fin 6 → Int
  /-- The step the host writes to `TBL_Q[t]`, R335. -/
  tblQ : Fin 6 → Int

end Sys2Proof
end

