-- ==== Sys2Proof/Machine/State.lean ====
section
/-! DEFINITION. The state of the block as plain data, the reasons a step can stop, and the power-on state
(10_state.md, 20_memory.md R81 and R82, 60_exceptions.md R360, 70_reset_and_hazards.md R400 and R401). Every
field says which rule names it; INVENTORY.md lists them all with their reset values. -/

namespace Sys2Proof.Machine

/-! ## Names -/

/-- The two channels (R48, 30_encoding.md R104). -/
inductive Channel where
  | ch1 | ch2
  deriving DecidableEq, Repr

/-- The six tables (20_memory.md R81), ids 0 to 5 in this order. -/
inductive TableId where
  | att | alpha | oatt | e1Att | e1Alpha | e2Alpha
  deriving DecidableEq, Repr

/-- The three DC filters (10_state.md R39, R53). -/
inductive DcfId where
  | k0 | k1 | k2
  deriving DecidableEq, Repr

/-- The two fixed high-pass filters (R40, R53). -/
inductive HpfId where
  | h0 | h1
  deriving DecidableEq, Repr

/-- The CFG registers (R36 to R44), one name per assigned number. -/
inductive CfgReg where
  | sr | nch | bits | flt | ups | upall | fetgnd
  | sidampV | sidampM | envgV | envgM | fetsvt | cliplim | vd | upsEff | id
  | dcfA (k : DcfId) | dcfM (k : DcfId)
  | hpfA (h : HpfId) | hpfM (h : HpfId)
  | muxAtt | muxAlpha | muxE1Att | muxE1Alpha | muxE2Alpha
  | tblV0 (t : TableId) | tblQ (t : TableId)
  deriving DecidableEq, Repr

/-- The fields of a bank (R49), state numbers 0 to 16 in this order. -/
inductive BankField where
  | dcf0Y | dcf0R | dcf1Y | dcf1R | dcf2Y | dcf2R
  | hpf0PI | hpf0PO | hpf1PI | hpf1PO | slfPI | slfPO
  | envS1 | envR1 | envS2 | envR2 | cv
  deriving DecidableEq, Repr

/-- What RDST reads (40_control.md R138): a field of the committed bank, PEND (0x20) or TOUT (0x21). -/
inductive StateReg where
  | field (f : BankField)
  | pend
  | tout
  deriving DecidableEq, Repr

/-- The access classes of CFG registers (R35). -/
inductive CfgClass where
  | session | run | readOnly
  deriving DecidableEq, Repr

/-- The fault causes of 60_exceptions.md R360 (code 0, NONE, is the absence of a fault). -/
inductive Cause where
  | illegal | badChannel | badInstance | notStarted | cfgLocked | badConfig | resource | noTrial | overflow
  | badReg | badIndex | unwritten | readOnly
  deriving DecidableEq, Repr

/-! ## How a step can stop -/

/-- The model's faults: the machine is stuck. None of the block's own faults is one of these: those are
recorded in STAT and the machine goes on (R362, R366). No state that the block can reach raises one of these
(log entry 4). All three are safe: the model stops where the spec gives no effect. -/
inductive Fault where
  /-- A division by 0, which 00_scope.md R15 excludes. Raised by a filter, detector or interpolator whose
  multiplier or table step is 0 in a started session; START refuses such a configuration (R136). Safe. -/
  | zeroDivisor
  /-- The interpolator met a table entry that was never written in a started session; START refuses to start
  with one (20_memory.md R82). Safe. -/
  | unwrittenEntry
  /-- SP or SP.C with an effective upsampling factor of 0; START sets it to 1 or more (R43). Safe. -/
  | noRepeat
  deriving DecidableEq, Repr

/-- The transactions the spec refuses (20_memory.md R86, R87; 93_implementation_defined.md I8: "refuse: the
model rejects a host program that makes one"), and instructions that have no meaning (log entry 12). All are safe. -/
inductive Refusal where
  /-- An instruction with no meaning. No arm of `exec` answers it. Safe. -/
  | notModelled (mnemonic : String)
  /-- A port access at an offset where no port register begins: misaligned, or at 0x20 and above. Raised by the
  port. Safe. -/
  | portOffset (offset : Nat)
  /-- A port access narrower or wider than the register at its offset. Raised by the port. Safe. -/
  | portWidth (offset width : Nat)
  /-- A write to RES or STAT. Raised by the port. Safe. -/
  | portReadOnly (offset : Nat)
  /-- A read of CMD. Raised by the port. Safe. -/
  | portWriteOnly (offset : Nat)
  deriving DecidableEq, Repr

/-- Why a command's pseudocode ends early: it raises a fault of the block (R19, R366), or it is stuck. -/
inductive Stop where
  | raise (c : Cause) (detail : BitVec 16)
  | stuck (f : Fault)
  deriving DecidableEq, Repr

/-! ## The state -/

/-- STAT's fields (R33). Bits 7:3 are reserved and read as 0, so they have no field. -/
structure Stat where
  /-- Bit 0. -/
  started : Bool
  /-- Bit 1. -/
  fault : Bool
  /-- Bit 2. -/
  clipf : Bool
  /-- Bits 15:8. -/
  fcause : BitVec 8
  /-- Bits 31:16. -/
  fdetail : BitVec 16
  deriving DecidableEq, Repr

/-- A coefficient pair `alpha/alphaMux` (R39, R40). -/
structure Coef where
  a : Word
  m : Word
  deriving DecidableEq, Repr

/-- A table's base voltage and step (R42). -/
structure Geom where
  v0 : Word
  q : Word
  deriving DecidableEq, Repr

/-- The configuration registers (R36 to R43). `ID` is a constant and has no field (R44). -/
structure Cfg where
  /-- 0x00, R36. -/
  sr : Word
  /-- 0x01, R36. -/
  nch : Word
  /-- 0x02, R36. -/
  bits : Word
  /-- 0x03, R36. -/
  flt : Word
  /-- 0x04, R36. -/
  ups : Word
  /-- 0x05, bit 0 only, R36. -/
  upall : Bool
  /-- 0x06, bit 0 only, R37. -/
  fetgnd : Bool
  /-- 0x07, R37. -/
  sidampV : Word
  /-- 0x08, R38. -/
  sidampM : Word
  /-- 0x09, R37. -/
  envgV : Word
  /-- 0x0A, R38. -/
  envgM : Word
  /-- 0x0B, R37. -/
  fetsvt : Word
  /-- 0x0C, R38. -/
  cliplim : Word
  /-- 0x0D, R38. -/
  vd : Word
  /-- 0x0E, R43. -/
  upsEff : Word
  /-- 0x10, 0x11, R39. -/
  dcf0 : Coef
  /-- 0x12, 0x13, R39. -/
  dcf1 : Coef
  /-- 0x14, 0x15, R39. -/
  dcf2 : Coef
  /-- 0x18, 0x19, R40. -/
  hpf0 : Coef
  /-- 0x1A, 0x1B, R40. -/
  hpf1 : Coef
  /-- 0x20, R41. -/
  muxAtt : Word
  /-- 0x21, R41. -/
  muxAlpha : Word
  /-- 0x22, R41. -/
  muxE1Att : Word
  /-- 0x23, R41. -/
  muxE1Alpha : Word
  /-- 0x24, R41. -/
  muxE2Alpha : Word
  /-- 0x28, 0x29, R42. -/
  geomAtt : Geom
  /-- 0x2A, 0x2B, R42. -/
  geomAlpha : Geom
  /-- 0x2C, 0x2D, R42. -/
  geomOatt : Geom
  /-- 0x2E, 0x2F, R42. -/
  geomE1Att : Geom
  /-- 0x30, 0x31, R42. -/
  geomE1Alpha : Geom
  /-- 0x32, 0x33, R42. -/
  geomE2Alpha : Geom
  deriving DecidableEq, Repr

/-- The written entries of one table, as (index, value) pairs in strictly rising order of index; an index that
is not listed has its written bit clear (20_memory.md R82). `Memory.wf` (Machine/Ops.lean) says the form
holds. -/
abbrev Memory := List (Nat × Word)

/-- The table memory (R81). -/
structure Tables where
  att : Memory
  alpha : Memory
  oatt : Memory
  e1Att : Memory
  e1Alpha : Memory
  e2Alpha : Memory
  deriving DecidableEq, Repr

/-- A bank's fields, in the order of their state numbers 0 to 16 (R49). -/
structure Bank where
  dcf0Y : Word
  dcf0R : Word
  dcf1Y : Word
  dcf1R : Word
  dcf2Y : Word
  dcf2R : Word
  hpf0PI : Word
  hpf0PO : Word
  hpf1PI : Word
  hpf1PO : Word
  slfPI : Word
  slfPO : Word
  envS1 : Word
  envR1 : Word
  envS2 : Word
  envR2 : Word
  cv : Word
  deriving DecidableEq, Repr

/-- A pending tag (R51). Its eight bits are `Pend.code` (Machine/Operands.lean; log entry 7). -/
inductive Pend where
  | none
  | dcf (k : DcfId)
  | hpf (h : HpfId)
  | slf
  | env
  | sp
  deriving DecidableEq, Repr

/-- What the block holds for one channel (R48): the committed bank, the shadow bank, the pending tag and the
trial output. -/
structure Chan where
  /-- `ST[c]`, R48. -/
  st : Bank
  /-- `SH[c]`, R48. -/
  sh : Bank
  /-- `PEND[c]`, R51. -/
  pend : Pend
  /-- `TOUT[c]`, R54. -/
  tout : Word
  deriving DecidableEq, Repr

/-- One event at the block's boundary: an access to the host port by byte offset (20_memory.md R85 to R87), or
the platform's power-on reset input (70_reset_and_hazards.md R400). A write carries its bytes, the one at the
lowest offset first; its width is their number. -/
inductive BusOp where
  | powerOn
  | read (offset width : Nat)
  | write (offset : Nat) (bytes : List Byte)
  deriving DecidableEq, Repr

/-- The whole state. `bus` and `rdata` are the model's own (log entries 1 and 2); every other field is the
spec's. -/
structure State where
  /-- R31. -/
  opa : Word
  /-- R31. -/
  opb : Word
  /-- R32. -/
  res : Word
  /-- R33. -/
  stat : Stat
  /-- R35 to R43. -/
  cfg : Cfg
  /-- 20_memory.md R81. -/
  tables : Tables
  /-- R48. -/
  chan1 : Chan
  /-- R48. -/
  chan2 : Chan
  /-- The events issued and not yet served, oldest first (R84, R89; log entry 1). -/
  bus : List BusOp
  /-- The bytes the last served port read returned (log entry 2). -/
  rdata : List Byte
  deriving DecidableEq, Repr

/-! ## Power-on values, R58 -/

/-- A bank with every field 0 (R50). -/
def Bank.zero : Bank :=
  { dcf0Y := 0, dcf0R := 0, dcf1Y := 0, dcf1R := 0, dcf2Y := 0, dcf2R := 0, hpf0PI := 0, hpf0PO := 0, hpf1PI := 0,
    hpf1PO := 0, slfPI := 0, slfPO := 0, envS1 := 0, envR1 := 0, envS2 := 0, envR2 := 0, cv := 0 }

/-- A channel after power-on, START and STOP (R50, R51, R54). -/
def Chan.zero : Chan := { st := Bank.zero, sh := Bank.zero, pend := .none, tout := 0 }

/-- No entry of any table written (R58). -/
def Tables.empty : Tables := { att := [], alpha := [], oatt := [], e1Att := [], e1Alpha := [], e2Alpha := [] }

/-- STAT = 0 (R58). -/
def Stat.zero : Stat := { started := false, fault := false, clipf := false, fcause := 0, fdetail := 0 }

/-- Every CFG register 0 but FLT, which is 4 (R58). -/
def Cfg.reset : Cfg :=
  { sr := 0, nch := 0, bits := 0, flt := Config.defaultVariant, ups := 0, upall := false, fetgnd := false,
    sidampV := 0, sidampM := 0, envgV := 0, envgM := 0, fetsvt := 0, cliplim := 0, vd := 0, upsEff := 0,
    dcf0 := ⟨0, 0⟩, dcf1 := ⟨0, 0⟩, dcf2 := ⟨0, 0⟩, hpf0 := ⟨0, 0⟩, hpf1 := ⟨0, 0⟩,
    muxAtt := 0, muxAlpha := 0, muxE1Att := 0, muxE1Alpha := 0, muxE2Alpha := 0,
    geomAtt := ⟨0, 0⟩, geomAlpha := ⟨0, 0⟩, geomOatt := ⟨0, 0⟩, geomE1Att := ⟨0, 0⟩, geomE1Alpha := ⟨0, 0⟩,
    geomE2Alpha := ⟨0, 0⟩ }

/-- The machine right after power-on (R58, R400), with no event pending. -/
def State.reset : State :=
  { opa := 0, opb := 0, res := 0, stat := Stat.zero, cfg := Cfg.reset, tables := Tables.empty, chan1 := Chan.zero,
    chan2 := Chan.zero, bus := [], rdata := [] }

end Sys2Proof.Machine
end

