-- ==== Sys2Proof/Machine/Ops.lean ====
section
/-! DEFINITION. The named operations over the state: checked arithmetic (00_scope.md R14 to R17), raising a fault
of the block and clearing it (60_exceptions.md R366, R367), the table memory (20_memory.md R81, R82), the
configuration registers (10_state.md R35 to R45), the channels (R48) and the three modes of a family command
(43_filters.md R210). -/

namespace Sys2Proof.Machine

/-! ## Checked arithmetic -/

/-- `chk`, R14: a value outside int64 raises OVERFLOW(0). -/
def chk (v : Int) : Except Stop Int :=
  if Config.int64Min ≤ v ∧ v ≤ Config.int64Max then .ok v else .error (.raise .overflow 0)

/-- `tdiv`, R15: truncation toward zero. R15 requires the divisor to be nonzero; the only quotient outside int64,
that of −2^63 by −1, raises OVERFLOW (60_exceptions.md R360). -/
def tdiv (a b : Int) : Except Stop Int :=
  if b = 0 then .error (.stuck .zeroDivisor) else chk (a.tdiv b)

/-- `fxmul(x, v, m)`, R16: multiply first, divide second. -/
def fxmul (x v m : Int) : Except Stop Int := do
  let p ← chk (x * v)
  tdiv p m

/-- `clamp(x, lo, hi)`, R17. -/
def clamp (x lo hi : Int) : Int := min (max x lo) hi

/-- The 64-bit register contents of an int64 value (R11). -/
def w64 (v : Int) : Word := BitVec.ofInt 64 v

/-! ## Taking a fault, and clearing it -/

/-- The cause codes of R360. -/
def Cause.code : Cause → BitVec 8
  | .illegal => 1
  | .badChannel => 2
  | .badInstance => 3
  | .notStarted => 4
  | .cfgLocked => 5
  | .badConfig => 6
  | .resource => 7
  | .noTrial => 8
  | .overflow => 9
  | .badReg => 10
  | .badIndex => 11
  | .unwritten => 12
  | .readOnly => 13

/-- The fault record that a fault writes into STAT (R366): FAULT, FCAUSE and FDETAIL. STARTED and CLIPF stay. -/
def Stat.record (st : Stat) (c : Cause) (d : BitVec 16) : Stat :=
  { st with fault := true, fcause := c.code, fdetail := d }

/-- Taking a fault of the block (R366): recorded if none is recorded yet; otherwise the first one stays (R367).
Nothing else changes (R19, R362). -/
def State.raise (s : State) (c : Cause) (d : BitVec 16) : State :=
  if s.stat.fault then s else { s with stat := s.stat.record c d }

/-- A failing START records its own failure even over an earlier fault (R367). -/
def State.raiseStart (s : State) (c : Cause) (d : BitVec 16) : State :=
  { s with stat := s.stat.record c d }

/-- A fault record cleared (R365; START R136 and STOP R137). There is no other return from a fault (R364). -/
def Stat.clearFault (st : Stat) : Stat := { st with fault := false, fcause := 0, fdetail := 0 }

/-- The end of a command: its new state, or the fault it raises (R19). -/
def State.finish (s : State) (r : Except Stop State) : Host.Outcome State Fault Refusal :=
  match r with
  | .ok s' => .next s'
  | .error (.raise c d) => .next (s.raise c d)
  | .error (.stuck f) => .fault f

/-- The end of a command that is inhibited while FAULT = 1: then it does nothing at all (40_control.md R130,
R367). -/
def State.finishUnlessFault (s : State) (r : Except Stop State) : Host.Outcome State Fault Refusal :=
  if s.stat.fault then .next s else s.finish r

/-- A check of a command: where the condition fails, the fault. -/
def demand (p : Bool) (c : Cause) (d : BitVec 16) : Except Stop Unit :=
  if p then .ok () else .error (.raise c d)

/-- The command needs a started session; the fault's detail is OP (R130, R360 code 4). -/
def State.needStarted (s : State) (op : BitVec 16) : Except Stop Unit :=
  demand s.stat.started .notStarted op

/-- STAT as the host reads it (10_state.md R33); bits 7:3 read as 0 (log entry 6). -/
def Stat.toWord (st : Stat) : BitVec 32 :=
  (BitVec.ofBool st.started).setWidth 32 ||| (BitVec.ofBool st.fault).setWidth 32 <<< 1 |||
    (BitVec.ofBool st.clipf).setWidth 32 <<< 2 ||| st.fcause.setWidth 32 <<< 8 ||| st.fdetail.setWidth 32 <<< 16

/-! ## The table memory -/

/-- `size(t)`, 20_memory.md R81. -/
def TableId.size : TableId → Nat
  | .att | .alpha | .oatt => Config.fetSteps
  | .e1Att | .e1Alpha => Config.env1Steps
  | .e2Alpha => Config.env2Steps

/-- The table's number t (R81). -/
def TableId.num : TableId → Nat
  | .att => 0
  | .alpha => 1
  | .oatt => 2
  | .e1Att => 3
  | .e1Alpha => 4
  | .e2Alpha => 5

/-- All tables in the order of their numbers (R81). -/
def allTables : List TableId := [.att, .alpha, .oatt, .e1Att, .e1Alpha, .e2Alpha]

/-- What an entry that no TBLW has written since power-on or STOP reads as: nothing, since its value is
unspecified and no command can observe it (R82, 70_reset_and_hazards.md R402; log entry 8). -/
def Memory.unlisted : Option Word := none

/-- The entry at an index: its value if its written bit is set (R82). -/
def Memory.read : Memory → Nat → Option Word
  | [], _ => Memory.unlisted
  | (k, v) :: m, i => if k = i then some v else Memory.read m i

/-- The memory after a write of one entry (R82): its value replaced, its written bit set. -/
def Memory.write : Memory → Nat → Word → Memory
  | [], i, v => [(i, v)]
  | (k, w) :: m, i, v =>
    if i < k then (i, v) :: (k, w) :: m
    else if i = k then (i, v) :: m
    else (k, w) :: Memory.write m i v

/-- The indexes of the list rise strictly from `lo` and stay below `n`. -/
def Memory.wfFrom (n : Nat) : Nat → Memory → Bool
  | _, [] => true
  | lo, (k, _) :: m => decide (lo ≤ k) && decide (k < n) && Memory.wfFrom n (k + 1) m

/-- The canonical form of a table of `n` entries: indexes strictly rising and below `n`. -/
def Memory.wf (n : Nat) (m : Memory) : Bool := Memory.wfFrom n 0 m

/-- Every entry 0 to n−1 is written (R82): in canonical form this is exactly that the listed indexes are all of
them (`memory_full_iff` in Laws/Memory.lean). -/
def Memory.full (n : Nat) (m : Memory) : Bool := m.map Prod.fst == List.range n

/-- One table of the table memory. -/
def Tables.get (tb : Tables) : TableId → Memory
  | .att => tb.att
  | .alpha => tb.alpha
  | .oatt => tb.oatt
  | .e1Att => tb.e1Att
  | .e1Alpha => tb.e1Alpha
  | .e2Alpha => tb.e2Alpha

/-- One table replaced. -/
def Tables.set (tb : Tables) (t : TableId) (m : Memory) : Tables :=
  match t with
  | .att => { tb with att := m }
  | .alpha => { tb with alpha := m }
  | .oatt => { tb with oatt := m }
  | .e1Att => { tb with e1Att := m }
  | .e1Alpha => { tb with e1Alpha := m }
  | .e2Alpha => { tb with e2Alpha := m }

/-- `TBL[t][i]`, if its written bit is set (R18, R82). -/
def Tables.read (tb : Tables) (t : TableId) (i : Nat) : Option Word := (tb.get t).read i

/-- `TBL[t][i] <- v` and its written bit set (40_control.md R134). -/
def Tables.write (tb : Tables) (t : TableId) (i : Nat) (v : Word) : Tables := tb.set t ((tb.get t).write i v)

/-- Every table is in canonical form. -/
def Tables.wf (tb : Tables) : Bool := allTables.all fun t => (tb.get t).wf t.size

/-- The lowest-numbered table with an unwritten entry (R82). -/
def Tables.firstIncomplete (tb : Tables) : Option TableId :=
  allTables.find? fun t => !(tb.get t).full t.size

/-- `TBL[t][i]` inside a datapath command, where every entry is written (R82, R83). -/
def Tables.entry (tb : Tables) (t : TableId) (i : Nat) : Except Stop Int :=
  match tb.read t i with
  | some v => .ok v.toInt
  | none => .error (.stuck .unwrittenEntry)

/-! ## The configuration registers -/

/-- The coefficient pair of DC filter k (R39). -/
def Cfg.dcf (g : Cfg) : DcfId → Coef
  | .k0 => g.dcf0
  | .k1 => g.dcf1
  | .k2 => g.dcf2

/-- The coefficient pair of DC filter k replaced. -/
def Cfg.setDcf (g : Cfg) (k : DcfId) (c : Coef) : Cfg :=
  match k with
  | .k0 => { g with dcf0 := c }
  | .k1 => { g with dcf1 := c }
  | .k2 => { g with dcf2 := c }

/-- The coefficient pair of high-pass filter h (R40). -/
def Cfg.hpf (g : Cfg) : HpfId → Coef
  | .h0 => g.hpf0
  | .h1 => g.hpf1

/-- The coefficient pair of high-pass filter h replaced. -/
def Cfg.setHpf (g : Cfg) (h : HpfId) (c : Coef) : Cfg :=
  match h with
  | .h0 => { g with hpf0 := c }
  | .h1 => { g with hpf1 := c }

/-- The geometry of table t (R42). -/
def Cfg.geom (g : Cfg) : TableId → Geom
  | .att => g.geomAtt
  | .alpha => g.geomAlpha
  | .oatt => g.geomOatt
  | .e1Att => g.geomE1Att
  | .e1Alpha => g.geomE1Alpha
  | .e2Alpha => g.geomE2Alpha

/-- The geometry of table t replaced. -/
def Cfg.setGeom (g : Cfg) (t : TableId) (x : Geom) : Cfg :=
  match t with
  | .att => { g with geomAtt := x }
  | .alpha => { g with geomAlpha := x }
  | .oatt => { g with geomOatt := x }
  | .e1Att => { g with geomE1Att := x }
  | .e1Alpha => { g with geomE1Alpha := x }
  | .e2Alpha => { g with geomE2Alpha := x }

/-- A one-bit register as it reads: bits 63:1 are 0 (R36, R37; log entry 9). -/
def flagWord (b : Bool) : Word := (BitVec.ofBool b).setWidth 64

/-- Bit 0 of a written value (40_control.md R132: `v & 1`). -/
def flagOf (v : Word) : Bool := v.getLsbD 0

/-- `CFG[r]` (R18): the value a register reads as. ID is a constant (R44; log entry 10). -/
def Cfg.read (g : Cfg) : CfgReg → Word
  | .sr => g.sr
  | .nch => g.nch
  | .bits => g.bits
  | .flt => g.flt
  | .ups => g.ups
  | .upall => flagWord g.upall
  | .fetgnd => flagWord g.fetgnd
  | .sidampV => g.sidampV
  | .sidampM => g.sidampM
  | .envgV => g.envgV
  | .envgM => g.envgM
  | .fetsvt => g.fetsvt
  | .cliplim => g.cliplim
  | .vd => g.vd
  | .upsEff => g.upsEff
  | .id => Config.idValue
  | .dcfA k => (g.dcf k).a
  | .dcfM k => (g.dcf k).m
  | .hpfA h => (g.hpf h).a
  | .hpfM h => (g.hpf h).m
  | .muxAtt => g.muxAtt
  | .muxAlpha => g.muxAlpha
  | .muxE1Att => g.muxE1Att
  | .muxE1Alpha => g.muxE1Alpha
  | .muxE2Alpha => g.muxE2Alpha
  | .tblV0 t => (g.geom t).v0
  | .tblQ t => (g.geom t).q

/-- `CFG[r] <- v` (R18). ID keeps its constant (R44). -/
def Cfg.write (g : Cfg) (r : CfgReg) (v : Word) : Cfg :=
  match r with
  | .sr => { g with sr := v }
  | .nch => { g with nch := v }
  | .bits => { g with bits := v }
  | .flt => { g with flt := v }
  | .ups => { g with ups := v }
  | .upall => { g with upall := flagOf v }
  | .fetgnd => { g with fetgnd := flagOf v }
  | .sidampV => { g with sidampV := v }
  | .sidampM => { g with sidampM := v }
  | .envgV => { g with envgV := v }
  | .envgM => { g with envgM := v }
  | .fetsvt => { g with fetsvt := v }
  | .cliplim => { g with cliplim := v }
  | .vd => { g with vd := v }
  | .upsEff => { g with upsEff := v }
  | .id => g
  | .dcfA k => g.setDcf k { g.dcf k with a := v }
  | .dcfM k => g.setDcf k { g.dcf k with m := v }
  | .hpfA h => g.setHpf h { g.hpf h with a := v }
  | .hpfM h => g.setHpf h { g.hpf h with m := v }
  | .muxAtt => { g with muxAtt := v }
  | .muxAlpha => { g with muxAlpha := v }
  | .muxE1Att => { g with muxE1Att := v }
  | .muxE1Alpha => { g with muxE1Alpha := v }
  | .muxE2Alpha => { g with muxE2Alpha := v }
  | .tblV0 t => g.setGeom t { g.geom t with v0 := v }
  | .tblQ t => g.setGeom t { g.geom t with q := v }

/-- The access class of a register (R35 to R44). -/
def CfgReg.cls : CfgReg → CfgClass
  | .fetgnd | .sidampV | .envgV | .fetsvt => .run
  | .upsEff | .id => .readOnly
  | .sr | .nch | .bits | .flt | .ups | .upall | .sidampM | .envgM | .cliplim | .vd => .session
  | .dcfA _ | .dcfM _ | .hpfA _ | .hpfM _ => .session
  | .muxAtt | .muxAlpha | .muxE1Att | .muxE1Alpha | .muxE2Alpha | .tblV0 _ | .tblQ _ => .session

/-! ## The channels -/

/-- The channel's number (R48). -/
def Channel.num : Channel → Nat
  | .ch1 => 1
  | .ch2 => 2

/-- What the block holds for channel c (R48). -/
def State.chan (s : State) : Channel → Chan
  | .ch1 => s.chan1
  | .ch2 => s.chan2

/-- What the block holds for channel c, replaced. -/
def State.setChan (s : State) (c : Channel) (x : Chan) : State :=
  match c with
  | .ch1 => { s with chan1 := x }
  | .ch2 => { s with chan2 := x }

/-! ## The three modes of a family command, 43_filters.md R210 -/

/-- Commit: `ST[c] <- B' ; PEND[c] <- 0 ; RES <- y`. -/
def State.commit (s : State) (c : Channel) (b : Bank) (y : Int) : State :=
  { s.setChan c { s.chan c with st := b, pend := .none } with res := w64 y }

/-- Check: `SH[c] <- B' ; TOUT[c] <- y ; PEND[c] <- {inst, kind} ; RES <- y`. -/
def State.check (s : State) (c : Channel) (p : Pend) (b : Bank) (y : Int) : State :=
  { s.setChan c { s.chan c with sh := b, tout := w64 y, pend := p } with res := w64 y }

/-- Update: `ST[c] <- SH[c] ; PEND[c] <- 0 ; RES <- TOUT[c]`. -/
def State.promote (s : State) (c : Channel) : State :=
  { s.setChan c { s.chan c with st := (s.chan c).sh, pend := .none } with res := (s.chan c).tout }

end Sys2Proof.Machine
end

