-- ==== Sys2Proof/Machine/Operands.lean ====
section
/-! DEFINITION. Operand assembly (30_encoding.md R103 to R105): the numbers of a command word turned into
channels, instances, tables, CFG registers and bank fields, or into the fault that a number out of range raises.
No command carries data in its word; the data operands are OPA and OPB. -/

namespace Sys2Proof.Machine

/-- CH 1 and 2 name a channel; 0 and 3 do not (R104). -/
def Channel.ofCh (ch : BitVec 2) : Option Channel :=
  match ch.toNat with
  | 1 => some .ch1
  | 2 => some .ch2
  | _ => none

/-- INST 0 to 5 name a table (R105). -/
def TableId.ofInst (t : BitVec 3) : Option TableId :=
  match t.toNat with
  | 0 => some .att
  | 1 => some .alpha
  | 2 => some .oatt
  | 3 => some .e1Att
  | 4 => some .e1Alpha
  | 5 => some .e2Alpha
  | _ => none

/-- INST 0 to 2 name a DC filter (R105). -/
def DcfId.ofInst (k : BitVec 3) : Option DcfId :=
  match k.toNat with
  | 0 => some .k0
  | 1 => some .k1
  | 2 => some .k2
  | _ => none

/-- INST 0 and 1 name a fixed high-pass filter (R105). -/
def HpfId.ofInst (h : BitVec 3) : Option HpfId :=
  match h.toNat with
  | 0 => some .h0
  | 1 => some .h1
  | _ => none

/-- The instance number of a DC filter. -/
def DcfId.num : DcfId → Nat
  | .k0 => 0
  | .k1 => 1
  | .k2 => 2

/-- The instance number of a fixed high-pass filter. -/
def HpfId.num : HpfId → Nat
  | .h0 => 0
  | .h1 => 1

/-- The DC filter that corrects a fixed high-pass filter (10_state.md R53). -/
def HpfId.dcf : HpfId → DcfId
  | .h0 => .k0
  | .h1 => .k1

/-- A command with an instance field: an instance out of range raises BAD_INSTANCE(INST) before anything else is
looked at, FAULT included (R105, R109 step 3, 60_exceptions.md R369, R370; log entry 5). -/
def State.withInst {α : Type} (s : State) (of : BitVec 3 → Option α) (inst : BitVec 3)
    (body : α → Host.Outcome State Fault Refusal) : Host.Outcome State Fault Refusal :=
  match of inst with
  | some x => body x
  | none => .next (s.raise .badInstance (inst.setWidth 16))

/-- Channel decoding (R104): CH is 1 or 2 and at most NCH, otherwise BAD_CHANNEL(CH) (NCH unsigned: log entry
13). -/
def State.needChannel (s : State) (ch : BitVec 2) : Except Stop Channel :=
  match Channel.ofCh ch with
  | some c => if c.num ≤ s.cfg.nch.toNat then .ok c else .error (.raise .badChannel (ch.setWidth 16))
  | none => .error (.raise .badChannel (ch.setWidth 16))

/-- The CFG register of a number; `none` where it is unassigned (10_state.md R36 to R45). -/
def CfgReg.ofNum (n : BitVec 16) : Option CfgReg :=
  match n.toNat with
  | 0x00 => some .sr
  | 0x01 => some .nch
  | 0x02 => some .bits
  | 0x03 => some .flt
  | 0x04 => some .ups
  | 0x05 => some .upall
  | 0x06 => some .fetgnd
  | 0x07 => some .sidampV
  | 0x08 => some .sidampM
  | 0x09 => some .envgV
  | 0x0A => some .envgM
  | 0x0B => some .fetsvt
  | 0x0C => some .cliplim
  | 0x0D => some .vd
  | 0x0E => some .upsEff
  | 0x0F => some .id
  | 0x10 => some (.dcfA .k0)
  | 0x11 => some (.dcfM .k0)
  | 0x12 => some (.dcfA .k1)
  | 0x13 => some (.dcfM .k1)
  | 0x14 => some (.dcfA .k2)
  | 0x15 => some (.dcfM .k2)
  | 0x18 => some (.hpfA .h0)
  | 0x19 => some (.hpfM .h0)
  | 0x1A => some (.hpfA .h1)
  | 0x1B => some (.hpfM .h1)
  | 0x20 => some .muxAtt
  | 0x21 => some .muxAlpha
  | 0x22 => some .muxE1Att
  | 0x23 => some .muxE1Alpha
  | 0x24 => some .muxE2Alpha
  | 0x28 => some (.tblV0 .att)
  | 0x29 => some (.tblQ .att)
  | 0x2A => some (.tblV0 .alpha)
  | 0x2B => some (.tblQ .alpha)
  | 0x2C => some (.tblV0 .oatt)
  | 0x2D => some (.tblQ .oatt)
  | 0x2E => some (.tblV0 .e1Att)
  | 0x2F => some (.tblQ .e1Att)
  | 0x30 => some (.tblV0 .e1Alpha)
  | 0x31 => some (.tblQ .e1Alpha)
  | 0x32 => some (.tblV0 .e2Alpha)
  | 0x33 => some (.tblQ .e2Alpha)
  | _ => none

/-- The number of a CFG register (R36 to R44). -/
def CfgReg.num : CfgReg → BitVec 16
  | .sr => 0x00
  | .nch => 0x01
  | .bits => 0x02
  | .flt => 0x03
  | .ups => 0x04
  | .upall => 0x05
  | .fetgnd => 0x06
  | .sidampV => 0x07
  | .sidampM => 0x08
  | .envgV => 0x09
  | .envgM => 0x0A
  | .fetsvt => 0x0B
  | .cliplim => 0x0C
  | .vd => 0x0D
  | .upsEff => 0x0E
  | .id => 0x0F
  | .dcfA k => BitVec.ofNat 16 (0x10 + 2 * k.num)
  | .dcfM k => BitVec.ofNat 16 (0x11 + 2 * k.num)
  | .hpfA h => BitVec.ofNat 16 (0x18 + 2 * h.num)
  | .hpfM h => BitVec.ofNat 16 (0x19 + 2 * h.num)
  | .muxAtt => 0x20
  | .muxAlpha => 0x21
  | .muxE1Att => 0x22
  | .muxE1Alpha => 0x23
  | .muxE2Alpha => 0x24
  | .tblV0 t => BitVec.ofNat 16 (0x28 + 2 * t.num)
  | .tblQ t => BitVec.ofNat 16 (0x29 + 2 * t.num)

/-- The index of a TBLW or TBLR, or BAD_INDEX(i) (R134, R135). -/
def needIndex (t : TableId) (i : BitVec 16) : Except Stop Nat :=
  if i.toNat < t.size then .ok i.toNat else .error (.raise .badIndex i)

/-- The tag's eight bits: kind in bits 3:0, instance in bits 6:4 (10_state.md R51). -/
def Pend.code : Pend → BitVec 8
  | .none => 0
  | .dcf k => BitVec.ofNat 8 (1 + 16 * k.num)
  | .hpf h => BitVec.ofNat 8 (2 + 16 * h.num)
  | .slf => 3
  | .env => 4
  | .sp => 5

/-- The bank field of a state number 0 to 16 (R49). -/
def BankField.ofNum (n : BitVec 16) : Option BankField :=
  match n.toNat with
  | 0 => some .dcf0Y
  | 1 => some .dcf0R
  | 2 => some .dcf1Y
  | 3 => some .dcf1R
  | 4 => some .dcf2Y
  | 5 => some .dcf2R
  | 6 => some .hpf0PI
  | 7 => some .hpf0PO
  | 8 => some .hpf1PI
  | 9 => some .hpf1PO
  | 10 => some .slfPI
  | 11 => some .slfPO
  | 12 => some .envS1
  | 13 => some .envR1
  | 14 => some .envS2
  | 15 => some .envR2
  | 16 => some .cv
  | _ => none

/-- What an RDST number names: 0 to 16, 0x20 (PEND) and 0x21 (TOUT) (R138). -/
def StateReg.ofNum (n : BitVec 16) : Option StateReg :=
  match n.toNat with
  | 0x20 => some .pend
  | 0x21 => some .tout
  | _ => (BankField.ofNum n).map .field

/-- A field of a bank (R49). -/
def Bank.read (b : Bank) : BankField → Word
  | .dcf0Y => b.dcf0Y
  | .dcf0R => b.dcf0R
  | .dcf1Y => b.dcf1Y
  | .dcf1R => b.dcf1R
  | .dcf2Y => b.dcf2Y
  | .dcf2R => b.dcf2R
  | .hpf0PI => b.hpf0PI
  | .hpf0PO => b.hpf0PO
  | .hpf1PI => b.hpf1PI
  | .hpf1PO => b.hpf1PO
  | .slfPI => b.slfPI
  | .slfPO => b.slfPO
  | .envS1 => b.envS1
  | .envR1 => b.envR1
  | .envS2 => b.envS2
  | .envR2 => b.envR2
  | .cv => b.cv

/-- What RDST returns for channel contents `x` (R138): PEND zero-extended. -/
def Chan.read (x : Chan) : StateReg → Word
  | .field f => x.st.read f
  | .pend => x.pend.code.setWidth 64
  | .tout => x.tout

/-- The meaning of an RDST or RDSH number, or BAD_REG(n) (R138, R139). -/
def needNum {α : Type} (r : Option α) (n : BitVec 16) : Except Stop α :=
  match r with
  | some x => .ok x
  | none => .error (.raise .badReg n)

/-- What an update needs (43_filters.md R210): the tag of its own family and instance, or NO_TRIAL(PEND). -/
def State.needTrial (s : State) (c : Channel) (p : Pend) : Except Stop Unit :=
  demand (decide ((s.chan c).pend = p)) .noTrial ((s.chan c).pend.code.setWidth 16)

end Sys2Proof.Machine
end

