-- ==== Sys2Proof/Machine/Flags.lean ====
section
/-! DEFINITION. The one condition flag of the block, CLIPF (10_state.md R47, R56), and the diode clip that
computes it (41_mixer_clip.md R173 to R176). -/

namespace Sys2Proof.Machine

/-- `diodeclip(x)` with limit L (R173): the clamped value, and 1 on or beyond the boundary. -/
def diodeclip (limit x : Int) : Int × Bool :=
  (clamp x (-limit) limit, decide (limit ≤ x) || decide (x ≤ -limit))

/-- `STAT.CLIPF <- f` (R176). -/
def State.setClip (s : State) (f : Bool) : State := { s with stat := { s.stat with clipf := f } }

end Sys2Proof.Machine
end

