-- ==== Sys2Proof/Machine/Control.lean ====
section
/-! DEFINITION. The control, configuration, table and bank-access commands (40_control.md R131 to R143): NOP,
CFGW, CFGR, TBLW, TBLR, START, STOP, RDST, RDSH, DISCARD, RTOA, RTOB. The order of the checks in each is that of
60_exceptions.md R370. -/

namespace Sys2Proof.Machine

/-- NOP, R131: nothing. -/
def execNop (s : State) : Host.Outcome State Fault Refusal := .next s

/-- CFGW, R132. -/
def execCfgw (n : BitVec 16) (s : State) : Host.Outcome State Fault Refusal :=
  s.finish do
    let r ← needNum (CfgReg.ofNum n) n
    demand (r.cls != .readOnly) .readOnly n
    demand (!(r.cls == .session && s.stat.started)) .cfgLocked n
    .ok { s with cfg := s.cfg.write r s.opa }

/-- CFGR, R133. -/
def execCfgr (n : BitVec 16) (s : State) : Host.Outcome State Fault Refusal :=
  s.finish do
    let r ← needNum (CfgReg.ofNum n) n
    .ok { s with res := s.cfg.read r }

/-- The detail of CFG_LOCKED for TBLW, `0x8000 | t` (R134). -/
def tblLockDetail (t : BitVec 3) : BitVec 16 := 0x8000#16 ||| t.setWidth 16

/-- TBLW, R134. -/
def execTblw (t : BitVec 3) (i : BitVec 16) (s : State) : Host.Outcome State Fault Refusal :=
  s.withInst TableId.ofInst t fun tb =>
    s.finish do
      let k ← needIndex tb i
      demand (!s.stat.started) .cfgLocked (tblLockDetail t)
      .ok { s with tables := s.tables.write tb k s.opa }

/-- TBLR, R135. -/
def execTblr (t : BitVec 3) (i : BitVec 16) (s : State) : Host.Outcome State Fault Refusal :=
  s.withInst TableId.ofInst t fun tb =>
    s.finish do
      let k ← needIndex tb i
      match s.tables.read tb k with
      | some v => .ok { s with res := v }
      | none => .error (.raise .unwritten i)

/-! ## START and STOP -/

/-- The multipliers that START requires to be positive (R136, BAD_CONFIG(5)). -/
def Cfg.multipliers (g : Cfg) : List Word :=
  [g.sidampM, g.envgM, g.dcf0.m, g.dcf1.m, g.dcf2.m, g.hpf0.m, g.hpf1.m, g.muxAtt, g.muxAlpha, g.muxE1Att,
    g.muxE1Alpha, g.muxE2Alpha]

/-- The coefficient pairs (R136, BAD_CONFIG(9)). -/
def Cfg.coefs (g : Cfg) : List Coef := [g.dcf0, g.dcf1, g.dcf2, g.hpf0, g.hpf1]

/-- `A` in `[0, M]` (R136, R39, R40). -/
def Coef.inRange (c : Coef) : Bool := decide (0 ≤ c.a.toInt) && decide (c.a.toInt ≤ c.m.toInt)

/-- The value is an int64. -/
def isInt64 (v : Int) : Bool := decide (Config.int64Min ≤ v) && decide (v ≤ Config.int64Max)

/-- The table's span and its last voltage are int64 (R136, BAD_CONFIG(10); 10_state.md R42). -/
def Geom.inInt64 (x : Geom) (size : Nat) : Bool :=
  isInt64 (((size : Int) - 1) * x.q.toInt) && isInt64 (x.v0.toInt + ((size : Int) - 1) * x.q.toInt)

/-- START's ten configuration checks in their order (R136). SR, NCH, BITS, FLT and UPS are unsigned, the rest
int64. -/
def Cfg.check (g : Cfg) : Except Stop Unit := do
  demand (g.nch == 1 || g.nch == 2) .badConfig 1
  demand (g.bits == 8 || g.bits == 16 || g.bits == 24) .badConfig 2
  demand (g.flt == 1 || g.flt == 2 || g.flt == 3 || g.flt == 4) .badConfig 3
  demand (g.sr != 0) .badConfig 4
  demand (g.multipliers.all fun m => decide (0 < m.toInt)) .badConfig 5
  demand (allTables.all fun t => decide (0 < (g.geom t).q.toInt)) .badConfig 6
  demand (decide (0 < g.cliplim.toInt)) .badConfig 7
  demand (decide (0 ≤ g.vd.toInt)) .badConfig 8
  demand (g.coefs.all Coef.inRange) .badConfig 9
  demand (allTables.all fun t => (g.geom t).inInt64 t.size) .badConfig 10

/-- START's last check: the lowest table with an unwritten entry raises RESOURCE(t+1) (R136, 20_memory.md
R82). -/
def Tables.check (tb : Tables) : Except Stop Unit :=
  match tb.firstIncomplete with
  | none => .ok ()
  | some t => .error (.raise .resource (BitVec.ofNat 16 (t.num + 1)))

/-- The effective upsampling factor N (70_reset_and_hazards.md R404), on exact naturals (log entry 11). -/
def Cfg.factor (g : Cfg) : Nat :=
  if g.ups ≠ 0 then g.ups.toNat
  else max 1 ((Config.autoRate + g.sr.toNat - 1) / g.sr.toNat)

/-- What a successful START writes (R136, R401). -/
def State.startSession (s : State) : State :=
  { s with
    cfg := { s.cfg with upsEff := BitVec.ofNat 64 s.cfg.factor }
    chan1 := Chan.zero
    chan2 := Chan.zero
    stat := { s.stat.clearFault with clipf := false, started := true } }

/-- START, R136: a failing START records its failure even over an earlier fault (60_exceptions.md R367). -/
def execStart (s : State) : Host.Outcome State Fault Refusal :=
  match (do s.cfg.check; s.tables.check : Except Stop Unit) with
  | .ok _ => .next s.startSession
  | .error (.raise c d) => .next (s.raiseStart c d)
  | .error (.stuck f) => .fault f

/-- STOP, R137. -/
def execStop (s : State) : Host.Outcome State Fault Refusal :=
  .next
    { s with
      stat := { s.stat.clearFault with clipf := false, started := false }
      cfg := { s.cfg with upsEff := 0 }
      chan1 := Chan.zero
      chan2 := Chan.zero
      tables := Tables.empty }

/-! ## Bank access and moves -/

/-- RDST, R138. -/
def execRdst (ch : BitVec 2) (n : BitVec 16) (s : State) : Host.Outcome State Fault Refusal :=
  s.finish do
    let r ← needNum (StateReg.ofNum n) n
    s.needStarted 0x07
    let c ← s.needChannel ch
    .ok { s with res := (s.chan c).read r }

/-- RDSH, R139. -/
def execRdsh (ch : BitVec 2) (n : BitVec 16) (s : State) : Host.Outcome State Fault Refusal :=
  s.finish do
    let f ← needNum (BankField.ofNum n) n
    s.needStarted 0x08
    let c ← s.needChannel ch
    .ok { s with res := (s.chan c).sh.read f }

/-- DISCARD, R140. -/
def execDiscard (ch : BitVec 2) (s : State) : Host.Outcome State Fault Refusal :=
  s.finishUnlessFault do
    s.needStarted 0x09
    let c ← s.needChannel ch
    .ok (s.setChan c { s.chan c with pend := .none })

/-- RTOA, R142. -/
def execRtoa (s : State) : Host.Outcome State Fault Refusal :=
  s.finishUnlessFault (.ok { s with opa := s.res })

/-- RTOB, R143. -/
def execRtob (s : State) : Host.Outcome State Fault Refusal :=
  s.finishUnlessFault (.ok { s with opb := s.res })

end Sys2Proof.Machine
end

