-- ==== Sys2Proof/Machine/Mixer.lean ====
section
/-! DEFINITION. The mixer and the diode clip (41_mixer_clip.md): MIX, UNMIX, CLIP. -/

namespace Sys2Proof.Machine

/-- MIX, R171: `RES <- chk(OPA + OPB)`. -/
def execMix (s : State) : Host.Outcome State Fault Refusal :=
  s.finishUnlessFault do
    s.needStarted 0x10
    let y ← chk (s.opa.toInt + s.opb.toInt)
    .ok { s with res := w64 y }

/-- UNMIX, R172: `RES <- chk(OPA - OPB)`. -/
def execUnmix (s : State) : Host.Outcome State Fault Refusal :=
  s.finishUnlessFault do
    s.needStarted 0x11
    let y ← chk (s.opa.toInt - s.opb.toInt)
    .ok { s with res := w64 y }

/-- CLIP, R175. -/
def execClip (s : State) : Host.Outcome State Fault Refusal :=
  s.finishUnlessFault do
    s.needStarted 0x12
    let y := diodeclip s.cfg.cliplim.toInt s.opa.toInt
    .ok { s.setClip y.2 with res := w64 y.1 }

end Sys2Proof.Machine
end

