-- ==== Sys2Proof/Machine/Filters.lean ====
section
/-! DEFINITION. The filter stages and their commands (43_filters.md): the DC filter (DCF), the fixed high-pass
(HPF) and the sliding high-pass (SLF), each in the modes commit, check and update (R210). A stage is a pure
function of the committed bank (00_scope.md R20); expressions are evaluated left to right, each `+`, `-`, `*`
checked. -/

namespace Sys2Proof.Machine

/-! ## Stage functions -/

/-- `DCFstep`, R214: the new last output and remainder. The step's output is the new last output. -/
def dcfStep (y r x a m : Int) : Except Stop (Int × Int) := do
  let delta ← chk (x - y)
  let p ← chk (delta * a)
  let acc ← chk (r + p)
  let d ← tdiv acc m
  let dm ← chk (d * m)
  let r' ← chk (acc - dm)
  let y' ← chk (y + d)
  .ok (y', r')

/-- `dccorr`, R217: the DC filter run on the value, and the value less the filter's output. -/
def dcCorr (y r v a m : Int) : Except Stop (Int × Int × Int) := do
  let (y', r') ← dcfStep y r v a m
  let v' ← chk (v - y')
  .ok (y', r', v')

/-- The four fields a high-pass stage owns: prevIn, prevOut, and its DC filter's last output and remainder
(R220). -/
structure HpfFields where
  pi : Int
  po : Int
  y : Int
  r : Int
  deriving DecidableEq, Repr

/-- `HPFstep`, R218: the new fields and the output. The stored prevOut is DC-corrected, the output is not. -/
def hpfStep (f : HpfFields) (x a m da dm : Int) : Except Stop (HpfFields × Int) := do
  let u ← chk (f.po + x)
  let v ← chk (u - f.pi)
  let p ← chk (v * a)
  let out ← tdiv p m
  let (y', r', po') ← dcCorr f.y f.r out da dm
  .ok (⟨x, po', y', r'⟩, out)

/-- `SLFstep`, R219: the high-pass step with a per-sample coefficient, multiplier MUX_ALPHA, corrected by
DCF2. -/
def slfStep (g : Cfg) (f : HpfFields) (u a : Int) : Except Stop (HpfFields × Int) :=
  hpfStep f u a g.muxAlpha.toInt g.dcf2.a.toInt g.dcf2.m.toInt

/-! ## The bank fields of a stage, R220 -/

/-- `DCFk_Y` and `DCFk_R`. -/
def Bank.dcf (b : Bank) : DcfId → Int × Int
  | .k0 => (b.dcf0Y.toInt, b.dcf0R.toInt)
  | .k1 => (b.dcf1Y.toInt, b.dcf1R.toInt)
  | .k2 => (b.dcf2Y.toInt, b.dcf2R.toInt)

/-- `DCFk_Y` and `DCFk_R` replaced. -/
def Bank.setDcf (b : Bank) (k : DcfId) (y r : Int) : Bank :=
  match k with
  | .k0 => { b with dcf0Y := w64 y, dcf0R := w64 r }
  | .k1 => { b with dcf1Y := w64 y, dcf1R := w64 r }
  | .k2 => { b with dcf2Y := w64 y, dcf2R := w64 r }

/-- `HPFh_PI`, `HPFh_PO`, `DCFh_Y`, `DCFh_R`. -/
def Bank.hpf (b : Bank) : HpfId → HpfFields
  | .h0 => ⟨b.hpf0PI.toInt, b.hpf0PO.toInt, b.dcf0Y.toInt, b.dcf0R.toInt⟩
  | .h1 => ⟨b.hpf1PI.toInt, b.hpf1PO.toInt, b.dcf1Y.toInt, b.dcf1R.toInt⟩

/-- The four fields of high-pass h replaced. -/
def Bank.setHpf (b : Bank) (h : HpfId) (f : HpfFields) : Bank :=
  match h with
  | .h0 => { b with hpf0PI := w64 f.pi, hpf0PO := w64 f.po, dcf0Y := w64 f.y, dcf0R := w64 f.r }
  | .h1 => { b with hpf1PI := w64 f.pi, hpf1PO := w64 f.po, dcf1Y := w64 f.y, dcf1R := w64 f.r }

/-- `SLF_PI`, `SLF_PO`, `DCF2_Y`, `DCF2_R`. -/
def Bank.slf (b : Bank) : HpfFields := ⟨b.slfPI.toInt, b.slfPO.toInt, b.dcf2Y.toInt, b.dcf2R.toInt⟩

/-- The four fields of the sliding filter replaced. -/
def Bank.setSlf (b : Bank) (f : HpfFields) : Bank :=
  { b with slfPI := w64 f.pi, slfPO := w64 f.po, dcf2Y := w64 f.y, dcf2R := w64 f.r }

/-! ## The pure functions of the families -/

/-- `fDCF(B, k, x)`, section 3. -/
def fDcf (g : Cfg) (b : Bank) (k : DcfId) (x : Int) : Except Stop (Bank × Int) := do
  let (y', r') ← dcfStep (b.dcf k).1 (b.dcf k).2 x (g.dcf k).a.toInt (g.dcf k).m.toInt
  .ok (b.setDcf k y' r', y')

/-- `fHPF(B, h, x)`, section 4. -/
def fHpf (g : Cfg) (b : Bank) (h : HpfId) (x : Int) : Except Stop (Bank × Int) := do
  let (f, y) ← hpfStep (b.hpf h) x (g.hpf h).a.toInt (g.hpf h).m.toInt (g.dcf h.dcf).a.toInt (g.dcf h.dcf).m.toInt
  .ok (b.setHpf h f, y)

/-- `fSLF(B, u, a)`, section 5. -/
def fSlf (g : Cfg) (b : Bank) (u a : Int) : Except Stop (Bank × Int) := do
  let (f, y) ← slfStep g b.slf u a
  .ok (b.setSlf f, y)

/-! ## The three modes, R210, for a family on a channel -/

/-- Commit mode of a family whose function on the committed bank is `f`. -/
def State.runCommit (s : State) (op : BitVec 16) (ch : BitVec 2) (f : Bank → Except Stop (Bank × Int)) :
    Host.Outcome State Fault Refusal :=
  s.finishUnlessFault do
    s.needStarted op
    let c ← s.needChannel ch
    let (b, y) ← f (s.chan c).st
    .ok (s.commit c b y)

/-- Check mode. -/
def State.runCheck (s : State) (op : BitVec 16) (ch : BitVec 2) (p : Pend)
    (f : Bank → Except Stop (Bank × Int)) : Host.Outcome State Fault Refusal :=
  s.finishUnlessFault do
    s.needStarted op
    let c ← s.needChannel ch
    let (b, y) ← f (s.chan c).st
    .ok (s.check c p b y)

/-- Update mode: no arithmetic, so no OVERFLOW (R212). -/
def State.runUpdate (s : State) (op : BitVec 16) (ch : BitVec 2) (p : Pend) : Host.Outcome State Fault Refusal :=
  s.finishUnlessFault do
    s.needStarted op
    let c ← s.needChannel ch
    s.needTrial c p
    .ok (s.promote c)

/-! ## DCF -/

/-- DCF, R221. -/
def execDcf (ch : BitVec 2) (k : BitVec 3) (s : State) : Host.Outcome State Fault Refusal :=
  s.withInst DcfId.ofInst k fun j => s.runCommit 0x20 ch fun b => fDcf s.cfg b j s.opa.toInt

/-- DCF.C, R222. -/
def execDcfC (ch : BitVec 2) (k : BitVec 3) (s : State) : Host.Outcome State Fault Refusal :=
  s.withInst DcfId.ofInst k fun j => s.runCheck 0x21 ch (.dcf j) fun b => fDcf s.cfg b j s.opa.toInt

/-- DCF.U, R223. -/
def execDcfU (ch : BitVec 2) (k : BitVec 3) (s : State) : Host.Outcome State Fault Refusal :=
  s.withInst DcfId.ofInst k fun j => s.runUpdate 0x22 ch (.dcf j)

/-! ## HPF -/

/-- HPF, R231. -/
def execHpf (ch : BitVec 2) (h : BitVec 3) (s : State) : Host.Outcome State Fault Refusal :=
  s.withInst HpfId.ofInst h fun j => s.runCommit 0x24 ch fun b => fHpf s.cfg b j s.opa.toInt

/-- HPF.C, R232. -/
def execHpfC (ch : BitVec 2) (h : BitVec 3) (s : State) : Host.Outcome State Fault Refusal :=
  s.withInst HpfId.ofInst h fun j => s.runCheck 0x25 ch (.hpf j) fun b => fHpf s.cfg b j s.opa.toInt

/-- HPF.U, R233. -/
def execHpfU (ch : BitVec 2) (h : BitVec 3) (s : State) : Host.Outcome State Fault Refusal :=
  s.withInst HpfId.ofInst h fun j => s.runUpdate 0x26 ch (.hpf j)

/-! ## SLF -/

/-- SLF, R241: input OPA, coefficient OPB. -/
def execSlf (ch : BitVec 2) (s : State) : Host.Outcome State Fault Refusal :=
  s.runCommit 0x28 ch fun b => fSlf s.cfg b s.opa.toInt s.opb.toInt

/-- SLF.C, R242. -/
def execSlfC (ch : BitVec 2) (s : State) : Host.Outcome State Fault Refusal :=
  s.runCheck 0x29 ch .slf fun b => fSlf s.cfg b s.opa.toInt s.opb.toInt

/-- SLF.U, R243. -/
def execSlfU (ch : BitVec 2) (s : State) : Host.Outcome State Fault Refusal := s.runUpdate 0x2A ch .slf

end Sys2Proof.Machine
end

