-- ==== Sys2Proof/Machine/Lut.lean ====
section
/-! DEFINITION. The lookup-table interpolator (42_lut.md): `interp` and LUT. -/

namespace Sys2Proof.Machine

/-- `interp(t, v)`, R190: the voltage clamped to the table's domain, then linear interpolation between the two
adjacent entries, the product truncated toward zero. The result is the raw table value (R192). -/
def interp (g : Cfg) (tb : Tables) (t : TableId) (v : Int) : Except Stop Int := do
  let v0 := (g.geom t).v0.toInt
  let q := (g.geom t).q.toInt
  let span ← chk (((t.size : Int) - 1) * q)
  let vmax ← chk (v0 + span)
  let d ← chk (clamp v v0 vmax - v0)
  let i ← tdiv d q
  let iq ← chk (i * q)
  let f ← chk (d - iq)
  if i = (t.size : Int) - 1 then
    tb.entry t (t.size - 1)
  else do
    let a ← tb.entry t i.toNat
    let b ← tb.entry t (i.toNat + 1)
    let diff ← chk (b - a)
    let p ← chk (diff * f)
    let e ← tdiv p q
    chk (a + e)

/-- LUT, R191. -/
def execLut (t : BitVec 3) (s : State) : Host.Outcome State Fault Refusal :=
  s.withInst TableId.ofInst t fun tb =>
    s.finishUnlessFault do
      s.needStarted 0x13
      let y ← interp s.cfg s.tables tb s.opa.toInt
      .ok { s with res := w64 y }

end Sys2Proof.Machine
end

