-- ==== Sys2Proof/Machine/Envelope.lean ====
section
/-! DEFINITION. The two-stage envelope detector (44_envelope.md): `ENVfun` and the ENV family. -/

namespace Sys2Proof.Machine

/-- The diode floor, R262: stage two's output raised to the floor, and then its remainder cleared. -/
def diodeFloor (s2 r2 fl : Int) : Int × Int := if s2 < fl then (fl, 0) else (s2, r2)

/-- `ENVfun(B, e)`, R261. -/
def envFun (g : Cfg) (tb : Tables) (b : Bank) (e : Int) : Except Stop (Bank × Int) := do
  let lo := g.geomE1Att.v0.toInt
  let span ← chk (((Config.env1Steps : Int) - 1) * g.geomE1Att.q.toInt)
  let hi ← chk (lo + span)
  let ec := clamp e lo hi
  let att1 ← interp g tb .e1Att ec
  let al1 ← interp g tb .e1Alpha ec
  let a1 ← fxmul ec att1 g.muxE1Att.toInt
  let (s1, r1) ← dcfStep b.envS1.toInt b.envR1.toInt a1 al1 g.muxE1Alpha.toInt
  let al2 ← interp g tb .e2Alpha s1
  let (s2, r2) ← dcfStep b.envS2.toInt b.envR2.toInt s1 al2 g.muxE2Alpha.toInt
  let fl ← chk (s1 - g.vd.toInt)
  let (s2', r2') := diodeFloor s2 r2 fl
  .ok ({ b with envS1 := w64 s1, envR1 := w64 r1, envS2 := w64 s2', envR2 := w64 r2', cv := w64 s2' }, s2')

/-- ENV, R265. -/
def execEnv (ch : BitVec 2) (s : State) : Host.Outcome State Fault Refusal :=
  s.runCommit 0x2C ch fun b => envFun s.cfg s.tables b s.opa.toInt

/-- ENV.C, R266. -/
def execEnvC (ch : BitVec 2) (s : State) : Host.Outcome State Fault Refusal :=
  s.runCheck 0x2D ch .env fun b => envFun s.cfg s.tables b s.opa.toInt

/-- ENV.U, R267. -/
def execEnvU (ch : BitVec 2) (s : State) : Host.Outcome State Fault Refusal := s.runUpdate 0x2E ch .env

end Sys2Proof.Machine
end

