-- ==== Sys2Proof/Machine/SidePath.lean ====
section
/-! DEFINITION. The side-path orchestrator (45_sidepath.md): `SPpass`, `SPfun` and the SP family. -/

namespace Sys2Proof.Machine

/-- The pseudocode's `repeat n times: (s, y) <- f(s)`, which keeps the last output (R282). The factor is 1 or more
in every started session (R281); with 0 there is no last output (log entry 4). -/
def repeatStage (f : Bank → Except Stop (Bank × Int)) : Nat → Bank → Except Stop (Bank × Int)
  | 0, _ => .error (.stuck .noRepeat)
  | 1, b => f b
  | n + 2, b => do
    let (b', _) ← f b
    repeatStage f (n + 1) b'

/-- The voltage that indexes the FET tables, R283. -/
def tableVoltage (g : Cfg) (b : Bank) : Except Stop Int :=
  if g.fetgnd then .ok 0 else chk (g.fetsvt.toInt + b.cv.toInt)

/-- The input stage of a pass: HPF0 in variants 1 and 3 (R282, R285). -/
def spInput (g : Cfg) (b : Bank) (u0 : Int) : Except Stop (Bank × Int) :=
  if g.flt = 1 ∨ g.flt = 3 then fHpf g b .h0 u0 else .ok (b, u0)

/-- The sliding filter and the potentiometer tap (R284): the bank, the last sliding output `hs` and the tap.
Variants 1 and 2 attenuate first; variants 3 and 4 filter first. -/
def spSliding (g : Cfg) (b : Bank) (u1 att alpha : Int) (n : Nat) : Except Stop (Bank × Int × Int) :=
  if g.flt = 1 ∨ g.flt = 2 then do
    let tap ← fxmul u1 att g.muxAtt.toInt
    let (b', hs) ← repeatStage (fun b => fSlf g b tap alpha) n b
    .ok (b', hs, tap)
  else do
    let (b', hs) ← repeatStage (fun b => fSlf g b u1 alpha) n b
    let df ← chk (u1 - hs)
    let tap ← fxmul df att g.muxAtt.toInt
    .ok (b', hs, tap)

/-- The potentiometer branch: HPF1 on the tap in variants 2 and 4 (R285). -/
def spBranch2 (g : Cfg) (b : Bank) (tap : Int) : Except Stop (Bank × Int) :=
  if g.flt = 2 ∨ g.flt = 4 then fHpf g b .h1 tap else .ok (b, tap)

/-- The envelope feed at the end of a pass, skipped while the FET is clamped to ground (R286). -/
def spEnvelope (g : Cfg) (tb : Tables) (b : Bank) (sum : Int) : Except Stop Bank :=
  if g.fetgnd then .ok b
  else do
    let e ← fxmul sum g.envgV.toInt g.envgM.toInt
    let (b', _) ← envFun g tb b e
    .ok b'

/-- `SPpass(s, u0, n)`, R282. -/
def spPass (g : Cfg) (tb : Tables) (n : Nat) (u0 : Int) (b : Bank) : Except Stop (Bank × Int) := do
  let (b1, u1) ← spInput g b u0
  let v ← tableVoltage g b1
  let att ← interp g tb .att v
  let alpha ← interp g tb .alpha v
  let oatt ← interp g tb .oatt v
  let (b2, hs, tap) ← spSliding g b1 u1 att alpha n
  let br1 ← fxmul hs oatt g.muxAtt.toInt
  let (b3, br2) ← spBranch2 g b2 tap
  let sum ← chk (br1 + br2)
  let b4 ← spEnvelope g tb b3 sum
  .ok (b4, sum)

/-- `SPfun(B, x)`, R281: the new bank, the clipped output and the clip flag (R287). -/
def spFun (g : Cfg) (tb : Tables) (b : Bank) (x : Int) : Except Stop (Bank × Int × Bool) := do
  let n := g.upsEff.toNat
  let passes := if g.upall then n else 1
  let steps := if g.upall then 1 else n
  let u0 ← fxmul x g.sidampV.toInt g.sidampM.toInt
  let (b', sum) ← repeatStage (spPass g tb steps u0) passes b
  let (y, f) := diodeclip g.cliplim.toInt sum
  .ok (b', y, f)

/-- SP, R290. -/
def execSp (ch : BitVec 2) (s : State) : Host.Outcome State Fault Refusal :=
  s.finishUnlessFault do
    s.needStarted 0x30
    let c ← s.needChannel ch
    let (b, y, f) ← spFun s.cfg s.tables (s.chan c).st s.opa.toInt
    .ok ((s.commit c b y).setClip f)

/-- SP.C, R291. -/
def execSpC (ch : BitVec 2) (s : State) : Host.Outcome State Fault Refusal :=
  s.finishUnlessFault do
    s.needStarted 0x31
    let c ← s.needChannel ch
    let (b, y, f) ← spFun s.cfg s.tables (s.chan c).st s.opa.toInt
    .ok ((s.check c .sp b y).setClip f)

/-- SP.U, R292: CLIPF unchanged. -/
def execSpU (ch : BitVec 2) (s : State) : Host.Outcome State Fault Refusal := s.runUpdate 0x32 ch .sp

end Sys2Proof.Machine
end

