-- ==== Sys2Proof/Machine/Dispatch.lean ====
section
/-! DEFINITION. One arm per command: each calls the command's own meaning. -/

namespace Sys2Proof.Machine

def exec (i : Instr) (s : State) : Host.Outcome State Fault Refusal :=
  match i with
  | .nop => Sys2Proof.Machine.execNop s
  | .cfgw n => Sys2Proof.Machine.execCfgw n s
  | .cfgr n => Sys2Proof.Machine.execCfgr n s
  | .tblw t ix => Sys2Proof.Machine.execTblw t ix s
  | .tblr t ix => Sys2Proof.Machine.execTblr t ix s
  | .start => Sys2Proof.Machine.execStart s
  | .stop => Sys2Proof.Machine.execStop s
  | .rdst ch n => Sys2Proof.Machine.execRdst ch n s
  | .rdsh ch n => Sys2Proof.Machine.execRdsh ch n s
  | .discard ch => Sys2Proof.Machine.execDiscard ch s
  | .rtoa => Sys2Proof.Machine.execRtoa s
  | .rtob => Sys2Proof.Machine.execRtob s
  | .mix => Sys2Proof.Machine.execMix s
  | .unmix => Sys2Proof.Machine.execUnmix s
  | .clip => Sys2Proof.Machine.execClip s
  | .lut t => Sys2Proof.Machine.execLut t s
  | .dcf ch k => Sys2Proof.Machine.execDcf ch k s
  | .dcfC ch k => Sys2Proof.Machine.execDcfC ch k s
  | .dcfU ch k => Sys2Proof.Machine.execDcfU ch k s
  | .hpf ch h => Sys2Proof.Machine.execHpf ch h s
  | .hpfC ch h => Sys2Proof.Machine.execHpfC ch h s
  | .hpfU ch h => Sys2Proof.Machine.execHpfU ch h s
  | .slf ch => Sys2Proof.Machine.execSlf ch s
  | .slfC ch => Sys2Proof.Machine.execSlfC ch s
  | .slfU ch => Sys2Proof.Machine.execSlfU ch s
  | .env ch => Sys2Proof.Machine.execEnv ch s
  | .envC ch => Sys2Proof.Machine.execEnvC ch s
  | .envU ch => Sys2Proof.Machine.execEnvU ch s
  | .sp ch => Sys2Proof.Machine.execSp ch s
  | .spC ch => Sys2Proof.Machine.execSpC ch s
  | .spU ch => Sys2Proof.Machine.execSpU ch s

end Sys2Proof.Machine
end

