-- ==== Sys2Proof/Machine/Port.lean ====
section
/-! DEFINITION. The host port (20_memory.md R84 to R88): its map, its byte lanes, what each access does, and the
execution of a command word (30_encoding.md R109). -/

namespace Sys2Proof.Machine

/-- The offset of OPA, R87. -/
def offOpa : Nat := 0x00

/-- The offset of OPB, R87. -/
def offOpb : Nat := 0x08

/-- The offset of RES, R87. -/
def offRes : Nat := 0x10

/-- The offset of STAT, R87. -/
def offStat : Nat := 0x18

/-- The offset of CMD, R87. -/
def offCmd : Nat := 0x1C

/-- The width in bytes of the port register at an offset, R87; `none` where no register begins. -/
def portWidth (off : Nat) : Option Nat :=
  if off = offOpa ∨ off = offOpb ∨ off = offRes then some 8
  else if off = offStat ∨ off = offCmd then some 4
  else none

/-- A command word written to CMD (30_encoding.md R109): the command it names runs; any other word raises
ILLEGAL(`w[7:0]`). The bytes are always four (`servePort` refuses another width). -/
def runCommand (bytes : List Byte) (s : State) : Host.Outcome State Fault Refusal :=
  match decodeBytes bytes with
  | .ok i => exec i s
  | .error (.illegal op) => .next (s.raise .illegal (op.setWidth 16))
  | .error (.notFourBytes n) => .refused (.portWidth offCmd n)

/-- A port read of full width (R87, R88): the value goes to the host and nothing else changes. A read of CMD is
refused. -/
def readPort (off width : Nat) (s : State) : Host.Outcome State Fault Refusal :=
  if off = offOpa then .next { s with rdata := bytesLE width s.opa.toNat }
  else if off = offOpb then .next { s with rdata := bytesLE width s.opb.toNat }
  else if off = offRes then .next { s with rdata := bytesLE width s.res.toNat }
  else if off = offStat then .next { s with rdata := bytesLE width s.stat.toWord.toNat }
  else .refused (.portWriteOnly off)

/-- A port write of full width (R87, R88): OPA and OPB are replaced, CMD executes its word. A write to RES or
STAT is refused. -/
def writePort (off : Nat) (bytes : List Byte) (s : State) : Host.Outcome State Fault Refusal :=
  if off = offOpa then .next { s with opa := BitVec.ofNat 64 (valueLE bytes) }
  else if off = offOpb then .next { s with opb := BitVec.ofNat 64 (valueLE bytes) }
  else if off = offCmd then runCommand bytes s
  else .refused (.portReadOnly off)

/-- A port access is of the register's full width at its own offset (R86); another is refused. -/
def servePort (off width : Nat) (act : Host.Outcome State Fault Refusal) : Host.Outcome State Fault Refusal :=
  match portWidth off with
  | none => .refused (.portOffset off)
  | some w => if width = w then act else .refused (.portWidth off width)

/-- The power-on reset input (70_reset_and_hazards.md R400): every piece of the block's state takes its power-on
value. The events still to be served, and the bytes the host has read, are not the block's and stay. -/
def State.powerOn (s : State) : State := { State.reset with bus := s.bus, rdata := s.rdata }

/-- One event served. -/
def serve (op : BusOp) (s : State) : Host.Outcome State Fault Refusal :=
  match op with
  | .powerOn => .next s.powerOn
  | .read off width => servePort off width (readPort off width s)
  | .write off bytes => servePort off bytes.length (writePort off bytes s)

end Sys2Proof.Machine
end

