-- ==== Sys2Proof/Machine/Step.lean ====
section
/-! DEFINITION. One step: the block serves the oldest event that the host or the platform has issued (20_memory.md
R84, R89). A command runs exactly when the event is a write to CMD (10_state.md R34); with no event pending the
block is idle and nothing changes (10_state.md R30, 60_exceptions.md R376). -/

namespace Sys2Proof.Machine

/-- One step of the block. -/
def step (s : State) : Host.Outcome State Fault Refusal :=
  match s.bus with
  | [] => .next s
  | op :: rest => serve op { s with bus := rest }

/-- The state in which the host's next port access writes the command word `w` to CMD: that is where the block's
next command comes from (10_state.md R34; log entry 1). -/
def State.withFetchWord (s : State) (nbits w : Nat) : State :=
  { s with bus := .write offCmd (tableWordBytes nbits w) :: s.bus }

end Sys2Proof.Machine
end

