-- ==== Sys2Proof/Machine/Assembler.lean ====
section
/-! DEFINITION. The notation of host programs (30_encoding.md R111 to R113): the host port operations, the
pseudo-instructions with their expansions, and the assembler syntax of a command. -/

namespace Sys2Proof.Machine

/-! ## Host port operations, R112 -/

/-- `LDA v`: the host writes `OPA <- v`. -/
def lda (v : Int) : BusOp := .write offOpa (bytesLE 8 (w64 v).toNat)

/-- `LDB v`: the host writes `OPB <- v`. -/
def ldb (v : Int) : BusOp := .write offOpb (bytesLE 8 (w64 v).toNat)

/-- `RD RES`. -/
def rdRes : BusOp := .read offRes 8

/-- `RD STAT`. -/
def rdStat : BusOp := .read offStat 4

/-- `RD OPA`. -/
def rdOpa : BusOp := .read offOpa 8

/-- `RD OPB`. -/
def rdOpb : BusOp := .read offOpb 8

/-- A command: the host writes its word to CMD (R100). -/
def cmd (i : Instr) : BusOp := .write offCmd (bytesLE 4 (encode i).toNat)

/-! ## Pseudo-instructions, R113 -/

/-- `ENC chN`: with OPA = x, RES = Mix(x, SidePath(x)). -/
def encOps (ch : BitVec 2) : List BusOp := [cmd (.sp ch), cmd .rtob, cmd .mix]

/-- `TRIAL chN, r`: with OPA = y, RES = Unmix(r, SidePathCheck(y)). -/
def trialOps (ch : BitVec 2) (r : Int) : List BusOp := [cmd (.spC ch), cmd .rtob, lda r, cmd .unmix]

/-- `COMMIT chN`. -/
def commitOps (ch : BitVec 2) : List BusOp := [cmd (.spU ch)]

/-- `ROLLBACK chN`. -/
def rollbackOps (ch : BitVec 2) : List BusOp := [cmd (.discard ch)]

/-- `SET name, v`. -/
def setOps (r : CfgReg) (v : Int) : List BusOp := [lda v, cmd (.cfgw r.num)]

/-- `LOADTBL tT, i, v`. -/
def loadTblOps (t : TableId) (i : Nat) (v : Int) : List BusOp :=
  [lda v, cmd (.tblw (BitVec.ofNat 3 t.num) (BitVec.ofNat 16 i))]

/-! ## Assembler syntax, R111 -/

/-- `0x` and the hexadecimal digits of a number. -/
def hexText (n : Nat) : String := "0x" ++ String.ofList (Nat.toDigits 16 n)

/-- A letter and a number: `ch1`, `k0`, `h1`, `t5`. -/
def operandText (letter : String) (n : Nat) : String := letter ++ toString n

/-- The name of a CFG register (10_state.md R36 to R44). -/
def CfgReg.text : CfgReg → String
  | .sr => "SR"
  | .nch => "NCH"
  | .bits => "BITS"
  | .flt => "FLT"
  | .ups => "UPS"
  | .upall => "UPALL"
  | .fetgnd => "FETGND"
  | .sidampV => "SIDAMP_V"
  | .sidampM => "SIDAMP_M"
  | .envgV => "ENVG_V"
  | .envgM => "ENVG_M"
  | .fetsvt => "FETSVT"
  | .cliplim => "CLIPLIM"
  | .vd => "VD"
  | .upsEff => "UPS_EFF"
  | .id => "ID"
  | .dcfA k => operandText "DCF" k.num ++ "_A"
  | .dcfM k => operandText "DCF" k.num ++ "_M"
  | .hpfA h => operandText "HPF" h.num ++ "_A"
  | .hpfM h => operandText "HPF" h.num ++ "_M"
  | .muxAtt => "MUX_ATT"
  | .muxAlpha => "MUX_ALPHA"
  | .muxE1Att => "MUX_E1ATT"
  | .muxE1Alpha => "MUX_E1ALPHA"
  | .muxE2Alpha => "MUX_E2ALPHA"
  | .tblV0 t => operandText "TBL_V0[" t.num ++ "]"
  | .tblQ t => operandText "TBL_Q[" t.num ++ "]"

/-- A CFG register name, or the number where it is unassigned (R111). -/
def cfgText (n : BitVec 16) : String :=
  match CfgReg.ofNum n with
  | some r => r.text
  | none => hexText n.toNat

/-- The mnemonic of a command (R107). -/
def mnemonic : Instr → String
  | .nop => "NOP"
  | .cfgw _ => "CFGW"
  | .cfgr _ => "CFGR"
  | .tblw _ _ => "TBLW"
  | .tblr _ _ => "TBLR"
  | .start => "START"
  | .stop => "STOP"
  | .rdst _ _ => "RDST"
  | .rdsh _ _ => "RDSH"
  | .discard _ => "DISCARD"
  | .rtoa => "RTOA"
  | .rtob => "RTOB"
  | .mix => "MIX"
  | .unmix => "UNMIX"
  | .clip => "CLIP"
  | .lut _ => "LUT"
  | .dcf _ _ => "DCF"
  | .dcfC _ _ => "DCF.C"
  | .dcfU _ _ => "DCF.U"
  | .hpf _ _ => "HPF"
  | .hpfC _ _ => "HPF.C"
  | .hpfU _ _ => "HPF.U"
  | .slf _ => "SLF"
  | .slfC _ => "SLF.C"
  | .slfU _ => "SLF.U"
  | .env _ => "ENV"
  | .envC _ => "ENV.C"
  | .envU _ => "ENV.U"
  | .sp _ => "SP"
  | .spC _ => "SP.C"
  | .spU _ => "SP.U"

/-- The operands of a command as the assembler writes them (R111). -/
def operandTexts : Instr → List String
  | .nop | .start | .stop | .rtoa | .rtob | .mix | .unmix | .clip => []
  | .cfgw n | .cfgr n => [cfgText n]
  | .tblw t i | .tblr t i => [operandText "t" t.toNat, toString i.toNat]
  | .lut t => [operandText "t" t.toNat]
  | .rdst c n | .rdsh c n => [operandText "ch" c.toNat, toString n.toNat]
  | .dcf c k | .dcfC c k | .dcfU c k => [operandText "ch" c.toNat, operandText "k" k.toNat]
  | .hpf c h | .hpfC c h | .hpfU c h => [operandText "ch" c.toNat, operandText "h" h.toNat]
  | .discard c | .slf c | .slfC c | .slfU c | .env c | .envC c | .envU c | .sp c | .spC c | .spU c =>
    [operandText "ch" c.toNat]

/-- A command as one assembler line (R111). -/
def asmText (i : Instr) : String :=
  match operandTexts i with
  | [] => mnemonic i
  | ops => mnemonic i ++ " " ++ ", ".intercalate ops

end Sys2Proof.Machine
end

