-- ==== Sys2Proof/Machine/HostFloat.lean ====
section
/-! DEFINITION. The host's binary64 values as bit patterns: their exact value, the roundings that 48_host_protocol.md
asks for, and the decimal text that a pattern is written as and read from (R333). Everything here is exact rational
arithmetic. -/

namespace Sys2Proof.Machine

/-! ## Exact values and roundings -/

/-- `b ^ k` for an integer exponent. -/
def powZ (b : Nat) : Int → Rat
  | .ofNat n => ((b ^ n : Nat) : Rat)
  | .negSucc n => 1 / ((b ^ (n + 1) : Nat) : Rat)

/-- `round`, half away from zero (R331, R342; elsewhere log entry 26). -/
def roundAway (q : Rat) : Int := if 0 ≤ q then ⌊q + 1 / 2⌋ else -⌊-q + 1 / 2⌋

/-- The nearest integer, a tie going to the even one: the rounding of binary64. -/
def roundEven (q : Rat) : Int :=
  if q - ⌊q⌋ < 1 / 2 then ⌊q⌋
  else if 1 / 2 < q - ⌊q⌋ then ⌊q⌋ + 1
  else if ⌊q⌋ % 2 = 0 then ⌊q⌋
  else ⌊q⌋ + 1

/-- A binary64 bit pattern without its sign. -/
def f64Mag (b : BitVec 64) : Nat := b.toNat % 2 ^ 63

/-- The value of a binary64 pattern without its sign; `none` for an infinity or a NaN. -/
def magValue (p : Nat) : Option Rat :=
  if p / 2 ^ 52 = 0 then some (p * powZ 2 (-1074))
  else if p / 2 ^ 52 < 2047 then some (((2 ^ 52 + p % 2 ^ 52 : Nat) : Rat) * powZ 2 (((p / 2 ^ 52 : Nat) : Int) - 1075))
  else none

/-- The value of a binary64 pattern; `none` for an infinity or a NaN. -/
def f64Value (b : BitVec 64) : Option Rat := (magValue (f64Mag b)).map fun q => if b.msb then -q else q

/-- The bit pattern of a host value. -/
def floatBits (x : Float) : BitVec 64 := x.toBits.toBitVec

/-- The host value of a bit pattern. -/
def bitsFloat (b : BitVec 64) : Float := Float.ofBits (UInt64.ofBitVec b)

/-- The exact value of a host value; `none` for an infinity or a NaN. -/
def floatRat (x : Float) : Option Rat := f64Value (floatBits x)

/-- The least of the exponents `k`, `k + 1`, …, `k + n` for which `p` holds; the last one where it holds for none. -/
def leastExp (p : Int → Bool) : Nat → Int → Int
  | 0, k => k
  | n + 1, k => if p k then k else leastExp p n (k + 1)

/-! ## Writing, R333 -/

/-- The exponent `k` of the leading digit: `10^k ≤ q < 10^(k+1)`, for the values of binary64. -/
def leadExp (q : Rat) : Int := leastExp (fun k => decide (q < powZ 10 (k + 1))) 640 (-324)

/-- The 17 significant digits of a value as a number, and the exponent of the last of them (R333). -/
def digits17 (q : Rat) : Nat × Int :=
  let k := leadExp q - 16
  let d := (roundEven (q * powZ 10 (-k))).toNat
  if d = 10 ^ 17 then (10 ^ 16, k + 1) else (d, k)

/-- An integer in decimal. -/
def intText (v : Int) : List Char := (if v < 0 then ['-'] else []) ++ Nat.toDigits 10 v.natAbs

/-- Digits with a point after the first, and the exponent of ten. -/
def sciText (ds : List Char) (e : Int) : List Char :=
  ds.take 1 ++ '.' :: ds.drop 1 ++ 'e' :: intText (e + ((ds.length : Int) - 1))

/-- A value that is not negative, with 17 significant digits. -/
def magText (q : Rat) : List Char :=
  if q = 0 then sciText (List.replicate 17 '0') (-16)
  else sciText (Nat.toDigits 10 (digits17 q).1) (digits17 q).2

/-- A binary64 value as the host writes it: 17 significant digits (R333); a value that is no number has a text that
no reader accepts (log entry 22). -/
def f64Text (b : BitVec 64) : List Char :=
  match magValue (f64Mag b) with
  | some q => (if b.msb then ['-'] else []) ++ magText q
  | none => "nan".toList

/-! ## Reading, R333 -/

/-- An unsigned decimal number: one or more digits. -/
def readNat (l : List Char) : Option Nat :=
  if l.all Char.isDigit && !l.isEmpty then some (Nat.ofDigitChars 10 l 0) else none

/-- A decimal number with an optional minus sign. -/
def readInt : List Char → Option Int
  | '-' :: l => (readNat l).map fun n => -(n : Int)
  | l => (readNat l).map fun n => (n : Int)

/-- What follows the significand: nothing, or `e` and an exponent. -/
def readExp : List Char → Option Int
  | [] => some 0
  | _ :: '+' :: l => (readNat l).map fun n => (n : Int)
  | _ :: l => readInt l

/-- The value of a decimal text without a sign: digits with at most one point, and an optional exponent. -/
def readMag (l : List Char) : Option Rat :=
  let mant := l.takeWhile fun c => c != 'e' && c != 'E'
  let ip := mant.takeWhile (· != '.')
  let fp := (mant.drop ip.length).drop 1
  match readNat (ip ++ fp), readExp (l.drop mant.length) with
  | some n, some e => some (n * powZ 10 (e - fp.length))
  | _, _ => none

/-- The binary64 pattern nearest to a value that is not negative, ties to even; `none` where it is out of range. -/
def nearestMag (q : Rat) : Option Nat :=
  let k := leastExp (fun k => decide (q < powZ 2 (k + 53))) 2046 (-1074)
  let p := (k + 1074).toNat * 2 ^ 52 + (roundEven (q * powZ 2 (-k))).toNat
  if p < 2047 * 2 ^ 52 then some p else none

/-- A decimal text read as a binary64 value (R333); `none` where it is malformed or out of range. -/
def readF64 : List Char → Option (BitVec 64)
  | '-' :: l => ((readMag l).bind nearestMag).map fun p => BitVec.ofNat 64 (2 ^ 63 + p)
  | l => ((readMag l).bind nearestMag).map fun p => BitVec.ofNat 64 p

end Sys2Proof.Machine
end

