-- ==== Sys2Proof/Machine/HostPort.lean ====
section
/-! DEFINITION. The host agent (10_state.md R30; 48_host_protocol.md R310, R348, R349): its own state, and how its
procedures drive the block, one port access after another, each served by the block's own step before the next
one is issued (20_memory.md R84). Nothing of the block depends on this file. -/

namespace Sys2Proof.Machine

/-- What the host keeps of one channel: the decoder's previous converged input and output (R310). -/
structure ChanHistory where
  prevIn : Int
  prevOut : Int
  deriving DecidableEq, Repr

/-- The host-held state of a session (R310; log entry 15). -/
structure HostSession where
  hist1 : ChanHistory
  hist2 : ChanHistory
  /-- `ACC_DB`. -/
  accDb : Rat
  /-- `THR_DB`. -/
  thrDb : Rat
  deriving DecidableEq, Repr

/-- A session before its first call (R310, R311 step 6). -/
def HostSession.initial : HostSession :=
  { hist1 := ⟨0, 0⟩, hist2 := ⟨0, 0⟩, accDb := Config.defaultAccDb, thrDb := Config.defaultThrDb }

/-- What the host keeps of channel c. -/
def HostSession.hist (h : HostSession) : Channel → ChanHistory
  | .ch1 => h.hist1
  | .ch2 => h.hist2

/-- What the host keeps of channel c, replaced. -/
def HostSession.setHist (h : HostSession) (c : Channel) (x : ChanHistory) : HostSession :=
  match c with
  | .ch1 => { h with hist1 := x }
  | .ch2 => { h with hist2 := x }

/-- The two agents, and the host's calibration cache (R333, log entry 22). -/
structure HostWorld where
  block : State
  session : HostSession
  /-- The lines of the cache file; none where it is absent or unreadable. -/
  cache : List String
  /-- Whether a write to the file succeeds; a failed write is ignored. -/
  cacheWrites : Bool
  deriving DecidableEq, Repr

/-- Why a host procedure fails (R348). -/
inductive HostFail where
  /-- The block recorded a fault; the STAT word says which (R348, R349). -/
  | blockFault (stat : BitVec 32)
  /-- The block refused a port access (20_memory.md R86). -/
  | refused (r : Refusal)
  /-- The model is stuck: a fault of the block's model, or a division of the host by 0, which no rule makes (log
  entry 4). -/
  | stuck (f : Fault)
  /-- A host sum or a rounded value outside int64 (48_host_protocol.md, opening paragraph; log entry 18). -/
  | overflow
  /-- The bound on the number of trials of a search ran out (93_implementation_defined.md I16). -/
  | noFuel
  deriving DecidableEq, Repr

/-- A host procedure. -/
abbrev HostM (α : Type) := ExceptT HostFail (StateM HostWorld) α

/-- The block serves one access that the host issues now. -/
def State.issue (s : State) (op : BusOp) : Host.Outcome State Fault Refusal := step { s with bus := op :: s.bus }

/-- One port access of a host procedure. -/
def access (op : BusOp) : HostM Unit := do
  let w ← get
  match w.block.issue op with
  | .next s => set { w with block := s }
  | .fault f => throw (.stuck f)
  | .refused r => throw (.refused r)

/-- Port accesses in order. -/
def accesses : List BusOp → HostM Unit
  | [] => pure ()
  | op :: ops => do
    access op
    accesses ops

/-- `RD RES`, as int64. -/
def readRes : HostM Int := do
  access rdRes
  let w ← get
  pure (BitVec.ofNat 64 (valueLE w.block.rdata)).toInt

/-- `RD STAT`. -/
def readStat : HostM (BitVec 32) := do
  access rdStat
  let w ← get
  pure (BitVec.ofNat 32 (valueLE w.block.rdata))

/-- What a failing START check reports (40_control.md R136, R348: configuration errors). -/
def configText : Nat → String
  | 1 => "channel count must be 1 or 2"
  | 2 => "bit depth must be 8, 16 or 24"
  | 3 => "filter variant must be 1, 2, 3 or 4"
  | 4 => "sample rate must be positive"
  | 5 => "a multiplier is not positive"
  | 6 => "a table step is not positive"
  | 7 => "clip limit must be positive"
  | 8 => "diode threshold must not be negative"
  | 9 => "a filter coefficient is outside 0 to its multiplier"
  | 10 => "a table domain is outside 64 bits"
  | n => "check " ++ toString n

/-- The descriptive string of a fault record, built from FCAUSE and FDETAIL (R348, R349; 60_exceptions.md R360). -/
def faultText (stat : BitVec 32) : String :=
  let d := (stat.extractLsb' 16 16).toNat
  match (stat.extractLsb' 8 8).toNat with
  | 1 => "illegal command word, OP " ++ toString d
  | 2 => "no channel " ++ toString d
  | 3 => "no instance " ++ toString d
  | 4 => "session not started, OP " ++ toString d
  | 5 => "session is running, locked " ++ toString d
  | 6 => "configuration error: " ++ configText d
  | 7 => "resource error: table " ++ toString (d - 1) ++ " is not complete"
  | 8 => "no matching trial, pending tag " ++ toString d
  | 9 => "arithmetic overflow"
  | 10 => "no register " ++ toString d
  | 11 => "no table entry " ++ toString d
  | 12 => "table entry not written " ++ toString d
  | 13 => "read-only register " ++ toString d
  | n => "fault " ++ toString n ++ ", detail " ++ toString d

/-- The string that the host returns for a failure, "rather than raising" (R348, R349). -/
def HostFail.text : HostFail → String
  | .blockFault stat => faultText stat
  | .refused _ => "unsupported port access"
  | .stuck _ => "no effect is given"
  | .overflow => "arithmetic overflow in the host"
  | .noFuel => "no result within the bound on the search"

/-- The call fails where STAT.FAULT is 1 (R313, R348). -/
def failOnFault : HostM Unit := do
  let st ← readStat
  if st.getLsbD 1 then throw (.blockFault st) else pure ()

/-- `chk` of the host: every `+`, `-` and `*` of its integer arithmetic (48_host_protocol.md, opening paragraph;
00_scope.md R14; log entry 19). -/
def hostChk (v : Int) : HostM Int :=
  if Config.int64Min ≤ v ∧ v ≤ Config.int64Max then pure v else throw .overflow

/-- `tdiv` of the host (00_scope.md R15): truncation toward zero. The divisor is nonzero where a rule divides; the only
quotient outside int64, that of −2^63 by −1, overflows (60_exceptions.md R360). -/
def hostTdiv (a b : Int) : HostM Int :=
  if b = 0 then throw (.stuck .zeroDivisor) else hostChk (a.tdiv b)

/-- A real value rounded half away from zero to int64; a value outside int64, or none, fails (log entries 18, 26). -/
def hostRound (q : Option Rat) : HostM Int :=
  match q with
  | some q => hostChk (roundAway q)
  | none => throw .overflow

/-- `SET name, v` with a checked value (R311). -/
def setReg (r : CfgReg) (v : Int) : HostM Unit := do
  let v ← hostChk v
  accesses (setOps r v)

/-- The CH field of a channel. -/
def Channel.ch (c : Channel) : BitVec 2 := BitVec.ofNat 2 c.num

end Sys2Proof.Machine
end

