-- ==== Sys2Proof/Machine/HostDecode.lean ====
section
/-! DEFINITION. Encoding and decoding of samples by the host (48_host_protocol.md R312 to R323, R345, R346): PCM
scaling, the encode call, and the decoder's inversion search with its bracket, discard, secant and bisection. -/

namespace Sys2Proof.Machine

/-! ## PCM scaling -/

/-- `P_SCALE[BITS]` (R345). -/
def HostParams.scale (P : HostParams) (bits : Nat) : Int :=
  if bits = 8 then ((P.pScale8 : Nat) : Int)
  else if bits = 16 then ((P.pScale16 : Nat) : Int)
  else ((P.pScale24 : Nat) : Int)

/-- What re-centres an unsigned 8-bit container sample (R345, R346). -/
def pcmCentre (bits : Nat) : Int := if bits = 8 then 128 else 0

/-- `in_scale(p)` (R345). -/
def inScale (P : HostParams) (bits : Nat) (p : Int) : HostM Int := do
  let v ← hostChk (p - pcmCentre bits)
  hostChk (v * HostParams.scale P bits)

/-- `out_scale(v)` (R346): rescaled, saturated to the format's extremes, and re-centred. -/
def outScale (P : HostParams) (bits : Nat) (v : Int) : Int :=
  clamp (v.tdiv (HostParams.scale P bits)) (-(2 ^ (bits - 1))) (2 ^ (bits - 1) - 1) + pcmCentre bits

/-! ## Encode, R313 -/

/-- One sample through `ENC`. -/
def encodeSample (c : Channel) (x : Int) : HostM Int := do
  accesses (lda x :: encOps c.ch)
  failOnFault
  readRes

/-! ## The search, R314 to R322 -/

/-- The open interval `(Low, High)` that holds the root. -/
structure Bracket where
  lo : Int
  hi : Int
  deriving DecidableEq, Repr

/-- `P_YMAX` (R319). -/
def yMax (P : HostParams) (bits : Nat) (cliplim : Int) : HostM Int := do
  let p ← hostChk (HostParams.scale P bits * 2 ^ (bits - 1))
  hostChk (cliplim + p)

/-- The initial bracket (R319). -/
def Bracket.initial (ymax : Int) : HostM Bracket := do
  let n ← hostChk (-ymax)
  let lo ← hostChk (n - 1)
  let hi ← hostChk (ymax + 1)
  pure ⟨lo, hi⟩

/-- `High − Low` (R317, R320). -/
def Bracket.width (b : Bracket) : HostM Int := hostChk (b.hi - b.lo)

/-- Narrowing after a trial that is not discarded (R315). -/
def Bracket.narrow (b : Bracket) (g h : Int) : HostM Bracket :=
  if g ≤ h then
    if h < b.hi then do
      let hi ← hostChk (h + 1)
      pure ⟨g, hi⟩
    else pure ⟨g, b.hi⟩
  else if b.lo < h then do
    let lo ← hostChk (h - 1)
    pure ⟨lo, g⟩
  else pure ⟨b.lo, g⟩

/-- A guess clamped strictly inside the bracket (R317). -/
def Bracket.clampIn (b : Bracket) (g : Int) : HostM Int := do
  let lo ← hostChk (b.lo + 1)
  let hi ← hostChk (b.hi - 1)
  pure (clamp g lo hi)

/-- Pure bisection (R317). -/
def Bracket.middle (b : Bracket) : HostM Int := do
  let w ← b.width
  let half ← hostTdiv w 2
  hostChk (b.lo + half)

/-- A retained clip-free trial (R316). -/
structure TrialPair where
  g : Int
  h : Int
  deriving DecidableEq, Repr

/-- The differences of two pairs, normalised so that `dg` is not negative (R316). -/
def secantSlope (p1 p2 : TrialPair) : HostM (Int × Int) := do
  let dg ← hostChk (p2.g - p1.g)
  let dh ← hostChk (p2.h - p1.h)
  if dg < 0 then do
    let dg' ← hostChk (-dg)
    let dh' ← hostChk (-dh)
    pure (dg', dh')
  else pure (dg, dh)

/-- The slope tests of R316, in their order; a test that fails ends them (log entry 19). -/
def slopeUsable (dg dh : Int) : HostM Bool :=
  if dg = 0 then pure false
  else do
    let steep ← hostChk (20 * |dg|)
    let rise ← hostChk |dh|
    if steep < rise then pure false
    else do
      let lo ← hostChk (95 * dg)
      let mid ← hostChk (100 * dh)
      let hi ← hostChk (105 * dg)
      pure (!(decide (lo ≤ mid) && decide (mid ≤ hi)))

/-- The secant candidate, if the estimate is valid (R316). -/
def secant (b : Bracket) (p1 p2 : TrialPair) : HostM (Option Int) := do
  let (dg, dh) ← secantSlope p1 p2
  let usable ← slopeUsable dg dh
  if usable then do
    let gap ← hostChk (p2.h - p2.g)
    let p ← hostChk (gap * dg)
    let d ← hostChk (dg - dh)
    let q ← hostTdiv p d
    let cand ← hostChk (p2.g + q)
    pure (if b.lo < cand ∧ cand < b.hi then some cand else none)
  else pure none

/-- `TOL` (R318). -/
def tolerance (P : HostParams) (accDb : Rat) : Int := max Config.tolFloor (P.pTol accDb)

/-- A trial of guess g for received r (R314): h, and the clip flag read before the next command. -/
def trial (c : Channel) (g r : Int) : HostM (Int × Bool) := do
  accesses (lda g :: trialOps c.ch r)
  failOnFault
  let h ← readRes
  let st ← readStat
  pure (h, st.getLsbD 2)

/-- Where the search stands (R320). -/
structure Search where
  bracket : Bracket
  guess : Int
  pairs : List TrialPair
  attempts : Nat
  first : Bool
  deriving DecidableEq, Repr

/-- The last two of the retained pairs (R320). -/
def lastTwo (ps : List TrialPair) : List TrialPair := ps.drop (ps.length - 2)

/-- The next guess after a kept trial that did not end the search (R316, R317, R320). -/
def nextSearch (s : Search) : HostM Search :=
  match s.pairs with
  | [p1, p2] =>
    if s.attempts < Config.secantLimit then do
      match ← secant s.bracket p1 p2 with
      | some g => pure { s with guess := g, attempts := s.attempts + 1 }
      | none => do
        let m ← s.bracket.middle
        pure { s with guess := m, attempts := s.attempts + 1 }
    else do
      let m ← s.bracket.middle
      pure { s with guess := m }
  | _ => do
    let m ← s.bracket.middle
    pure { s with guess := m }

/-- The loop of DECODE (R320), with a bound on the number of trials (R321); its answer is the guess of the final
trial. -/
def decodeLoop (c : Channel) (r tol : Int) : Nat → Search → HostM Int
  | 0, _ => throw .noFuel
  | n + 1, s => do
    let g ← s.bracket.clampIn s.guess
    let (h, clip) ← trial c g r
    if s.first && clip then
      decodeLoop c r tol n { s with first := false, guess := h }
    else do
      let b ← s.bracket.narrow g h
      let ps := if clip then s.pairs else lastTwo (s.pairs ++ [⟨g, h⟩])
      let w ← b.width
      if w ≤ tol then pure g
      else do
        let s' ← nextSearch { s with bracket := b, pairs := ps, first := false }
        decodeLoop c r tol n s'

/-- The bound on the number of trials of one sample (R321), at least one discarded and one kept trial (DESIGN
CHOICE, log entry 20). -/
def decodeFuel (ymax tol : Int) : Nat := max 2 (2 * ymax + 3 - tol).toNat

/-- DECODE (R320): the search, the commit of the final trial, and the pair kept for the next sample. -/
def decodeSample (P : HostParams) (bits : Nat) (cliplim : Int) (c : Channel) (r : Int) : HostM Int := do
  let w ← get
  let hist := w.session.hist c
  let tol := tolerance P w.session.accDb
  let ymax ← yMax P bits cliplim
  let b ← Bracket.initial ymax
  let step ← hostChk (r - hist.prevIn)
  let g ← hostChk (hist.prevOut + step)
  let y ← decodeLoop c r tol (decodeFuel ymax tol) { bracket := b, guess := g, pairs := [], attempts := 0, first := true }
  accesses (commitOps c.ch)
  failOnFault
  modify fun w => { w with session := w.session.setHist c ⟨r, y⟩ }
  pure y

/-! ## Calls over frames, R313, R323 and R348 -/

/-- The samples of a frame in channel order: sample k belongs to channel k + 1 (R313). A frame is taken as the list
of samples it is; its length is not held against NCH (DESIGN CHOICE, log entry 27). -/
def overFrame (f : Channel → Int → HostM Int) : List Int → HostM (List Int)
  | [] => pure []
  | [p] => do
    let y ← f .ch1 p
    pure [y]
  | p :: q :: _ => do
    let y ← f .ch1 p
    let z ← f .ch2 q
    pure [y, z]

/-- What a call returns (R348): the frames written before it ended, which are the caller's to discard or keep, and
the descriptive string of the failure where it failed. -/
structure CallResult where
  frames : List (List Int)
  error : Option String
  deriving DecidableEq, Repr

/-- After a failed call the host issues START, before further calls (R348, 60_exceptions.md R368; log entry 28). -/
def recover : StateM HostWorld Unit := do
  let _ ← (access (cmd .start)).run
  pure ()

/-- Frames in order; a failure fails the whole call (R348). -/
def overFrames (f : Channel → Int → HostM Int) : List (List Int) → StateM HostWorld CallResult
  | [] => pure { frames := [], error := none }
  | fr :: frs => do
    match ← (overFrame f fr).run with
    | .ok y =>
      let rest ← overFrames f frs
      pure { rest with frames := y :: rest.frames }
    | .error e =>
      recover
      pure { frames := [], error := some e.text }

/-- An encode call (R313). -/
def encodeCall (P : HostParams) (bits : Nat) (frames : List (List Int)) : StateM HostWorld CallResult :=
  overFrames (fun c p => do
    let x ← inScale P bits p
    let y ← encodeSample c x
    pure (outScale P bits y)) frames

/-- A decode call (R323). -/
def decodeCall (P : HostParams) (bits : Nat) (cliplim : Int) (frames : List (List Int)) :
    StateM HostWorld CallResult :=
  overFrames (fun c p => do
    let r ← inScale P bits p
    let y ← decodeSample P bits cliplim c r
    pure (outScale P bits y)) frames

end Sys2Proof.Machine
end

