-- ==== Sys2Proof/Machine/HostTables.lean ====
section
/-! DEFINITION. The constants and tables that the host computes and writes before START (48_host_protocol.md R335
to R344), in the host's binary64 arithmetic. Every physical constant is an open parameter of `HostParams`. -/

namespace Sys2Proof.Machine

/-- π in binary64. -/
def piF : Float := 3.141592653589793

/-- `round(x · m)` of a binary64 value and an integer: the exact product, half away from zero (R342; for R335 and
R343, which name no rounding of a tie, DESIGN CHOICE, log entry 26). -/
def roundScaled (x : Float) (m : Int) : HostM Int := hostRound ((floatRat x).map fun q => q * m)

/-- The registers and tables of a session before they are written (R311 steps 1 to 3). -/
structure SessionConfig where
  sr : Nat
  nch : Nat
  bits : Nat
  flt : Nat
  ups : Nat
  upall : Bool
  deriving DecidableEq, Repr

/-- The effective upsampling factor "exactly as START will" (R311 step 2); at SR = 0, log entry 30. -/
def SessionConfig.factor (c : SessionConfig) : Nat :=
  Cfg.factor { Cfg.reset with sr := BitVec.ofNat 64 c.sr, ups := BitVec.ofNat 64 c.ups }

/-- The effective sample period (R336). At SR = 0 it has no value (infinite in binary64), and bring-up fails in step 2
(DESIGN CHOICE, log entry 30). -/
def SessionConfig.dt (c : SessionConfig) : Float := 1 / (Float.ofNat c.sr * Float.ofNat c.factor)

/-- The high-pass transform (R336). -/
def alphaHp (dt rc : Float) : Float := rc / (rc + dt)

/-- The low-pass transform (R336). -/
def alphaLp (dt rc : Float) : Float := dt / (rc + dt)

/-- A binary64 value held in `[lo, hi]`. -/
def clampF (x lo hi : Float) : Float := if x < lo then lo else if hi < x then hi else x

/-- The FET resistance (R337). -/
def fetR (P : HostParams) (v : Float) : Float :=
  if P.fetVp ≤ v then P.fetRmax else clampF (P.fetK / (P.fetVp - v)) P.fetRmin P.fetRmax

/-- The voltage of entry i of table t (R337). -/
def entryVoltage (P : HostParams) (t : Fin 6) (i : Nat) : HostM Float := do
  let d ← hostChk ((i : Int) * P.tblQ t)
  let v ← hostChk (P.tblV0 t + d)
  pure (Float.ofInt v)

/-- The RC constant, clamped to the minimum (R337 b). -/
def fetRc (P : HostParams) (v : Float) : Float :=
  if fetR P v * P.fetC < P.rcMin then P.rcMin else fetR P v * P.fetC

/-- The real entries of T_ATT, T_ALPHA and T_OATT at a voltage (R337). -/
def fetValues (P : HostParams) (dt v : Float) : Float × Float × Float :=
  let r := fetR P v
  let rc := fetRc P v
  (r / (r + P.potR), alphaHp dt rc, if r * P.fetC < P.rcMin then (r * P.fetC) / rc else 1)

/-- The sign of the balance of R338 at an integer resistance. -/
def e1Positive (P : HostParams) (v : Float) (r : Int) : Bool :=
  decide (0 < v - P.e1Is * (Float.exp (P.e1Vd v r / (P.e1N * P.vt)) - 1) * Float.ofInt r)

/-- The binary search for the sign change in `[lo, hi]` (R338): the least resistance whose sign differs from that
of the lower end, with a bound on the number of halvings (log entry 24). -/
def signChange (f : Int → Bool) (s : Bool) : Nat → Int → Int → HostM Int
  | 0, _, hi => pure hi
  | n + 1, lo, hi => do
    let w ← hostChk (hi - lo)
    if w ≤ 1 then pure hi
    else do
      let half ← hostTdiv w 2
      let mid ← hostChk (lo + half)
      if f mid == s then signChange f s n mid hi else signChange f s n lo mid

/-- The resistance of envelope stage one at a voltage (R338). -/
def e1R (P : HostParams) (v : Float) : HostM Int :=
  signChange (e1Positive P v) (e1Positive P v P.e1Rlo) (P.e1Rhi - P.e1Rlo).toNat P.e1Rlo P.e1Rhi

/-- The real entries of E1_ATT and E1_ALPHA at a voltage (R338). -/
def e1Values (P : HostParams) (dt v : Float) : HostM (Float × Float) := do
  let n ← e1R P v
  let r := Float.ofInt n
  pure (r / (r + P.e1Rs), alphaLp dt (r * P.e1C))

/-- The real entry of E2_ALPHA at a voltage, under its frequency ceiling (R339). -/
def e2Value (P : HostParams) (dt v : Float) : Float :=
  let a := alphaLp dt (P.e2Rc v)
  let top := alphaLp dt (1 / (2 * piF * P.e2Fmax))
  if top < a then top else a

/-- The real entry of a table at index i (R337 to R339). -/
def tableValue (P : HostParams) (dt : Float) (t : TableId) (i : Nat) : HostM Float :=
  match t with
  | .att => do
    let v ← entryVoltage P 0 i
    pure (fetValues P dt v).1
  | .alpha => do
    let v ← entryVoltage P 1 i
    pure (fetValues P dt v).2.1
  | .oatt => do
    let v ← entryVoltage P 2 i
    pure (fetValues P dt v).2.2
  | .e1Att => do
    let v ← entryVoltage P 3 i
    let x ← e1Values P dt v
    pure x.1
  | .e1Alpha => do
    let v ← entryVoltage P 4 i
    let x ← e1Values P dt v
    pure x.2
  | .e2Alpha => do
    let v ← entryVoltage P 5 i
    pure (e2Value P dt v)

/-- The real entries of a table, in the order of their indexes. -/
def tableValues (P : HostParams) (dt : Float) (t : TableId) : HostM (List Float) :=
  (List.range t.size).mapM (tableValue P dt t)

/-- The largest magnitude of a list. -/
def maxAbsF (xs : List Float) : Float := xs.foldl (fun m x => if m < x.abs then x.abs else m) 0

/-- Multiplier fitting (R340). A quotient that is no int64, as with SR = 0, fails (log entries 18 and 30). -/
def fitMux (P : HostParams) (xs : List Float) : HostM Int :=
  match floatRat (P.muxTop / maxAbsF xs) with
  | some q => hostChk ⌊q⌋
  | none => throw .overflow

/-- A real coefficient as a fixed-point pair (R335, R340, R343; log entries 23 and 26). -/
def fitCoef (P : HostParams) (x : Float) : HostM (Int × Int) := do
  let m ← fitMux P [x]
  let a ← roundScaled x m
  pure (a, m)

/-- The multiplier of each table; T_ATT and T_OATT share one (R337, 10_state.md R41). -/
def tableMux (P : HostParams) (dt : Float) (t : TableId) : HostM Int :=
  match t with
  | .att | .oatt => do
    let xs ← tableValues P dt .att
    let ys ← tableValues P dt .oatt
    fitMux P (xs ++ ys)
  | .alpha | .e1Att | .e1Alpha | .e2Alpha => do
    let xs ← tableValues P dt t
    fitMux P xs

/-- The stored entries of a table (R335). A tie of `round(value · M)` goes away from zero: R335 does not say (DESIGN
CHOICE, log entry 26). -/
def tableEntries (P : HostParams) (dt : Float) (t : TableId) : HostM (List Int) := do
  let m ← tableMux P dt t
  let xs ← tableValues P dt t
  xs.mapM fun x => roundScaled x m

/-- The LOADTBL sequence of one table from entry `i` on (R335). -/
def loadTable (t : TableId) : Nat → List Int → List BusOp
  | _, [] => []
  | i, v :: vs => loadTblOps t i v ++ loadTable t (i + 1) vs

/-- The pair of registers of one coefficient (R343). -/
def setCoef (P : HostParams) (ra rm : CfgReg) (x : Float) : HostM Unit := do
  let (a, m) ← fitCoef P x
  setReg ra a
  setReg rm m

/-- A table's multiplier register (R335, R340). -/
def setMux (P : HostParams) (dt : Float) (r : CfgReg) (t : TableId) : HostM Unit := do
  let m ← tableMux P dt t
  setReg r m

/-- The geometry registers of one table (R335). -/
def setGeometry (P : HostParams) (t : TableId) (i : Fin 6) : HostM Unit := do
  setReg (.tblV0 t) (P.tblV0 i)
  setReg (.tblQ t) (P.tblQ i)

/-- Bring-up step 1 (R311): the session's own configuration, unsigned 64-bit values (log entry 25). -/
def configOps (c : SessionConfig) : List BusOp :=
  setOps .sr c.sr ++ setOps .nch c.nch ++ setOps .bits c.bits ++ setOps .flt c.flt ++ setOps .ups c.ups ++
    setOps .upall (if c.upall then 1 else 0)

/-- Bring-up step 2 (R311): filter constants, multipliers, CLIPLIM and VD (R336 to R340, R343, R344).
With SR = 0 it fails at its first constant, before any START (DESIGN CHOICE, log entry 30). -/
def writeConstants (P : HostParams) (c : SessionConfig) : HostM Unit := do
  setCoef P (.dcfA .k0) (.dcfM .k0) (alphaLp c.dt (P.dcfRc 0))
  setCoef P (.dcfA .k1) (.dcfM .k1) (alphaLp c.dt (P.dcfRc 1))
  setCoef P (.dcfA .k2) (.dcfM .k2) (alphaLp c.dt (P.dcfRc 2))
  setCoef P (.hpfA .h0) (.hpfM .h0) (alphaHp c.dt (P.hpfRc 0))
  setCoef P (.hpfA .h1) (.hpfM .h1) (alphaHp c.dt (P.hpfRc 1))
  setMux P c.dt .muxAtt .att
  setMux P c.dt .muxAlpha .alpha
  setMux P c.dt .muxE1Att .e1Att
  setMux P c.dt .muxE1Alpha .e1Alpha
  setMux P c.dt .muxE2Alpha .e2Alpha
  setGeometry P .att 0
  setGeometry P .alpha 1
  setGeometry P .oatt 2
  setGeometry P .e1Att 3
  setGeometry P .e1Alpha 4
  setGeometry P .e2Alpha 5
  setReg .sidampM P.sidampM
  setReg .envgM P.envgM
  setReg .cliplim P.clipV
  setReg .vd P.vd

/-- Bring-up step 3 (R311): all six tables. -/
def writeTables (P : HostParams) (c : SessionConfig) : List TableId → HostM Unit
  | [] => pure ()
  | t :: ts => do
    let es ← tableEntries P c.dt t
    accesses (loadTable t 0 es)
    writeTables P c ts

end Sys2Proof.Machine
end

