-- ==== Sys2Proof/Machine/HostCalibration.lean ====
section
/-! DEFINITION. Calibration, its cache, and the session lifecycle (48_host_protocol.md R311, R312, R330 to R334,
R342). Floating point is the host's binary64; searches carry a bound on their iterations
(93_implementation_defined.md I16). -/

namespace Sys2Proof.Machine

/-! ## One measurement, R331 -/

/-- Entry k of the sine table. -/
def toneEntry (P : HostParams) (sr k : Nat) : HostM Int :=
  roundScaled (P.calAmp * Float.sin (2 * piF * 5000 * Float.ofNat k / Float.ofNat sr)) 1

/-- The tone, from a table of `lcm(SR, 5000)` entries. -/
def tone (P : HostParams) (sr k : Nat) : HostM Int := toneEntry P sr (k % Nat.lcm sr 5000)

/-- The mean magnitude of a list. -/
def meanAbs (xs : List Int) : Float :=
  xs.foldl (fun a x => a + (Float.ofInt x).abs) 0 / Float.ofNat xs.length

/-- `Lref`: the mean magnitude of the tone over the measurement window. -/
def refLevel (P : HostParams) (sr : Nat) : HostM Float := do
  let xs ← (List.range P.calWin).mapM fun k => tone P sr (P.calWarm + k)
  pure (meanAbs xs)

/-- The tone through the side path of channel 1 from sample `k` on (R331). R331 does not say what a fault of the block
does here: it ends the run, and the calibration and bring-up with it (DESIGN CHOICE, log entry 29). -/
def measureRun (P : HostParams) (sr : Nat) : Nat → Nat → HostM (List Int)
  | 0, _ => pure []
  | n + 1, k => do
    let x ← tone P sr k
    accesses [lda x, cmd (.sp 1)]
    failOnFault
    let y ← readRes
    let ys ← measureRun P sr n (k + 1)
    pure (y :: ys)

/-- `MEAS()` (R331); a fault ends it (log entry 29). -/
def measure (P : HostParams) (sr : Nat) : HostM Float := do
  access (cmd .start)
  failOnFault
  let ys ← measureRun P sr (P.calWarm + P.calWin) 0
  pure (meanAbs (ys.drop P.calWarm))

/-! ## False position, R332 -/

/-- Where the search stands: the two bounds with their results, and the previous trial. -/
structure FalsePos (α : Type) where
  a : α
  fa : Float
  b : α
  fb : Float
  prev : Option (α × Float)

/-- How the search computes with its trial values. -/
structure TrialArith (α : Type) where
  /-- `a + (τ - fa) * (b - a) / (fb - fa)`. -/
  next : FalsePos α → Float → HostM α
  /-- `(prev.t + t) / 2`. -/
  mid : α → α → HostM α

/-- The interpolation in binary64, between two trial values of the given distance. -/
def interpolate (a dist fa fb target : Float) : Float := a + (target - fa) * dist / (fb - fa)

/-- Floating point, for SidAmp. -/
def floatTrials : TrialArith Float where
  next s target := pure (interpolate s.a (s.b - s.a) s.fa s.fb target)
  mid x y := pure ((x + y) / 2)

/-- int64, for FETSVt: the trial value and the midpoint are rounded to int64 before use. R332 does not say how a tie
rounds: half away from zero (DESIGN CHOICE, log entry 26). -/
def intTrials : TrialArith Int where
  next s target := do
    let dist ← hostChk (s.b - s.a)
    hostRound (floatRat (interpolate (Float.ofInt s.a) (Float.ofInt dist) s.fa s.fb target))
  mid x y := do
    let sum ← hostChk (x + y)
    hostRound (some (sum / 2))

/-- The false-position loop, with a bound on the trials (log entry 17). -/
def falsePosition {α : Type} (ar : TrialArith α) (f : α → HostM Float) (target : Float) :
    Nat → FalsePos α → HostM α
  | 0, _ => throw .noFuel
  | n + 1, s => do
    let t ← ar.next s target
    let ft ← f t
    let next : FalsePos α :=
      if decide (ft < target) == decide (s.fa < target) then { s with a := t, fa := ft, prev := some (t, ft) }
      else { s with b := t, fb := ft, prev := some (t, ft) }
    match s.prev with
    | some (pt, pf) => if ft == pf then ar.mid pt t else falsePosition ar f target n next
    | none => falsePosition ar f target n next

/-- The search between two bracketing values. -/
def falsePositionFrom {α : Type} (ar : TrialArith α) (f : α → HostM Float) (target : Float) (lo hi : α)
    (fuel : Nat) : HostM α := do
  let fa ← f lo
  let fb ← f hi
  falsePosition ar f target fuel { a := lo, fa := fa, b := hi, fb := fb, prev := none }

/-- A value `x` dB below a level (R330). -/
def dbBelow (level x : Float) : Float := level * Float.pow 10 (-x / 20)

/-- The calibration constants (R330): SidAmp as its binary64 pattern, FETSVt as int64. -/
structure Calibration where
  sidAmp : BitVec 64
  fetSvt : Word
  deriving DecidableEq, Repr

/-- `SIDAMP_V = round(SidAmp · SIDAMP_M)` (R342), the product exact. -/
def sidampV (P : HostParams) (x : BitVec 64) : HostM Int := hostRound ((f64Value x).map fun q => q * P.sidampM)

/-- A rational as the nearest quotient of binary64 values. -/
def ratFloat (q : Rat) : Float := Float.ofInt q.num / Float.ofNat q.den

/-- `10^(THR_DB / 20)` (R342): 1 at 0 dB, otherwise the exact value of the binary64 power. -/
def thrGain (thrDb : Rat) : Option Rat :=
  if thrDb = 0 then some 1 else floatRat (Float.pow 10 (ratFloat thrDb / 20))

/-- `ENVG_V = round(10^(THR_DB / 20) · ENVG_M)` (R342), the product exact. -/
def envgV (P : HostParams) (thrDb : Rat) : HostM Int := hostRound ((thrGain thrDb).map fun q => q * P.envgM)

/-- Writes SIDAMP_V for a SidAmp (R332, R342). -/
def setSidAmp (P : HostParams) (x : BitVec 64) : HostM Unit := do
  let v ← sidampV P x
  setReg .sidampV v

/-- Calibration of a started block (R330): SidAmp with the FET clamped to ground, 10 dB below the reference, then
FETSVt with the detector active, 8 dB below it. ENVG_V stays as it was (log entry 21);
ties round as log entry 26 says. -/
def calibrate (P : HostParams) (sr fuel : Nat) : HostM Calibration := do
  let lref ← refLevel P sr
  setReg .fetgnd 1
  let sid ← falsePositionFrom floatTrials (fun p => do setSidAmp P (floatBits p); measure P sr) (dbBelow lref 10)
    P.sidLo P.sidHi fuel
  setSidAmp P (floatBits sid)
  setReg .fetgnd 0
  let fet ← falsePositionFrom intTrials (fun p => do setReg .fetsvt p; measure P sr) (dbBelow lref 8) P.fetLo P.fetHi
    fuel
  pure { sidAmp := floatBits sid, fetSvt := w64 fet }

/-! ## The cache, R333 and R334 -/

/-- The key of a configuration: SR, FLT and the configured UPS (R333). -/
abbrev CalKey := Nat × Nat × Nat

/-- The text after `name=`, if the field has that name. -/
def fieldText (name s : List Char) : Option (List Char) :=
  if (name ++ ['=']).isPrefixOf s then some (s.drop (name.length + 1)) else none

/-- A field of the line: its name, `=` and its value. -/
def field (name : String) (v : List Char) : List Char := name.toList ++ '=' :: v

/-- FETSVt as int64; a number outside int64 makes the line malformed (R333). -/
def readInt64 (l : List Char) : Option Word :=
  (readInt l).bind fun v => if Config.int64Min ≤ v ∧ v ≤ Config.int64Max then some (w64 v) else none

/-- The five fields of a line (R333). -/
def lineFields (key : CalKey) (k : Calibration) : List (List Char) :=
  [field "SmpSec" (Nat.toDigits 10 key.1), field "FltTyp" (Nat.toDigits 10 key.2.1),
    field "UpSamp" (Nat.toDigits 10 key.2.2), field "SidAmp" (f64Text k.sidAmp),
    field "FETSVt" (intText k.fetSvt.toInt)]

/-- One line of the cache (R333): the fields separated by one space. -/
def cacheLine (key : CalKey) (k : Calibration) : String := String.ofList ([' '].intercalate (lineFields key k))

/-- One well-formed line: its key and its constants; `none` for a malformed line (log entry 22). -/
def parseLine (line : String) : Option (CalKey × Calibration) :=
  match line.toList.splitOn ' ' with
  | [f1, f2, f3, f4, f5] => do
    let sr ← (fieldText "SmpSec".toList f1).bind readNat
    let flt ← (fieldText "FltTyp".toList f2).bind readNat
    let ups ← (fieldText "UpSamp".toList f3).bind readNat
    let sid ← (fieldText "SidAmp".toList f4).bind readF64
    let fet ← (fieldText "FETSVt".toList f5).bind readInt64
    some ((sr, flt, ups), { sidAmp := sid, fetSvt := fet })
  | _ => none

/-- The constants of the first line with the key; malformed lines are skipped (R333). -/
def cacheLookup (key : CalKey) : List String → Option Calibration
  | [] => none
  | line :: lines =>
    match parseLine line with
    | some (k, c) => if k = key then some c else cacheLookup key lines
    | none => cacheLookup key lines

/-- The key of a session. -/
def SessionConfig.calKey (c : SessionConfig) : CalKey := (c.sr, c.flt, c.ups)

/-- The file with one more line; unchanged where the write fails (R333). -/
def HostWorld.append (w : HostWorld) (line : String) : HostWorld :=
  if w.cacheWrites then { w with cache := w.cache ++ [line] } else w

/-- The constants from the cache, or by calibration, which appends its line (R333). -/
def obtainCalibration (P : HostParams) (c : SessionConfig) (fuel : Nat) : HostM Calibration := do
  let w ← get
  match cacheLookup c.calKey w.cache with
  | some k => pure k
  | none => do
    let k ← calibrate P c.sr fuel
    modify fun w => w.append (cacheLine c.calKey k)
    pure k

/-! ## Lifecycle, R311 and R312 -/

/-- Bring-up step 5 (R311): the run registers. SIDAMP_M and ENVG_M were set in step 2. -/
def writeRun (P : HostParams) (thrDb : Rat) (k : Calibration) : HostM Unit := do
  setSidAmp P k.sidAmp
  setReg .fetsvt k.fetSvt.toInt
  let v ← envgV P thrDb
  setReg .envgV v
  setReg .fetgnd 0

/-- Session bring-up (R311). A fault of the calibration, or of the last START, ends it (DESIGN CHOICE, log entry 29). -/
def bringUp (P : HostParams) (c : SessionConfig) (fuel : Nat) : HostM Unit := do
  accesses (configOps c)
  writeConstants P c
  writeTables P c allTables
  access (cmd .start)
  failOnFault
  let k ← obtainCalibration P c fuel
  let w ← get
  writeRun P w.session.thrDb k
  access (cmd .start)
  failOnFault
  modify fun w => { w with session := { w.session with hist1 := ⟨0, 0⟩, hist2 := ⟨0, 0⟩ } }

/-- Bring-up as its caller sees it: the descriptive string of the failure where it failed (R348). -/
def bringUpCall (P : HostParams) (c : SessionConfig) (fuel : Nat) : StateM HostWorld (Option String) := do
  match ← (bringUp P c fuel).run with
  | .ok _ => pure none
  | .error e => pure (some e.text)

/-- Teardown (R312). -/
def tearDown : HostM Unit := access (cmd .stop)

end Sys2Proof.Machine
end

