-- ==== Sys2Proof/Safety.lean ====
section
/-! DEFINITION. The words in which the claims are stated: which commands a rule speaks of, which fields a stage
owns, and the invariants of the block (what every state that the block can reach looks like). -/

namespace Sys2Proof.Machine

/-! ## Classes of commands -/

/-- "Needs STARTED" in the table of 40_control.md R130. -/
def needsStarted : Instr → Bool
  | .nop | .cfgw _ | .cfgr _ | .tblw _ _ | .tblr _ _ | .start | .stop | .rtoa | .rtob => false
  | .rdst _ _ | .rdsh _ _ | .discard _ | .mix | .unmix | .clip | .lut _ => true
  | .dcf _ _ | .dcfC _ _ | .dcfU _ _ | .hpf _ _ | .hpfC _ _ | .hpfU _ _ => true
  | .slf _ | .slfC _ | .slfU _ | .env _ | .envC _ | .envU _ | .sp _ | .spC _ | .spU _ => true

/-- "Inhibited while FAULT" in the table of R130. -/
def inhibited : Instr → Bool
  | .nop | .cfgw _ | .cfgr _ | .tblw _ _ | .tblr _ _ | .start | .stop | .rdst _ _ | .rdsh _ _ => false
  | .discard _ | .rtoa | .rtob | .mix | .unmix | .clip | .lut _ => true
  | .dcf _ _ | .dcfC _ _ | .dcfU _ _ | .hpf _ _ | .hpfC _ _ | .hpfU _ _ => true
  | .slf _ | .slfC _ | .slfU _ | .env _ | .envC _ | .envU _ | .sp _ | .spC _ | .spU _ => true

/-- "Writes RES" in the table of R130 (10_state.md R32). -/
def writesRes : Instr → Bool
  | .nop | .cfgw _ | .tblw _ _ | .start | .stop | .discard _ | .rtoa | .rtob => false
  | .cfgr _ | .tblr _ _ | .rdst _ _ | .rdsh _ _ | .mix | .unmix | .clip | .lut _ => true
  | .dcf _ _ | .dcfC _ _ | .dcfU _ _ | .hpf _ _ | .hpfC _ _ | .hpfU _ _ => true
  | .slf _ | .slfC _ | .slfU _ | .env _ | .envC _ | .envU _ | .sp _ | .spC _ | .spU _ => true

/-- The commands that write CLIPF (41_mixer_clip.md R176). -/
def writesClip : Instr → Bool
  | .clip | .sp _ | .spC _ | .start | .stop => true
  | .nop | .cfgw _ | .cfgr _ | .tblw _ _ | .tblr _ _ | .rdst _ _ | .rdsh _ _ | .discard _ | .rtoa | .rtob => false
  | .mix | .unmix | .lut _ | .spU _ => false
  | .dcf _ _ | .dcfC _ _ | .dcfU _ _ | .hpf _ _ | .hpfC _ _ | .hpfU _ _ => false
  | .slf _ | .slfC _ | .slfU _ | .env _ | .envC _ | .envU _ => false

/-- The check-mode commands (43_filters.md R210). -/
def isCheck : Instr → Bool
  | .dcfC _ _ | .hpfC _ _ | .slfC _ | .envC _ | .spC _ => true
  | .nop | .cfgw _ | .cfgr _ | .tblw _ _ | .tblr _ _ | .rdst _ _ | .rdsh _ _ | .discard _ | .rtoa | .rtob => false
  | .start | .stop | .mix | .unmix | .clip | .lut _ | .dcf _ _ | .dcfU _ _ | .hpf _ _ | .hpfU _ _ => false
  | .slf _ | .slfU _ | .env _ | .envU _ | .sp _ | .spU _ => false

/-- The CH field of a per-channel command (classes FC, FCI and FCR, 30_encoding.md R104). -/
def chOf : Instr → Option (BitVec 2)
  | .rdst c _ | .rdsh c _ | .discard c => some c
  | .dcf c _ | .dcfC c _ | .dcfU c _ | .hpf c _ | .hpfC c _ | .hpfU c _ => some c
  | .slf c | .slfC c | .slfU c | .env c | .envC c | .envU c | .sp c | .spC c | .spU c => some c
  | .nop | .cfgw _ | .cfgr _ | .tblw _ _ | .tblr _ _ | .start | .stop | .rtoa | .rtob => none
  | .mix | .unmix | .clip | .lut _ => none

/-- The state number of an RDST or RDSH is assigned (40_control.md R138, R139); true of every other command. -/
def numberOk : Instr → Bool
  | .rdst _ n => (StateReg.ofNum n).isSome
  | .rdsh _ n => (BankField.ofNum n).isSome
  | .nop | .cfgw _ | .cfgr _ | .tblw _ _ | .tblr _ _ | .start | .stop | .rtoa | .rtob | .discard _ => true
  | .mix | .unmix | .clip | .lut _ => true
  | .dcf _ _ | .dcfC _ _ | .dcfU _ _ | .hpf _ _ | .hpfC _ _ | .hpfU _ _ => true
  | .slf _ | .slfC _ | .slfU _ | .env _ | .envC _ | .envU _ | .sp _ | .spC _ | .spU _ => true

/-- The channel that a CH field names in state `s`: 1 or 2 and at most NCH (30_encoding.md R104). -/
def selects (s : State) (ch : BitVec 2) (c : Channel) : Prop :=
  ch.toNat = c.num ∧ c.num ≤ s.cfg.nch.toNat

/-- The session runs and no fault is recorded. -/
def ready (s : State) : Prop := s.stat.started = true ∧ s.stat.fault = false

/-- A value fits int64 (00_scope.md R14). -/
abbrev fits (v : Int) : Prop := -(2 ^ 63) ≤ v ∧ v ≤ 2 ^ 63 - 1

/-- What START's configuration check number `k` demands (40_control.md R136, BAD_CONFIG(1) to BAD_CONFIG(10)). -/
def startCondition (g : Cfg) : Nat → Prop
  | 1 => g.nch.toNat = 1 ∨ g.nch.toNat = 2
  | 2 => g.bits.toNat = 8 ∨ g.bits.toNat = 16 ∨ g.bits.toNat = 24
  | 3 => 1 ≤ g.flt.toNat ∧ g.flt.toNat ≤ 4
  | 4 => g.sr.toNat ≠ 0
  | 5 => 0 < g.sidampM.toInt ∧ 0 < g.envgM.toInt ∧ (∀ k, 0 < (g.dcf k).m.toInt) ∧ (∀ h, 0 < (g.hpf h).m.toInt) ∧
      0 < g.muxAtt.toInt ∧ 0 < g.muxAlpha.toInt ∧ 0 < g.muxE1Att.toInt ∧ 0 < g.muxE1Alpha.toInt ∧
      0 < g.muxE2Alpha.toInt
  | 6 => ∀ t, 0 < (g.geom t).q.toInt
  | 7 => 0 < g.cliplim.toInt
  | 8 => 0 ≤ g.vd.toInt
  | 9 => (∀ k, 0 ≤ (g.dcf k).a.toInt ∧ (g.dcf k).a.toInt ≤ (g.dcf k).m.toInt) ∧
      ∀ h, 0 ≤ (g.hpf h).a.toInt ∧ (g.hpf h).a.toInt ≤ (g.hpf h).m.toInt
  | 10 => ∀ t, fits (((t.size : Int) - 1) * (g.geom t).q.toInt) ∧
      fits ((g.geom t).v0.toInt + ((t.size : Int) - 1) * (g.geom t).q.toInt)
  | _ => True

/-! ## The rules' formulas on exact integers, with the conditions under which nothing overflows -/

/-- `acc` of the DC filter step (43_filters.md R214). -/
def accOf (y r x a : Int) : Int := r + (x - y) * a

/-- The new last output of the DC filter step (R214). -/
def dcfY (y r x a m : Int) : Int := y + (accOf y r x a).tdiv m

/-- The new remainder of the DC filter step (R214). -/
def dcfR (y r x a m : Int) : Int := (accOf y r x a).tmod m

/-- A DC filter step with a positive multiplier in which every intermediate is an int64 (R214, 00_scope.md
R14). -/
def dcfFits (y r x a m : Int) : Prop :=
  0 < m ∧ fits (x - y) ∧ fits ((x - y) * a) ∧ fits (accOf y r x a) ∧ fits (dcfY y r x a m)

/-- The output of a high-pass step (R218). -/
def hpfOut (f : HpfFields) (x a m : Int) : Int := ((f.po + x - f.pi) * a).tdiv m

/-- The new fields of a high-pass step (R217, R218). -/
def hpfNext (f : HpfFields) (x a m da dm : Int) : HpfFields :=
  { pi := x
    po := hpfOut f x a m - dcfY f.y f.r (hpfOut f x a m) da dm
    y := dcfY f.y f.r (hpfOut f x a m) da dm
    r := dcfR f.y f.r (hpfOut f x a m) da dm }

/-- A high-pass step in which every intermediate is an int64 (R217, R218). -/
def hpfFits (f : HpfFields) (x a m da dm : Int) : Prop :=
  0 < m ∧ fits (f.po + x) ∧ fits (f.po + x - f.pi) ∧ fits ((f.po + x - f.pi) * a) ∧
    dcfFits f.y f.r (hpfOut f x a m) da dm ∧ fits (hpfNext f x a m da dm).po

/-! ## The fields a stage owns -/

/-- `dcfFields k f`: `f` is `DCFk_Y` or `DCFk_R` (43_filters.md R220). -/
def dcfFields : DcfId → BankField → Bool
  | .k0, f => f == .dcf0Y || f == .dcf0R
  | .k1, f => f == .dcf1Y || f == .dcf1R
  | .k2, f => f == .dcf2Y || f == .dcf2R

/-- `f` is one of the four fields of high-pass h (R220). -/
def hpfFields : HpfId → BankField → Bool
  | .h0, f => f == .hpf0PI || f == .hpf0PO || dcfFields .k0 f
  | .h1, f => f == .hpf1PI || f == .hpf1PO || dcfFields .k1 f

/-- `f` is one of the four fields of the sliding filter (R220). -/
def slfFields (f : BankField) : Bool := f == .slfPI || f == .slfPO || dcfFields .k2 f

/-- `f` is a field of the envelope detector (44_envelope.md R264). -/
def envFields (f : BankField) : Bool :=
  f == .envS1 || f == .envR1 || f == .envS2 || f == .envR2 || f == .cv

/-- The fields a side-path pass may change under variant `flt` (45_sidepath.md R289). -/
def spFields (flt : Word) (f : BankField) : Bool :=
  slfFields f || envFields f || ((flt == 1 || flt == 3) && hpfFields .h0 f) ||
    (!(flt == 1 || flt == 3) && (flt == 2 || flt == 4) && hpfFields .h1 f)

/-- The fields that the check named by a pending tag may have changed in the shadow bank (R210, R220). -/
def pendFields (flt : Word) : Pend → BankField → Bool
  | .none, _ => false
  | .dcf k, f => dcfFields k f
  | .hpf h, f => hpfFields h f
  | .slf, f => slfFields f
  | .env, f => envFields f
  | .sp, f => spFields flt f

/-! ## The invariants -/

/-- The table memory is in canonical form. -/
def tablesInv (s : State) : Prop := s.tables.wf = true

/-- A started session has a configuration and tables that START accepted, and the upsampling factor START
derived from them (R136, 20_memory.md R82, R83, 10_state.md R35, R43). -/
def sessionInv (s : State) : Prop :=
  s.stat.started = true →
    s.cfg.check = .ok () ∧ s.tables.check = .ok () ∧ s.cfg.upsEff = BitVec.ofNat 64 s.cfg.factor

/-- Without a session, what START and STOP clear is clear (10_state.md R43, R50, R51, R54, R56). -/
def idleInv (s : State) : Prop :=
  s.stat.started = false →
    s.stat.clipf = false ∧ s.cfg.upsEff = 0 ∧ s.chan1 = Chan.zero ∧ s.chan2 = Chan.zero

/-- The fault record: a cause 1 to 13 exactly while FAULT is 1, otherwise all zero (60_exceptions.md R360). -/
def recordInv (s : State) : Prop :=
  if s.stat.fault then 1 ≤ s.stat.fcause.toNat ∧ s.stat.fcause.toNat ≤ 13
  else s.stat.fcause = 0 ∧ s.stat.fdetail = 0

/-- A pending trial's shadow bank differs from the committed bank only in the fields its stage owns
(43_filters.md R212). -/
def pendInv (s : State) : Prop :=
  ∀ c f, (s.chan c).pend ≠ .none → pendFields s.cfg.flt (s.chan c).pend f = false →
    (s.chan c).sh.read f = (s.chan c).st.read f

/-- Every remainder accumulator of a bank is smaller than its multiplier (43_filters.md R214). -/
def remaindersOk (g : Cfg) (b : Bank) : Prop :=
  |b.dcf0R.toInt| < g.dcf0.m.toInt ∧ |b.dcf1R.toInt| < g.dcf1.m.toInt ∧ |b.dcf2R.toInt| < g.dcf2.m.toInt ∧
    |b.envR1.toInt| < g.muxE1Alpha.toInt ∧ |b.envR2.toInt| < g.muxE2Alpha.toInt

/-- In a session every remainder of both banks of both channels is smaller than its multiplier (R214). -/
def remainderInv (s : State) : Prop :=
  s.stat.started = true → ∀ c, remaindersOk s.cfg (s.chan c).st ∧ remaindersOk s.cfg (s.chan c).sh

/-- The invariant of the block. -/
def State.Inv (s : State) : Prop :=
  tablesInv s ∧ sessionInv s ∧ idleInv s ∧ recordInv s ∧ pendInv s ∧ remainderInv s

/-- A safe run never gets stuck: no step answers a fault of the model. -/
def safeStep (s : State) : Prop := ∀ f, step s ≠ .fault f

end Sys2Proof.Machine
end

