-- ==== Sys2Proof/Certificates/Slice0/Obligations.lean ====
section
/-! DEFINITION. The statements for the provers. Each docstring names the rules of spec/ it formalises; a command's
statement is the equation of its whole next state, so it says the result, the frame and that the command
completes. -/

open Sys2Proof Sys2Proof.Machine

/-! ## Encoding -/

/-- Decode and encode agree (30_encoding.md R101, R102, R107): the word of a command, every field at every value,
decodes to that command. -/
def Obligations.DecodeOfEncode : Prop := ∀ i : Instr, decode (encode i) = .ok i

/-- Each word that names a command is that command's only word (R109: no ignored bits). -/
def Obligations.EncodeOfDecode : Prop := ∀ (w : CmdWord) (i : Instr), decode w = .ok i → encode i = w

/-- R108: a word spells command X exactly when `(w & mask(X)) = match(X)`; the masks are written out here. -/
def Obligations.WordSpellsByMask : Prop :=
  (Format.mask .f0 = 0xFFFFFFFF ∧ Format.mask .fr = 0x0000FFFF ∧ Format.mask .ft = 0x0000E3FF ∧
    Format.mask .fi = 0xFFFFE3FF ∧ Format.mask .fc = 0xFFFFFCFF ∧ Format.mask .fci = 0xFFFFE0FF ∧
    Format.mask .fcr = 0x0000FCFF) ∧
  (∀ (i : Instr) (w : CmdWord),
    w &&& (formatOf i).mask = (opOf i).setWidth 32 ↔ ∃ j, decode w = .ok j ∧ opOf j = opOf i) ∧
  (∀ (i j : Instr) (w : CmdWord), w &&& (formatOf i).mask = (opOf i).setWidth 32 →
    w &&& (formatOf j).mask = (opOf j).setWidth 32 → opOf i = opOf j)

/-- R109 and R110: of the 256 OP values 31 are assigned; a word with one of the other 225, the reserved mode values
among them, raises ILLEGAL, and so does a word with an assigned OP whose RSV, or a field its class does not use, is
nonzero; every other word runs its command. -/
def Obligations.IllegalWords : Prop :=
  ((List.range 256).filter fun n => (opcodeRow (BitVec.ofNat 8 n)).isSome).length = 31 ∧
  ((List.range 256).filter fun n => (opcodeRow (BitVec.ofNat 8 n)).isNone).length = 225 ∧
  (∀ op ∈ [0x23#8, 0x27#8, 0x2B#8, 0x2F#8, 0x33#8], opcodeRow op = none) ∧
  (∀ (w : CmdWord) (s : State), opcodeRow (opField w) = none →
    runCommand (bytesLE 4 w.toNat) s = .next (s.raise .illegal ((opField w).setWidth 16))) ∧
  ∀ (w : CmdWord) (s : State) (i : Instr), opField w = opOf i →
    (w &&& (formatOf i).mask ≠ (opOf i).setWidth 32 →
      runCommand (bytesLE 4 w.toNat) s = .next (s.raise .illegal ((opField w).setWidth 16))) ∧
    (w &&& (formatOf i).mask = (opOf i).setWidth 32 →
      ∃ j, opOf j = opOf i ∧ encode j = w ∧ runCommand (bytesLE 4 w.toNat) s = exec j s)

/-- R114: the spec's encoding examples, decoded and encoded. -/
def Obligations.SpecEncodingExamples : Prop :=
  decode 0x00000130 = .ok (.sp 1) ∧ decode 0x00000231 = .ok (.spC 2) ∧ decode 0x00000922 = .ok (.dcfU 1 2) ∧
  decode 0x00000624 = .ok (.hpf 2 1) ∧ decode 0x00001413 = .ok (.lut 5) ∧
  decode 0x03CF0C03 = .ok (.tblw 3 975) ∧ decode 0x000C0001 = .ok (.cfgw 0x0C) ∧
  CfgReg.ofNum 0x0C = some .cliplim ∧ decode 0x00210107 = .ok (.rdst 1 0x21) ∧ decode 0x00000010 = .ok .mix ∧
  encode (.sp 1) = 0x00000130 ∧ encode (.spC 2) = 0x00000231 ∧ encode (.dcfU 1 2) = 0x00000922 ∧
  encode (.hpf 2 1) = 0x00000624 ∧ encode (.lut 5) = 0x00001413 ∧ encode (.tblw 3 975) = 0x03CF0C03 ∧
  encode (.cfgw 0x0C) = 0x000C0001 ∧ encode (.rdst 1 0x21) = 0x00210107 ∧ encode .mix = 0x00000010

/-! ## The step and the port -/

/-- A step runs the decoded command (10_state.md R34, 20_memory.md R84): where the oldest pending event writes
bytes to CMD that decode to `i`, the step is `exec i` on the state with that event served; where it writes a word
that is no command, the step raises ILLEGAL with the word's OP (30_encoding.md R109) on that state; with no event
pending nothing changes. The queue is the model's (log entry 1). -/
def Obligations.StepRunsDecoded : Prop :=
  (∀ (s : State) (bytes : List Byte) (rest : List BusOp) (i : Instr),
    s.bus = .write 0x1C bytes :: rest → decodeBytes bytes = .ok i → step s = exec i { s with bus := rest }) ∧
  (∀ (s : State) (w : CmdWord) (rest : List BusOp),
    s.bus = .write 0x1C (bytesLE 4 w.toNat) :: rest → (∀ i, decode w ≠ .ok i) →
    step s = .next (State.raise { s with bus := rest } .illegal ((opField w).setWidth 16))) ∧
  ∀ s : State, s.bus = [] → step s = .next s

/-- Port writes and reads (20_memory.md R85, R87, R88, 10_state.md R31): the eight bytes of a value, the lowest
offset first, replace OPA or OPB whole and nothing else of the block changes; a read of full width returns the
register's bytes, the lowest offset holding bits 7:0, and has no side effect on the block. -/
def Obligations.PortAccesses : Prop :=
  (∀ (s : State) (v : Word) (rest : List BusOp),
    (s.bus = .write 0x00 (bytesLE 8 v.toNat) :: rest → step s = .next { s with opa := v, bus := rest }) ∧
    (s.bus = .write 0x08 (bytesLE 8 v.toNat) :: rest → step s = .next { s with opb := v, bus := rest })) ∧
  ∀ (s : State) (rest : List BusOp) (off n : Nat) (v : Nat),
    (off, n, v) ∈ [(0x00, 8, s.opa.toNat), (0x08, 8, s.opb.toNat), (0x10, 8, s.res.toNat),
      (0x18, 4, s.stat.toWord.toNat)] →
    s.bus = .read off n :: rest →
    ∃ bs : List Byte, bs.length = n ∧ valueLE bs = v ∧ step s = .next { s with rdata := bs, bus := rest }

/-- R86 and R87: a port access that is not a full-width access to a register at its own offset, a write to RES or
STAT, and a read of CMD are refused. -/
def Obligations.UnsupportedAccessRefused : Prop :=
  (∀ (s : State) (rest : List BusOp) (off n : Nat), s.bus = .read off n :: rest →
    ((off, n) ∈ [(0x00, 8), (0x08, 8), (0x10, 8), (0x18, 4)] ↔ ∃ t, step s = .next t) ∧
    ((off, n) ∉ [(0x00, 8), (0x08, 8), (0x10, 8), (0x18, 4)] ↔ ∃ r, step s = .refused r)) ∧
  ∀ (s : State) (rest : List BusOp) (off : Nat) (bytes : List Byte), s.bus = .write off bytes :: rest →
    ((off, bytes.length) ∉ [(0x00, 8), (0x08, 8), (0x1C, 4)] ↔ ∃ r, step s = .refused r)

/-- STAT's layout (10_state.md R33): every field at its bits, bits 7:3 zero. -/
def Obligations.StatLayout : Prop :=
  ∀ st : Stat, st.toWord.getLsbD 0 = st.started ∧ st.toWord.getLsbD 1 = st.fault ∧
    st.toWord.getLsbD 2 = st.clipf ∧ st.toWord.extractLsb' 3 5 = 0 ∧ st.toWord.extractLsb' 8 8 = st.fcause ∧
    st.toWord.extractLsb' 16 16 = st.fdetail

/-! ## Reset -/

/-- R58: the power-on values of every piece of state. -/
def Obligations.PowerOnValues : Prop :=
  State.reset.opa = 0 ∧ State.reset.opb = 0 ∧ State.reset.res = 0 ∧ State.reset.stat.toWord = 0 ∧
  (∀ r : CfgReg, State.reset.cfg.read r = if r = .flt then 4 else if r = .id then 0x534F584E47000701 else 0) ∧
  (∀ c : Channel, (∀ f, (State.reset.chan c).st.read f = 0) ∧ (∀ f, (State.reset.chan c).sh.read f = 0) ∧
    (State.reset.chan c).pend.code = 0 ∧ (State.reset.chan c).tout = 0) ∧
  ∀ (t : TableId) (i : Nat), State.reset.tables.read t i = none

/-- The power-on reset input (70_reset_and_hazards.md R400) gives every piece of the block's state its power-on
value; the events still pending and the bytes the host has read are the model's own fields (log entries 1, 2, 3)
and stay. -/
def Obligations.PowerOnResets : Prop :=
  ∀ (s : State) (rest : List BusOp), s.bus = .powerOn :: rest →
    step s = .next { State.reset with bus := rest, rdata := s.rdata }

/-! ## Faults -/

/-- R366 and R360: recording a fault, and the codes of the causes. -/
def Obligations.FaultRecording : Prop :=
  (∀ (s : State) (c : Cause) (d : BitVec 16),
    (s.stat.fault = false → s.raise c d =
      { s with stat := { s.stat with fault := true, fcause := c.code, fdetail := d } }) ∧
    (s.stat.fault = true → s.raise c d = s)) ∧
  [Cause.illegal, .badChannel, .badInstance, .notStarted, .cfgLocked, .badConfig, .resource, .noTrial, .overflow,
    .badReg, .badIndex, .unwritten, .readOnly].map Cause.code = (List.range 13).map fun n => BitVec.ofNat 8 (n + 1)

/-- R362: faults are precise. A step that turns FAULT on leaves everything else as it was but FCAUSE and FDETAIL
(and the served event); and only a write to CMD can turn it on. -/
def Obligations.FaultsArePrecise : Prop :=
  (∀ (i : Instr) (s t : State), exec i s = .next t → s.stat.fault = false → t.stat.fault = true →
    t = { s with stat := { s.stat with fault := true, fcause := t.stat.fcause, fdetail := t.stat.fdetail } }) ∧
  ∀ (s t : State), step s = .next t → s.stat.fault = false → t.stat.fault = true →
    (∃ bytes rest, s.bus = .write 0x1C bytes :: rest) ∧
    t = { s with
      bus := t.bus
      stat := { s.stat with fault := true, fcause := t.stat.fcause, fdetail := t.stat.fdetail } }

/-- R367 and R365: the first fault stays. While FAULT = 1, no command but START and STOP changes STAT, the commands
that R130 inhibits change nothing at all, and FAULT leaves only by STOP or by a START that succeeds. -/
def Obligations.FirstFaultStays : Prop :=
  ∀ (i : Instr) (s : State), s.stat.fault = true →
    (∀ t, exec i s = .next t → i ≠ .start → i ≠ .stop → t.stat = s.stat) ∧
    (inhibited i = true → exec i s = .next s) ∧
    ∀ t, exec i s = .next t → t.stat.fault = false →
      i = .stop ∨ (i = .start ∧ t.stat.started = true ∧ s.cfg.check = .ok () ∧ s.tables.check = .ok ())

/-- R105: an instance out of range raises BAD_INSTANCE(INST), FAULT or not. -/
def Obligations.BadInstanceRaised : Prop :=
  ∀ (i : Instr) (s : State), i.wf = false →
    exec i s = .next (s.raise .badInstance ((fieldsOf i).2.1.setWidth 16))

/-- R130 and R370: a well-formed command that needs STARTED raises NOT_STARTED(OP) without a session, before its
channel is looked at. -/
def Obligations.NotStartedRaised : Prop :=
  ∀ (i : Instr) (s : State), needsStarted i = true → i.wf = true → numberOk i = true → s.stat.started = false →
    s.stat.fault = false → exec i s = .next (s.raise .notStarted ((opOf i).setWidth 16))

/-- R104: in a session, a well-formed per-channel command whose CH is not 1 or 2, or above NCH, raises
BAD_CHANNEL(CH). -/
def Obligations.BadChannelRaised : Prop :=
  ∀ (i : Instr) (s : State) (ch : BitVec 2), chOf i = some ch → i.wf = true → numberOk i = true → ready s →
    (∀ c, ¬ selects s ch c) → exec i s = .next (s.raise .badChannel (ch.setWidth 16))

/-! ## Control and configuration commands -/

/-- R131: NOP changes nothing, in any state; a word with its OP and another field nonzero raises ILLEGAL. -/
def Obligations.NopDoesNothing : Prop :=
  encode .nop = 0 ∧ (∀ s : State, exec .nop s = .next s) ∧
  ∀ (w : CmdWord) (s : State), opField w = 0 → w ≠ 0 →
    runCommand (bytesLE 4 w.toNat) s = .next (s.raise .illegal 0)

/-- R132: CFGW. The access classes of R35 to R44 are written out: UPS_EFF and ID are read-only, FETGND, SIDAMP_V,
ENVG_V and FETSVT can be written at any time, every other register only without a session. -/
def Obligations.CfgwWrites : Prop :=
  ∀ (s : State) (n : BitVec 16), exec (.cfgw n) s = .next (
    match CfgReg.ofNum n with
    | none => s.raise .badReg n
    | some r =>
      if r ∈ [CfgReg.upsEff, .id] then s.raise .readOnly n
      else if r ∉ [CfgReg.fetgnd, .sidampV, .envgV, .fetsvt] ∧ s.stat.started = true then s.raise .cfgLocked n
      else { s with cfg := s.cfg.write r s.opa })

/-- The register file's law (10_state.md R35 to R44): a written register reads back, the one-bit registers their
bit 0, and every other register keeps its value; ID reads as its constant. -/
def Obligations.CfgReadAfterWrite : Prop :=
  ∀ (g : Cfg) (r q : CfgReg) (v : Word),
    (g.write r v).read q =
      if q = .id then 0x534F584E47000701
      else if q = r then (if r = .upall ∨ r = .fetgnd then v &&& 1 else v)
      else g.read q

/-- R36 to R45: the assigned register numbers, and the register of each, in the order of the numbers. -/
def Obligations.AssignedRegisterNumbers : Prop :=
  (∀ n : BitVec 16, (CfgReg.ofNum n).isSome = true ↔
    n.toNat ≤ 0x15 ∨ (0x18 ≤ n.toNat ∧ n.toNat ≤ 0x1B) ∨ (0x20 ≤ n.toNat ∧ n.toNat ≤ 0x24) ∨
      (0x28 ≤ n.toNat ∧ n.toNat ≤ 0x33)) ∧
  ((List.range 0x34).filterMap fun n => CfgReg.ofNum (BitVec.ofNat 16 n)) =
    [.sr, .nch, .bits, .flt, .ups, .upall, .fetgnd, .sidampV, .sidampM, .envgV, .envgM, .fetsvt, .cliplim, .vd,
      .upsEff, .id, .dcfA .k0, .dcfM .k0, .dcfA .k1, .dcfM .k1, .dcfA .k2, .dcfM .k2, .hpfA .h0, .hpfM .h0,
      .hpfA .h1, .hpfM .h1, .muxAtt, .muxAlpha, .muxE1Att, .muxE1Alpha, .muxE2Alpha, .tblV0 .att, .tblQ .att,
      .tblV0 .alpha, .tblQ .alpha, .tblV0 .oatt, .tblQ .oatt, .tblV0 .e1Att, .tblQ .e1Att, .tblV0 .e1Alpha,
      .tblQ .e1Alpha, .tblV0 .e2Alpha, .tblQ .e2Alpha] ∧
  (∀ r : CfgReg, CfgReg.ofNum r.num = some r) ∧
  ∀ (s : State) (n : BitVec 16), CfgReg.ofNum n = none →
    exec (.cfgw n) s = .next (s.raise .badReg n) ∧ exec (.cfgr n) s = .next (s.raise .badReg n)

/-- R133: CFGR, its word, its effect in any state, and its two constants: UPS_EFF is 0 before START, ID is fixed. -/
def Obligations.CfgrReads : Prop :=
  (∀ n : BitVec 16, encode (.cfgr n) = n ++ 0x0002#16) ∧
  (∀ (s : State) (n : BitVec 16), exec (.cfgr n) s = .next (
    match CfgReg.ofNum n with
    | none => s.raise .badReg n
    | some r => { s with res := s.cfg.read r })) ∧
  exec (.cfgr 0x0E) State.reset = .next State.reset ∧
  exec (.cfgr 0x03) State.reset = .next { State.reset with res := 4 } ∧
  ∀ s : State, exec (.cfgr 0x0F) s = .next { s with res := 0x534F584E47000701 }

/-- R134, R135, R81 and R82: TBLW and TBLR, with the numbers and the sizes of the six tables. After a TBLW the entry it
names reads as OPA, and every other entry of every table as before. -/
def Obligations.TableAccess : Prop :=
  [TableId.att, .alpha, .oatt, .e1Att, .e1Alpha, .e2Alpha].map (fun t => (t.num, t.size)) =
    [(0, 1001), (1, 1001), (2, 1001), (3, 976), (4, 976), (5, 701)] ∧
  ∀ (s : State) (t : BitVec 3) (i : BitVec 16) (tb : TableId), t.toNat = tb.num →
    exec (.tblw t i) s = .next (
      if tb.size ≤ i.toNat then s.raise .badIndex i
      else if s.stat.started = true then s.raise .cfgLocked (0x8000#16 ||| t.setWidth 16)
      else { s with tables := s.tables.write tb i.toNat s.opa }) ∧
    exec (.tblr t i) s = .next (
      if tb.size ≤ i.toNat then s.raise .badIndex i
      else match s.tables.read tb i.toNat with
        | none => s.raise .unwritten i
        | some v => { s with res := v }) ∧
    (s.tables.wf = true →
      (s.tables.write tb i.toNat s.opa).read tb i.toNat = some s.opa ∧
      ∀ tb' k, (tb', k) ≠ (tb, i.toNat) →
        (s.tables.write tb i.toNat s.opa).read tb' k = s.tables.read tb' k)

/-- R136 and R401: START on a legal configuration with every table entry written. -/
def Obligations.StartStartsSession : Prop :=
  ∀ s : State, s.tables.wf = true → (∀ k, startCondition s.cfg k) →
    (∀ t i, i < t.size → ∃ v, s.tables.read t i = some v) →
    let n := if s.cfg.ups.toNat ≠ 0 then s.cfg.ups.toNat else max 1 ((200000 + s.cfg.sr.toNat - 1) / s.cfg.sr.toNat)
    exec .start s = .next { s with
      cfg := { s.cfg with upsEff := BitVec.ofNat 64 n }
      chan1 := Chan.zero
      chan2 := Chan.zero
      stat := { started := true, fault := false, clipf := false, fcause := 0, fdetail := 0 } }

/-- R136 and R367: START on an illegal configuration reports the first failing check, or the lowest incomplete
table, even over an earlier fault, and changes nothing else. -/
def Obligations.StartReportsFirstFailure : Prop :=
  ∀ s : State, s.tables.wf = true →
    (∀ k, 1 ≤ k → k ≤ 10 → (∀ j, j < k → startCondition s.cfg j) → ¬ startCondition s.cfg k →
      exec .start s = .next { s with stat := { s.stat with
        fault := true, fcause := 6, fdetail := BitVec.ofNat 16 k } }) ∧
    ((∀ k, startCondition s.cfg k) → ∀ t : TableId,
      (∃ i, i < t.size ∧ s.tables.read t i = none) →
      (∀ t' : TableId, t'.num < t.num → ∀ i, i < t'.size → ∃ v, s.tables.read t' i = some v) →
      exec .start s = .next { s with stat := { s.stat with
        fault := true, fcause := 7, fdetail := BitVec.ofNat 16 (t.num + 1) } })

/-- R404: with UPS = 0 the factor is the least N of 1 or more with N·SR at 200 kHz or above; a nonzero UPS is used
as given; and the rule's values for common rates. -/
def Obligations.UpsamplingFactor : Prop :=
  (∀ g : Cfg, g.ups.toNat ≠ 0 → g.factor = g.ups.toNat) ∧
  (∀ g : Cfg, g.ups.toNat = 0 → g.sr.toNat ≠ 0 →
    1 ≤ g.factor ∧ 200000 ≤ g.factor * g.sr.toNat ∧
      ∀ n, 1 ≤ n → 200000 ≤ n * g.sr.toNat → g.factor ≤ n) ∧
  ∀ p ∈ [(8000, 25), (11025, 19), (16000, 13), (22050, 10), (32000, 7), (44100, 5), (48000, 5), (88200, 3),
      (96000, 3), (176400, 2), (192000, 2), (200000, 1)],
    ({ Cfg.reset with sr := BitVec.ofNat 64 p.1 } : Cfg).factor = p.2

/-- R137 and R401: STOP, in any state. -/
def Obligations.StopEndsSession : Prop :=
  encode .stop = 0x00000006 ∧
  ∀ s : State, ∃ t, exec .stop s = .next t ∧
    t = { s with
      stat := { started := false, fault := false, clipf := false, fcause := 0, fdetail := 0 }
      cfg := { s.cfg with upsEff := 0 }
      chan1 := Chan.zero
      chan2 := Chan.zero
      tables := t.tables } ∧
    ∀ tb k, t.tables.read tb k = none

/-- R138, R139, R49 and R51: RDST and RDSH, every assigned state number of a selected channel, FAULT or not; what
each number names, and the eight bits of each pending tag. -/
def Obligations.BankReads : Prop :=
  (∀ (s : State) (ch : BitVec 2) (c : Channel) (n : BitVec 16), selects s ch c →
    exec (.rdst ch n) s = .next (
      match StateReg.ofNum n with
      | none => s.raise .badReg n
      | some r =>
        if s.stat.started = false then s.raise .notStarted 0x07
        else { s with res :=
          match r with
          | .field f => (s.chan c).st.read f
          | .pend => (s.chan c).pend.code.setWidth 64
          | .tout => (s.chan c).tout }) ∧
    exec (.rdsh ch n) s = .next (
      match BankField.ofNum n with
      | none => s.raise .badReg n
      | some f =>
        if s.stat.started = false then s.raise .notStarted 0x08
        else { s with res := (s.chan c).sh.read f })) ∧
  (∀ n : BitVec 16, (BankField.ofNum n).isSome = true ↔ n.toNat ≤ 16) ∧
  (∀ n : BitVec 16, StateReg.ofNum n =
    if n.toNat ≤ 16 then (BankField.ofNum n).map .field
    else if n.toNat = 0x20 then some .pend
    else if n.toNat = 0x21 then some .tout
    else none) ∧
  [Pend.none, .dcf .k0, .dcf .k1, .dcf .k2, .hpf .h0, .hpf .h1, .slf, .env, .sp].map Pend.code =
    [0x00, 0x01, 0x11, 0x21, 0x02, 0x12, 0x03, 0x04, 0x05] ∧
  ∀ b : Bank, ((List.range 17).filterMap fun n => (BankField.ofNum (BitVec.ofNat 16 n)).map b.read) =
    [b.dcf0Y, b.dcf0R, b.dcf1Y, b.dcf1R, b.dcf2Y, b.dcf2R, b.hpf0PI, b.hpf0PO, b.hpf1PI, b.hpf1PO, b.slfPI,
      b.slfPO, b.envS1, b.envR1, b.envS2, b.envR2, b.cv]

/-- R140: DISCARD clears the pending tag of its channel and nothing else. -/
def Obligations.DiscardDropsTrial : Prop :=
  ∀ (s : State) (ch : BitVec 2) (c : Channel), ready s → selects s ch c →
    exec (.discard ch) s = .next (
      match c with
      | .ch1 => { s with chan1 := { s.chan1 with pend := .none } }
      | .ch2 => { s with chan2 := { s.chan2 with pend := .none } })

/-- R142 and R143: RTOA and RTOB copy RES, unless FAULT inhibits them; they need no session. -/
def Obligations.MovesCopyResult : Prop :=
  encode .rtoa = 0x0000000A ∧ encode .rtob = 0x0000000B ∧
  ∀ s : State, exec .rtoa s = .next (if s.stat.fault = true then s else { s with opa := s.res }) ∧
    exec .rtob s = .next (if s.stat.fault = true then s else { s with opb := s.res })

/-! ## Mixer, clip, interpolator -/

/-- R171, R172 and R170: MIX and UNMIX, and UNMIX as the inverse of MIX. -/
def Obligations.MixerAddsAndSubtracts : Prop :=
  encode .mix = 0x00000010 ∧ encode .unmix = 0x00000011 ∧
  (∀ s : State,
    exec .mix s = .next (
      if s.stat.fault = true then s
      else if s.stat.started = false then s.raise .notStarted 0x10
      else if fits (s.opa.toInt + s.opb.toInt) then { s with res := BitVec.ofInt 64 (s.opa.toInt + s.opb.toInt) }
      else s.raise .overflow 0) ∧
    exec .unmix s = .next (
      if s.stat.fault = true then s
      else if s.stat.started = false then s.raise .notStarted 0x11
      else if fits (s.opa.toInt - s.opb.toInt) then { s with res := BitVec.ofInt 64 (s.opa.toInt - s.opb.toInt) }
      else s.raise .overflow 0)) ∧
  ∀ s : State, ready s → fits (s.opa.toInt + s.opb.toInt) →
    ∃ t u v, exec .mix s = .next t ∧ exec .rtoa t = .next u ∧ exec .unmix u = .next v ∧ v.res = s.opa

/-- R173, R175 and R176: CLIP clamps OPA to plus and minus CLIPLIM and sets CLIPF on or beyond the boundary. -/
def Obligations.ClipClamps : Prop :=
  encode .clip = 0x00000012 ∧
  ∀ s : State, 0 < s.cfg.cliplim.toInt → exec .clip s = .next (
    if s.stat.fault = true then s
    else if s.stat.started = false then s.raise .notStarted 0x12
    else if s.cfg.cliplim.toInt ≤ s.opa.toInt then
      { s with res := s.cfg.cliplim, stat := { s.stat with clipf := true } }
    else if s.opa.toInt ≤ -s.cfg.cliplim.toInt then
      { s with res := BitVec.ofInt 64 (-s.cfg.cliplim.toInt), stat := { s.stat with clipf := true } }
    else { s with res := s.opa, stat := { s.stat with clipf := false } })

/-- R190: the interpolator. With the voltage clamped to the domain, `i` the index of the entry at or below it and
`f` the distance above that entry: the top entry at the top, and otherwise the entry plus the truncated fraction
of the difference, or OVERFLOW where the difference or the product is no int64. -/
def Obligations.InterpolatorFormula : Prop :=
  ∀ (g : Cfg) (tb : Tables) (t : TableId) (v : Int),
    let v0 := (g.geom t).v0.toInt
    let q := (g.geom t).q.toInt
    let top := v0 + ((t.size : Int) - 1) * q
    let i := (max v0 (min v top) - v0) / q
    let f := (max v0 (min v top) - v0) % q
    0 < q → fits (((t.size : Int) - 1) * q) → fits top →
    (i = (t.size : Int) - 1 → ∀ w, tb.read t (t.size - 1) = some w → interp g tb t v = .ok w.toInt) ∧
    (i < (t.size : Int) - 1 → ∀ a b, tb.read t i.toNat = some a → tb.read t (i.toNat + 1) = some b →
      interp g tb t v =
        if fits (b.toInt - a.toInt) ∧ fits ((b.toInt - a.toInt) * f) then
          .ok (a.toInt + ((b.toInt - a.toInt) * f).tdiv q)
        else .error (.raise .overflow 0))

/-- R191: LUT of a table that exists, where the interpolation has a value and where it overflows; in every reachable
state of a session (`State.Inv`) it does one of the two. -/
def Obligations.LutReturnsInterpolation : Prop :=
  ∀ (s : State) (t : BitVec 3) (tb : TableId), ready s → t.toNat = tb.num →
    (∀ y, interp s.cfg s.tables tb s.opa.toInt = .ok y →
      exec (.lut t) s = .next { s with res := BitVec.ofInt 64 y }) ∧
    (interp s.cfg s.tables tb s.opa.toInt = .error (.raise .overflow 0) →
      exec (.lut t) s = .next (s.raise .overflow 0)) ∧
    (s.Inv → (∃ y, interp s.cfg s.tables tb s.opa.toInt = .ok y) ∨
      interp s.cfg s.tables tb s.opa.toInt = .error (.raise .overflow 0))

/-! ## Filters -/

/-- R214: the DC filter step, its remainder smaller than the multiplier and with the sign of the accumulator; an
intermediate outside int64 raises OVERFLOW; the output of the stage is its new last output. -/
def Obligations.DcStepFormula : Prop :=
  (∀ y r x a m : Int, 0 < m →
    let acc := r + (x - y) * a
    let d := acc.tdiv m
    (dcfFits y r x a m → dcfStep y r x a m = .ok (y + d, acc - d * m)) ∧
    (¬ dcfFits y r x a m → dcfStep y r x a m = .error (.raise .overflow 0)) ∧
    acc - d * m = acc.tmod m ∧ |acc - d * m| < m ∧ (0 ≤ acc → 0 ≤ acc - d * m) ∧ (acc ≤ 0 → acc - d * m ≤ 0)) ∧
  ∀ (g : Cfg) (b b' : Bank) (k : DcfId) (x out : Int), fDcf g b k x = .ok (b', out) →
    (b'.dcf k).1 = out ∧
      dcfStep (b.dcf k).1 (b.dcf k).2 x (g.dcf k).a.toInt (g.dcf k).m.toInt = .ok (b'.dcf k)

/-- R216: for a constant input and 0 < A ≤ M the output moves toward the input without overshooting, stays once
there, and reaches it after finitely many steps (where the arithmetic stays in int64). -/
def Obligations.DcFilterConverges : Prop :=
  ∀ x a m : Int, 0 < a → a ≤ m →
    (∀ y r y' r', |r| < m → dcfStep y r x a m = .ok (y', r') →
      (y ≤ x → y ≤ y' ∧ y' ≤ x) ∧ (x ≤ y → x ≤ y' ∧ y' ≤ y)) ∧
    (∀ r, |r| < m → fits x → fits m → dcfStep x r x a m = .ok (x, r)) ∧
    ∀ y r, |r| < m → fits x → fits y → fits (|x - y| * a + m) →
      ∃ n : Nat, ∃ r', ((fun p : Except Stop (Int × Int) => p.bind fun q => dcfStep q.1 q.2 x a m)^[n])
        (.ok (y, r)) = .ok (x, r')

/-- R217 and R218: the high-pass step: the output is not corrected, the stored prevOut is. -/
def Obligations.HighPassStepFormula : Prop :=
  ∀ (f : HpfFields) (x a m da dm : Int), 0 < m → 0 < dm →
    (hpfFits f x a m da dm →
      hpfStep f x a m da dm = .ok (hpfNext f x a m da dm, ((f.po + x - f.pi) * a).tdiv m)) ∧
    (¬ hpfFits f x a m da dm → hpfStep f x a m da dm = .error (.raise .overflow 0))

/-- DCF, DCF.C and DCF.U (R221 to R223, R210): with every intermediate an int64, the committed form writes
`DCFk_Y`, `DCFk_R` of the committed bank, clears PEND and returns the new output; the check writes the shadow
bank, TOUT and PEND instead; the update copies the shadow bank where PEND names its own check, and raises
NO_TRIAL(PEND) otherwise. -/
def Obligations.DcFilterCommands : Prop :=
  ∀ (s : State) (ch : BitVec 2) (k : BitVec 3) (c : Channel) (j : DcfId),
    ready s → selects s ch c → k.toNat = j.num →
    let b := (s.chan c).st
    let y := (b.dcf j).1
    let r := (b.dcf j).2
    let x := s.opa.toInt
    let a := (s.cfg.dcf j).a.toInt
    let m := (s.cfg.dcf j).m.toInt
    let b' := b.setDcf j (dcfY y r x a m) (dcfR y r x a m)
    let out := w64 (dcfY y r x a m)
    (dcfFits y r x a m →
      exec (.dcf ch k) s = .next { s.setChan c { s.chan c with st := b', pend := .none } with res := out } ∧
      exec (.dcfC ch k) s =
        .next { s.setChan c { s.chan c with sh := b', tout := out, pend := .dcf j } with res := out }) ∧
    (0 < m → ¬ dcfFits y r x a m →
      exec (.dcf ch k) s = .next (s.raise .overflow 0) ∧ exec (.dcfC ch k) s = .next (s.raise .overflow 0)) ∧
    exec (.dcfU ch k) s = .next (
      if (s.chan c).pend = .dcf j then
        { s.setChan c { s.chan c with st := (s.chan c).sh, pend := .none } with res := (s.chan c).tout }
      else s.raise .noTrial ((s.chan c).pend.code.setWidth 16))

/-- HPF, HPF.C and HPF.U (R231 to R233, R210). -/
def Obligations.HighPassCommands : Prop :=
  ∀ (s : State) (ch : BitVec 2) (k : BitVec 3) (c : Channel) (j : HpfId),
    ready s → selects s ch c → k.toNat = j.num →
    let b := (s.chan c).st
    let x := s.opa.toInt
    let a := (s.cfg.hpf j).a.toInt
    let m := (s.cfg.hpf j).m.toInt
    let da := (s.cfg.dcf j.dcf).a.toInt
    let dm := (s.cfg.dcf j.dcf).m.toInt
    let b' := b.setHpf j (hpfNext (b.hpf j) x a m da dm)
    let out := w64 (hpfOut (b.hpf j) x a m)
    (hpfFits (b.hpf j) x a m da dm →
      exec (.hpf ch k) s = .next { s.setChan c { s.chan c with st := b', pend := .none } with res := out } ∧
      exec (.hpfC ch k) s =
        .next { s.setChan c { s.chan c with sh := b', tout := out, pend := .hpf j } with res := out }) ∧
    (0 < m → 0 < dm → ¬ hpfFits (b.hpf j) x a m da dm →
      exec (.hpf ch k) s = .next (s.raise .overflow 0) ∧ exec (.hpfC ch k) s = .next (s.raise .overflow 0)) ∧
    exec (.hpfU ch k) s = .next (
      if (s.chan c).pend = .hpf j then
        { s.setChan c { s.chan c with st := (s.chan c).sh, pend := .none } with res := (s.chan c).tout }
      else s.raise .noTrial ((s.chan c).pend.code.setWidth 16))

/-- SLF, SLF.C and SLF.U (R241 to R243, R219, R210): the coefficient is OPB, the multiplier MUX_ALPHA, the
correction DCF2's. -/
def Obligations.SlidingFilterCommands : Prop :=
  ∀ (s : State) (ch : BitVec 2) (c : Channel), ready s → selects s ch c →
    let b := (s.chan c).st
    let u := s.opa.toInt
    let a := s.opb.toInt
    let m := s.cfg.muxAlpha.toInt
    let da := s.cfg.dcf2.a.toInt
    let dm := s.cfg.dcf2.m.toInt
    let b' := b.setSlf (hpfNext b.slf u a m da dm)
    let out := w64 (hpfOut b.slf u a m)
    (hpfFits b.slf u a m da dm →
      exec (.slf ch) s = .next { s.setChan c { s.chan c with st := b', pend := .none } with res := out } ∧
      exec (.slfC ch) s =
        .next { s.setChan c { s.chan c with sh := b', tout := out, pend := .slf } with res := out }) ∧
    (0 < m → 0 < dm → ¬ hpfFits b.slf u a m da dm →
      exec (.slf ch) s = .next (s.raise .overflow 0) ∧ exec (.slfC ch) s = .next (s.raise .overflow 0)) ∧
    exec (.slfU ch) s = .next (
      if (s.chan c).pend = .slf then
        { s.setChan c { s.chan c with st := (s.chan c).sh, pend := .none } with res := (s.chan c).tout }
      else s.raise .noTrial ((s.chan c).pend.code.setWidth 16))

/-- R220 and R264: what each stage may change in the bank is its own. DCF instance k owns `DCFk_Y` and `DCFk_R`,
HPF instance h owns `HPFh_PI`, `HPFh_PO`, `DCFh_Y` and `DCFh_R`, the sliding filter `SLF_PI`, `SLF_PO`, `DCF2_Y` and
`DCF2_R`, the detector `ENV_S1`, `ENV_R1`, `ENV_S2`, `ENV_R2` and `CV`; and the detector ignores FETGND. -/
def Obligations.StagesOwnTheirFields : Prop :=
  (∀ (g : Cfg) (b b' : Bank) (k : DcfId) (x y : Int) (q : BankField), fDcf g b k x = .ok (b', y) →
    q ∉ (match k with
      | .k0 => [BankField.dcf0Y, .dcf0R]
      | .k1 => [.dcf1Y, .dcf1R]
      | .k2 => [.dcf2Y, .dcf2R]) → b'.read q = b.read q) ∧
  (∀ (g : Cfg) (b b' : Bank) (h : HpfId) (x y : Int) (q : BankField), fHpf g b h x = .ok (b', y) →
    q ∉ (match h with
      | .h0 => [BankField.hpf0PI, .hpf0PO, .dcf0Y, .dcf0R]
      | .h1 => [.hpf1PI, .hpf1PO, .dcf1Y, .dcf1R]) → b'.read q = b.read q) ∧
  (∀ (g : Cfg) (b b' : Bank) (u a y : Int) (q : BankField), fSlf g b u a = .ok (b', y) →
    q ∉ [BankField.slfPI, .slfPO, .dcf2Y, .dcf2R] → b'.read q = b.read q) ∧
  (∀ (g : Cfg) (tb : Tables) (b b' : Bank) (e y : Int) (q : BankField), envFun g tb b e = .ok (b', y) →
    q ∉ [BankField.envS1, .envR1, .envS2, .envR2, .cv] → b'.read q = b.read q) ∧
  ∀ (g : Cfg) (tb : Tables) (b : Bank) (e : Int) (f : Bool),
    envFun { g with fetgnd := f } tb b e = envFun g tb b e

/-! ## Envelope detector -/

/-- R261 and R262: the detector, from the interpolated table values: clamp, attenuate, two low-pass steps, and the
diode floor, which clears stage two's remainder where it raises the output. -/
def Obligations.EnvelopeFormula : Prop :=
  ∀ (g : Cfg) (tb : Tables) (b : Bank) (e att1 al1 al2 : Int),
    let lo := g.geomE1Att.v0.toInt
    let hi := lo + 975 * g.geomE1Att.q.toInt
    let ec := min (max e lo) hi
    let a1 := (ec * att1).tdiv g.muxE1Att.toInt
    let s1 := dcfY b.envS1.toInt b.envR1.toInt a1 al1 g.muxE1Alpha.toInt
    let r1 := dcfR b.envS1.toInt b.envR1.toInt a1 al1 g.muxE1Alpha.toInt
    let s2 := dcfY b.envS2.toInt b.envR2.toInt s1 al2 g.muxE2Alpha.toInt
    let r2 := dcfR b.envS2.toInt b.envR2.toInt s1 al2 g.muxE2Alpha.toInt
    let fl := s1 - g.vd.toInt
    fits (975 * g.geomE1Att.q.toInt) → fits hi → interp g tb .e1Att ec = .ok att1 →
    interp g tb .e1Alpha ec = .ok al1 → fits (ec * att1) → 0 < g.muxE1Att.toInt →
    dcfFits b.envS1.toInt b.envR1.toInt a1 al1 g.muxE1Alpha.toInt → interp g tb .e2Alpha s1 = .ok al2 →
    dcfFits b.envS2.toInt b.envR2.toInt s1 al2 g.muxE2Alpha.toInt → fits fl →
    envFun g tb b e = .ok (
      if s2 < fl then
        ({ b with envS1 := w64 s1, envR1 := w64 r1, envS2 := w64 fl, envR2 := 0, cv := w64 fl }, fl)
      else ({ b with envS1 := w64 s1, envR1 := w64 r1, envS2 := w64 s2, envR2 := w64 r2, cv := w64 s2 }, s2))

/-- ENV, ENV.C and ENV.U (44_envelope.md R265 to R267), where the detector has a value and where it overflows; in
every reachable state of a session (`State.Inv`) it does one of the two. -/
def Obligations.EnvelopeCommands : Prop :=
  ∀ (s : State) (ch : BitVec 2) (c : Channel), ready s → selects s ch c →
    (∀ b y, envFun s.cfg s.tables (s.chan c).st s.opa.toInt = .ok (b, y) →
      exec (.env ch) s = .next { s.setChan c { s.chan c with st := b, pend := .none } with res := w64 y } ∧
      exec (.envC ch) s =
        .next { s.setChan c { s.chan c with sh := b, tout := w64 y, pend := .env } with res := w64 y }) ∧
    (envFun s.cfg s.tables (s.chan c).st s.opa.toInt = .error (.raise .overflow 0) →
      exec (.env ch) s = .next (s.raise .overflow 0) ∧ exec (.envC ch) s = .next (s.raise .overflow 0)) ∧
    (s.Inv → (∃ b y, envFun s.cfg s.tables (s.chan c).st s.opa.toInt = .ok (b, y)) ∨
      envFun s.cfg s.tables (s.chan c).st s.opa.toInt = .error (.raise .overflow 0)) ∧
    exec (.envU ch) s = .next (
      if (s.chan c).pend = .env then
        { s.setChan c { s.chan c with st := (s.chan c).sh, pend := .none } with res := (s.chan c).tout }
      else s.raise .noTrial ((s.chan c).pend.code.setWidth 16))

/-! ## Side path -/

/-- SP, SP.C and SP.U (45_sidepath.md R290 to R292): SP and SP.C also write CLIPF; SP.U leaves it. In every reachable
state of a session (`State.Inv`) the side path has a value or overflows. -/
def Obligations.SidePathCommands : Prop :=
  ∀ (s : State) (ch : BitVec 2) (c : Channel), ready s → selects s ch c →
    (∀ b y f, spFun s.cfg s.tables (s.chan c).st s.opa.toInt = .ok (b, y, f) →
      exec (.sp ch) s = .next { s.setChan c { s.chan c with st := b, pend := .none } with
        res := w64 y, stat := { s.stat with clipf := f } } ∧
      exec (.spC ch) s = .next { s.setChan c { s.chan c with sh := b, tout := w64 y, pend := .sp } with
        res := w64 y, stat := { s.stat with clipf := f } }) ∧
    (spFun s.cfg s.tables (s.chan c).st s.opa.toInt = .error (.raise .overflow 0) →
      exec (.sp ch) s = .next (s.raise .overflow 0) ∧ exec (.spC ch) s = .next (s.raise .overflow 0)) ∧
    (s.Inv → (∃ b y f, spFun s.cfg s.tables (s.chan c).st s.opa.toInt = .ok (b, y, f)) ∨
      spFun s.cfg s.tables (s.chan c).st s.opa.toInt = .error (.raise .overflow 0)) ∧
    exec (.spU ch) s = .next (
      if (s.chan c).pend = .sp then
        { s.setChan c { s.chan c with st := (s.chan c).sh, pend := .none } with res := (s.chan c).tout }
      else s.raise .noTrial ((s.chan c).pend.code.setWidth 16))

/-- R281, R282, R284, R285 and R287: the side path whole. The input is scaled by SIDAMP_V and SIDAMP_M; then K passes
of n sliding steps run, (K, n) = (N, 1) with "upsample everything" and (1, N) without; the output is the last pass's
sum clamped to plus and minus CLIPLIM, and the flag says that it is on or beyond that limit. A repetition runs its
stage once for each count and keeps the last output. One pass is written out in each of the four variants, in the
order of its stages. -/
def Obligations.PassTopology : Prop :=
  (∀ (g : Cfg) (tb : Tables) (b : Bank) (x : Int), 0 < g.sidampM.toInt → 0 < g.cliplim.toInt →
    let n := g.upsEff.toNat
    let l := g.cliplim.toInt
    let u0 := (x * g.sidampV.toInt).tdiv g.sidampM.toInt
    let run := if g.upall then repeatStage (spPass g tb 1 u0) n b else repeatStage (spPass g tb n u0) 1 b
    (fits (x * g.sidampV.toInt) →
      (∀ b' sum, run = .ok (b', sum) → spFun g tb b x = .ok (
        if l ≤ sum then (b', l, true) else if sum ≤ -l then (b', -l, true) else (b', sum, false))) ∧
      ∀ e, run = .error e → spFun g tb b x = .error e) ∧
    (¬ fits (x * g.sidampV.toInt) → spFun g tb b x = .error (.raise .overflow 0))) ∧
  (∀ (f : Bank → Except Stop (Bank × Int)) (b : Bank), repeatStage f 1 b = f b ∧
    ∀ n, 1 ≤ n → repeatStage f (n + 1) b = do
      let (b1, _) ← f b
      repeatStage f n b1) ∧
  ∀ (g : Cfg) (tb : Tables) (n : Nat) (u0 : Int) (b : Bank),
    (g.flt = 1 → spPass g tb n u0 b = do
      let (b, u1) ← fHpf g b .h0 u0
      let v ← tableVoltage g b
      let att ← interp g tb .att v
      let alpha ← interp g tb .alpha v
      let oatt ← interp g tb .oatt v
      let tap ← fxmul u1 att g.muxAtt.toInt
      let (b, hs) ← repeatStage (fun b => fSlf g b tap alpha) n b
      let br1 ← fxmul hs oatt g.muxAtt.toInt
      let sum ← chk (br1 + tap)
      let b ← spEnvelope g tb b sum
      .ok (b, sum)) ∧
    (g.flt = 2 → spPass g tb n u0 b = do
      let v ← tableVoltage g b
      let att ← interp g tb .att v
      let alpha ← interp g tb .alpha v
      let oatt ← interp g tb .oatt v
      let tap ← fxmul u0 att g.muxAtt.toInt
      let (b, hs) ← repeatStage (fun b => fSlf g b tap alpha) n b
      let br1 ← fxmul hs oatt g.muxAtt.toInt
      let (b, br2) ← fHpf g b .h1 tap
      let sum ← chk (br1 + br2)
      let b ← spEnvelope g tb b sum
      .ok (b, sum)) ∧
    (g.flt = 3 → spPass g tb n u0 b = do
      let (b, u1) ← fHpf g b .h0 u0
      let v ← tableVoltage g b
      let att ← interp g tb .att v
      let alpha ← interp g tb .alpha v
      let oatt ← interp g tb .oatt v
      let (b, hs) ← repeatStage (fun b => fSlf g b u1 alpha) n b
      let df ← chk (u1 - hs)
      let tap ← fxmul df att g.muxAtt.toInt
      let br1 ← fxmul hs oatt g.muxAtt.toInt
      let sum ← chk (br1 + tap)
      let b ← spEnvelope g tb b sum
      .ok (b, sum)) ∧
    (g.flt = 4 → spPass g tb n u0 b = do
      let v ← tableVoltage g b
      let att ← interp g tb .att v
      let alpha ← interp g tb .alpha v
      let oatt ← interp g tb .oatt v
      let (b, hs) ← repeatStage (fun b => fSlf g b u0 alpha) n b
      let df ← chk (u0 - hs)
      let tap ← fxmul df att g.muxAtt.toInt
      let br1 ← fxmul hs oatt g.muxAtt.toInt
      let (b, br2) ← fHpf g b .h1 tap
      let sum ← chk (br1 + br2)
      let b ← spEnvelope g tb b sum
      .ok (b, sum))

/-- R406, and a completion of SP and SP.C: with the signal path's fields zero, a side path of an input whose gain or
whose sample is 0 gives 0, flag 0, and leaves those fields 0, whatever the variant, the factor and the tables. With
the FET clamped to ground and a table value at voltage 0, SP and SP.C complete and leave the bank as it was. -/
def Obligations.SilenceStaysSilent : Prop :=
  (∀ (g : Cfg) (tb : Tables) (b b' : Bank) (x y : Int) (f : Bool),
    (g.sidampV = 0 ∨ x = 0) → 0 < g.cliplim.toInt →
    (∀ q, envFields q = false → b.read q = 0) → spFun g tb b x = .ok (b', y, f) →
    y = 0 ∧ f = false ∧ ∀ q, envFields q = false → b'.read q = 0) ∧
  ∀ (s : State) (ch : BitVec 2) (c : Channel), s.Inv → ready s → selects s ch c →
    (s.cfg.sidampV = 0 ∨ s.opa = 0) → s.cfg.fetgnd = true →
    (∀ q, envFields q = false → (s.chan c).st.read q = 0) →
    (∀ t ∈ [TableId.att, .alpha, .oatt], ∃ v, interp s.cfg s.tables t 0 = .ok v) →
    exec (.sp ch) s = .next { s.setChan c { s.chan c with pend := .none } with
      res := 0, stat := { s.stat with clipf := false } } ∧
    exec (.spC ch) s = .next { s.setChan c { s.chan c with sh := (s.chan c).st, tout := 0, pend := .sp } with
      res := 0, stat := { s.stat with clipf := false } }

/-- R286: while the FET is clamped to ground, the tables are read at 0 and the detector's fields and CV keep their
values through the whole side path; otherwise the voltage is FETSVT + CV, checked (R283), the detector's input is the
scaled sum of the pass, and its result is the new CV. -/
def Obligations.FetClamp : Prop :=
  (∀ (g : Cfg) (b : Bank), g.fetgnd = true → tableVoltage g b = .ok 0) ∧
  (∀ (g : Cfg) (b : Bank), g.fetgnd = false → tableVoltage g b =
    if fits (g.fetsvt.toInt + b.cv.toInt) then .ok (g.fetsvt.toInt + b.cv.toInt)
    else .error (.raise .overflow 0)) ∧
  (∀ (g : Cfg) (tb : Tables) (b b' : Bank) (x y : Int) (f : Bool), g.fetgnd = true →
    spFun g tb b x = .ok (b', y, f) → ∀ q, envFields q = true → b'.read q = b.read q) ∧
  ∀ (g : Cfg) (tb : Tables) (n : Nat) (u0 sum : Int) (b b' : Bank), g.fetgnd = false →
    spPass g tb n u0 b = .ok (b', sum) →
    ∃ b3 y, (∀ q, envFields q = true → b3.read q = b.read q) ∧
      envFun g tb b3 ((sum * g.envgV.toInt).tdiv g.envgM.toInt) = .ok (b', y) ∧ b'.cv = w64 y

/-- R289: the bank fields a side path may change: SLF's and DCF2's always, HPF0's and DCF0's only for FLT 1 and 3,
HPF1's and DCF1's only for FLT 2 and 4, the detector's and CV only when FETGND = 0. -/
def Obligations.SidePathFields : Prop :=
  ∀ (g : Cfg) (tb : Tables) (b b' : Bank) (x y : Int) (f : Bool), spFun g tb b x = .ok (b', y, f) →
    (g.flt ≠ 1 → g.flt ≠ 3 → b'.hpf .h0 = b.hpf .h0) ∧
    (g.flt ≠ 2 → g.flt ≠ 4 → b'.hpf .h1 = b.hpf .h1) ∧
    (g.fetgnd = true → b'.envS1 = b.envS1 ∧ b'.envR1 = b.envR1 ∧ b'.envS2 = b.envS2 ∧ b'.envR2 = b.envR2 ∧
      b'.cv = b.cv)

/-- R281 and R288: with "upsample everything", N + 1 passes on one sample leave the bank that N passes followed by
one more sample of the same input leave, and give that last sample's output. -/
def Obligations.UpsampleEverythingRepeatsPasses : Prop :=
  ∀ (g : Cfg) (tb : Tables) (b : Bank) (x : Int) (n : Nat), 1 ≤ n → n + 1 < 2 ^ 64 → g.upall = true →
    spFun { g with upsEff := BitVec.ofNat 64 (n + 1) } tb b x =
      (do
        let (b1, _, _) ← spFun { g with upsEff := BitVec.ofNat 64 n } tb b x
        spFun { g with upsEff := 1 } tb b1 x)

/-! ## Whole-machine rules -/

/-- R55: check isolation. A check never writes a committed bank, nor anything but SH, PEND, TOUT, RES, CLIPF (SP.C
only) and, where it faults, the fault record. -/
def Obligations.CheckIsolation : Prop :=
  ∀ (i : Instr) (s t : State), isCheck i = true → exec i s = .next t →
    (∀ c, (t.chan c).st = (s.chan c).st) ∧
    t = { s with chan1 := t.chan1, chan2 := t.chan2, res := t.res, stat := t.stat } ∧
    t.stat.started = s.stat.started ∧ ((∀ ch, i ≠ .spC ch) → t.stat.clipf = s.stat.clipf)

/-- R213: a check leaves the committed bank of both channels unchanged, and a check followed by its matching update
leaves ST and RES as the commit of the same operands would, and differs from it only in SH and TOUT of its channel. -/
def Obligations.CheckThenUpdateIsCommit : Prop :=
  ∀ (s t u v : State) (commit check update : Instr) (c : Channel),
    (∃ ch k, selects s ch c ∧
      ((commit, check, update) ∈ [(Instr.slf ch, Instr.slfC ch, Instr.slfU ch), (.env ch, .envC ch, .envU ch),
        (.sp ch, .spC ch, .spU ch), (.dcf ch k, .dcfC ch k, .dcfU ch k), (.hpf ch k, .hpfC ch k, .hpfU ch k)])) →
    exec check s = .next t → t.stat.fault = false → exec update t = .next u → exec commit s = .next v →
    (∀ d, (t.chan d).st = (s.chan d).st) ∧
    u = v.setChan c { v.chan c with sh := (u.chan c).sh, tout := (u.chan c).tout }

/-- R48: channels never interact. A command that names one channel leaves what the block holds for the other
unchanged. -/
def Obligations.ChannelsDoNotInteract : Prop :=
  ∀ (i : Instr) (s t : State) (ch : BitVec 2) (c : Channel), chOf i = some ch → ch.toNat ≠ c.num →
    exec i s = .next t → t.chan c = s.chan c

/-- R31, R32, R176, R46, R35 and R83: who writes what. OPA is written only by RTOA and OPB only by RTOB, RES only by
the commands the table of R130 marks, CLIPF only by CLIP, SP, SP.C, START and STOP, STARTED only by START and STOP;
and while a session runs and stays running, no command changes the tables or a session register. The clauses about
`bus` and `rdata` speak of the model's own fields, which are no state of the block (DESIGN CHOICE, log entries 1
and 2). -/
def Obligations.RegisterWriters : Prop :=
  ∀ (i : Instr) (s t : State), exec i s = .next t →
    (i ≠ .rtoa → t.opa = s.opa) ∧ (i ≠ .rtob → t.opb = s.opb) ∧ (writesRes i = false → t.res = s.res) ∧
    (writesClip i = false → t.stat.clipf = s.stat.clipf) ∧
    (i ≠ .start → i ≠ .stop → t.stat.started = s.stat.started) ∧ t.bus = s.bus ∧ t.rdata = s.rdata ∧
    (s.stat.started = true → i ≠ .stop →
      t.tables = s.tables ∧ ∀ r : CfgReg, r.cls = .session → t.cfg.read r = s.cfg.read r)

/-- Every step keeps the invariant: canonical tables, a legal session, blank state without one, a legal fault
record, pending trials that differ from the committed bank only in their stage's fields, and remainders below
their multipliers. -/
def Obligations.StepKeepsInvariant : Prop := ∀ s t : State, s.Inv → step s = .next t → t.Inv

/-- The invariant holds at power-on. -/
def Obligations.ResetHasInvariant : Prop := State.reset.Inv

/-- From a state with the invariant no step is stuck, and every command answers a next state: none of the model's
faults is a behaviour of the block (R362, R431; log entry 4). -/
def Obligations.NeverStuck : Prop :=
  (∀ (i : Instr) (s : State), s.Inv → ∃ t, exec i s = .next t) ∧ ∀ s : State, s.Inv → safeStep s

/-! ## Host protocol -/

/-- R321: the decoder search ends within the rule's number of trials: DECODE never runs out of its bound, which is
at least 2 (log entry 20). -/
def Obligations.DecodeTerminates : Prop :=
  ∀ (P : HostParams) (bits : Nat) (cliplim : Int) (c : Channel) (r : Int) (w : HostWorld),
    ((decodeSample P bits cliplim c r).run w).1 ≠ .error .noFuel

/-- R346: the output conversion. The scaled value where it is in the range of the format, the nearer extreme where
it is outside, 8-bit output re-centred by 128; so it is always in the range of the format. -/
def Obligations.OutputSaturates : Prop :=
  ∀ (P : HostParams) (v : Int),
    (∀ (bits : Nat) (scale : ℕ+) (lo hi c : Int),
      (bits, scale, lo, hi, c) ∈ [(8, P.pScale8, -128, 127, 128), (16, P.pScale16, -32768, 32767, 0),
        (24, P.pScale24, -8388608, 8388607, 0)] →
      let q := v.tdiv scale
      (lo ≤ q → q ≤ hi → outScale P bits v = q + c) ∧ (q < lo → outScale P bits v = lo + c) ∧
        (hi < q → outScale P bits v = hi + c)) ∧
    (0 ≤ outScale P 8 v ∧ outScale P 8 v ≤ 255) ∧
    (-32768 ≤ outScale P 16 v ∧ outScale P 16 v ≤ 32767) ∧
    (-8388608 ≤ outScale P 24 v ∧ outScale P 24 v ≤ 8388607)

/-- R333 and R334: calibration is idempotent. Once the constants of a key were obtained, from the cache or by
calibration, and the line of a calibration was written, the next request of that key gives the same constants, bit
for bit, with no access to the block and no change of the cache. A binary64 value that is finite reads back from its
17 digits as itself. The form of a line beyond R333's words is the model's reading (DEDUCED, log entry 22). -/
def Obligations.CalibrationIdempotent : Prop :=
  (∀ b : BitVec 64, f64Value b ≠ none → readF64 (f64Text b) = some b) ∧
  ∀ (P : HostParams) (c : SessionConfig) (fuel fuel' : Nat) (w w1 w2 : HostWorld) (k : Calibration),
    (obtainCalibration P c fuel).run w = (.ok k, w1) → w.cacheWrites = true → w2.cache = w1.cache →
    (obtainCalibration P c fuel').run w2 = (.ok k, w2)

/-- R313, R323, R348 and 60_exceptions.md R368: a call over frames returns all of them, or the first ones and the
string of the failure; after a failure the host has issued START, so that the block is ready for further calls, its
banks zero. That START follows at once, and also a failure of the host's own arithmetic, is the model's choice
(DESIGN CHOICE, log entry 28). -/
def Obligations.FailedCallRestarts : Prop :=
  ∀ (P : HostParams) (bits : Nat) (cliplim : Int) (frames : List (List Int)) (w w' : HostWorld) (r : CallResult),
    w.block.Inv → ready w.block →
    (encodeCall P bits frames).run w = (r, w') ∨ (decodeCall P bits cliplim frames).run w = (r, w') →
    w'.block.Inv ∧ ready w'.block ∧
      (r.error = none → r.frames.length = frames.length) ∧
      (r.error ≠ none → r.frames.length < frames.length ∧ w'.block.chan1 = Chan.zero ∧ w'.block.chan2 = Chan.zero)
end

