-- ==== Sys2Proof/Laws/Arith.lean ====
section
/-! SUPPORT. Checked arithmetic (00_scope.md R11, R14 to R17): what `chk`, `tdiv`, `fxmul`, `clamp` and the 64-bit
encoding of an int64 value do, each said once. -/

namespace Sys2Proof.Machine

/-! ## Sequencing -/

theorem except_bind_eq_ok {ε α β : Type} {x : Except ε α} {f : α → Except ε β} {b : β} :
    (x >>= f) = .ok b ↔ ∃ a, x = .ok a ∧ f a = .ok b := by
  cases x <;> simp [bind, Except.bind]

theorem except_bind_eq_error {ε α β : Type} {x : Except ε α} {f : α → Except ε β} {e : ε} :
    (x >>= f) = .error e ↔ x = .error e ∨ ∃ a, x = .ok a ∧ f a = .error e := by
  cases x <;> simp [bind, Except.bind]

@[simp] theorem except_ok_bind {ε α β : Type} (a : α) (f : α → Except ε β) :
    ((Except.ok a : Except ε α) >>= f) = f a := rfl

@[simp] theorem except_error_bind {ε α β : Type} (e : ε) (f : α → Except ε β) :
    ((Except.error e : Except ε α) >>= f) = .error e := rfl

/-! ## int64 -/

theorem fits_toInt (x : Word) : fits x.toInt := by
  have h1 := BitVec.le_toInt x
  have h2 := BitVec.toInt_lt (x := x)
  constructor <;> omega

theorem w64_toInt {v : Int} (h : fits v) : (w64 v).toInt = v := by
  obtain ⟨h1, h2⟩ := h
  rw [w64, BitVec.toInt_ofInt, Int.bmod_eq_of_le (by omega) (by omega)]

@[simp] theorem toInt_w64 (x : Word) : w64 x.toInt = x := by simp [w64]

@[simp] theorem w64_zero : w64 0 = 0 := rfl

/-! ## `chk`, R14 -/

theorem chk_eq (v : Int) : chk v = if fits v then .ok v else .error (.raise .overflow 0) := rfl

theorem chk_of_fits {v : Int} (h : fits v) : chk v = .ok v := by rw [chk_eq, if_pos h]

theorem chk_of_not_fits {v : Int} (h : ¬ fits v) : chk v = .error (.raise .overflow 0) := by rw [chk_eq, if_neg h]

theorem chk_eq_ok_iff {v w : Int} : chk v = .ok w ↔ fits v ∧ w = v := by
  by_cases hv : fits v
  · rw [chk_of_fits hv]
    exact ⟨fun h => ⟨hv, (Except.ok.inj h).symm⟩, fun h => by rw [h.2]⟩
  · rw [chk_of_not_fits hv]
    exact ⟨fun h => (nomatch h), fun h => absurd h.1 hv⟩

theorem chk_eq_error_iff {v : Int} {e : Stop} : chk v = .error e ↔ ¬ fits v ∧ e = .raise .overflow 0 := by
  by_cases hv : fits v
  · rw [chk_of_fits hv]
    exact ⟨fun h => (nomatch h), fun h => absurd hv h.1⟩
  · rw [chk_of_not_fits hv]
    exact ⟨fun h => ⟨hv, (Except.error.inj h).symm⟩, fun h => by rw [h.2]⟩

/-! ## `tdiv`, R15 -/

/-- A quotient is no larger than its dividend. -/
theorem abs_tdiv_le (a b : Int) : |a.tdiv b| ≤ |a| := by
  rw [Int.abs_eq_natAbs, Int.abs_eq_natAbs, Int.natAbs_tdiv]
  exact_mod_cast Nat.div_le_self _ _

theorem fits_of_abs_le {v w : Int} (hw : fits w) (h : |v| ≤ |w|) (hv : 0 ≤ v * w) : fits v := by
  obtain ⟨h1, h2⟩ := hw
  rcases le_total 0 w with hw | hw
  · rw [abs_of_nonneg hw] at h
    have := abs_le.mp h
    rcases eq_or_lt_of_le hw with rfl | hw'
    · have : v = 0 := by have := abs_nonneg v; omega
      subst this; constructor <;> omega
    · have : 0 ≤ v := by by_contra hc; nlinarith
      constructor <;> omega
  · rw [abs_of_nonpos hw] at h
    have := abs_le.mp h
    rcases eq_or_lt_of_le hw with rfl | hw'
    · have : v = 0 := by have := abs_nonneg v; omega
      subst this; constructor <;> omega
    · have : v ≤ 0 := by by_contra hc; nlinarith
      constructor <;> omega

/-- A quotient by a positive divisor fits where its dividend does. -/
theorem fits_tdiv {a b : Int} (hb : 0 < b) (ha : fits a) : fits (a.tdiv b) := by
  refine fits_of_abs_le ha (abs_tdiv_le a b) ?_
  rcases le_total 0 a with h | h
  · exact mul_nonneg (Int.tdiv_nonneg h hb.le) h
  · obtain ⟨c, rfl⟩ : ∃ c, a = -c := ⟨-a, by omega⟩
    rw [Int.neg_tdiv, neg_mul_neg]
    exact mul_nonneg (Int.tdiv_nonneg (by omega) hb.le) (by omega)

theorem tdiv_of_pos {a b : Int} (hb : 0 < b) (ha : fits a) : tdiv a b = .ok (a.tdiv b) := by
  rw [tdiv, if_neg (by omega), chk_of_fits (fits_tdiv hb ha)]

theorem tdiv_eq_ok {a b c : Int} (h : tdiv a b = .ok c) : b ≠ 0 ∧ fits c ∧ c = a.tdiv b := by
  rw [tdiv] at h
  split at h
  · simp at h
  · obtain ⟨h1, rfl⟩ := chk_eq_ok_iff.mp h
    exact ⟨‹_›, h1, rfl⟩

/-! ## `fxmul`, R16 -/

theorem fxmul_of_fits {x v m : Int} (hm : 0 < m) (h : fits (x * v)) : fxmul x v m = .ok ((x * v).tdiv m) := by
  simp [fxmul, chk_of_fits h, tdiv_of_pos hm h]

theorem fxmul_of_not_fits {x v m : Int} (h : ¬ fits (x * v)) : fxmul x v m = .error (.raise .overflow 0) := by
  simp [fxmul, chk_of_not_fits h]

theorem fxmul_eq_ok {x v m y : Int} (h : fxmul x v m = .ok y) :
    m ≠ 0 ∧ fits (x * v) ∧ fits y ∧ y = (x * v).tdiv m := by
  obtain ⟨p, hp, hd⟩ := except_bind_eq_ok.mp h
  obtain ⟨h1, rfl⟩ := chk_eq_ok_iff.mp hp
  obtain ⟨h2, h3, h4⟩ := tdiv_eq_ok hd
  exact ⟨h2, h1, h3, h4⟩

/-! ## `clamp`, R17 -/

theorem clamp_mem {x lo hi : Int} (h : lo ≤ hi) : lo ≤ clamp x lo hi ∧ clamp x lo hi ≤ hi := by
  unfold clamp; omega

theorem clamp_of_mem {x lo hi : Int} (h1 : lo ≤ x) (h2 : x ≤ hi) : clamp x lo hi = x := by
  unfold clamp; omega

/-! ## No operation of checked arithmetic is stuck but a division by 0 -/

/-- Every outcome is a value or an OVERFLOW of the block. -/
def NotStuck {α : Type} (r : Except Stop α) : Prop := ∀ f, r ≠ .error (.stuck f)

theorem notStuck_ok {α : Type} (a : α) : NotStuck (.ok a) := by intro f h; cases h

theorem notStuck_raise {α : Type} (c : Cause) (d : BitVec 16) : NotStuck (.error (.raise c d) : Except Stop α) := by
  intro f h; cases h

theorem notStuck_bind {α β : Type} {x : Except Stop α} {g : α → Except Stop β} (hx : NotStuck x)
    (hg : ∀ a, x = .ok a → NotStuck (g a)) : NotStuck (x >>= g) := by
  intro f h
  rcases except_bind_eq_error.mp h with h | ⟨a, ha, h⟩
  · exact hx f h
  · exact hg a ha f h

theorem notStuck_chk (v : Int) : NotStuck (chk v) := by
  intro f h
  cases (chk_eq_error_iff.mp h).2

theorem notStuck_tdiv {a b : Int} (hb : b ≠ 0) : NotStuck (tdiv a b) := by
  rw [tdiv, if_neg hb]
  exact notStuck_chk _

theorem notStuck_fxmul {x v m : Int} (hm : m ≠ 0) : NotStuck (fxmul x v m) :=
  notStuck_bind (notStuck_chk _) fun _ _ => notStuck_tdiv hm

end Sys2Proof.Machine
end

