-- ==== Sys2Proof/Laws/State.lean ====
section
/-! SUPPORT. The state's updates: for each update, what each field reads after it. -/

namespace Sys2Proof.Machine

/-! ## `State.setChan` -/

@[simp] theorem setChan_opa (s : State) (c : Channel) (x : Chan) :
    (s.setChan c x).opa = s.opa := by cases c <;> rfl
@[simp] theorem setChan_opb (s : State) (c : Channel) (x : Chan) :
    (s.setChan c x).opb = s.opb := by cases c <;> rfl
@[simp] theorem setChan_res (s : State) (c : Channel) (x : Chan) :
    (s.setChan c x).res = s.res := by cases c <;> rfl
@[simp] theorem setChan_stat (s : State) (c : Channel) (x : Chan) :
    (s.setChan c x).stat = s.stat := by cases c <;> rfl
@[simp] theorem setChan_cfg (s : State) (c : Channel) (x : Chan) :
    (s.setChan c x).cfg = s.cfg := by cases c <;> rfl
@[simp] theorem setChan_tables (s : State) (c : Channel) (x : Chan) :
    (s.setChan c x).tables = s.tables := by cases c <;> rfl
@[simp] theorem setChan_bus (s : State) (c : Channel) (x : Chan) :
    (s.setChan c x).bus = s.bus := by cases c <;> rfl
@[simp] theorem setChan_rdata (s : State) (c : Channel) (x : Chan) :
    (s.setChan c x).rdata = s.rdata := by cases c <;> rfl
@[simp] theorem setChan_chan_same (s : State) (c : Channel) (x : Chan) : (s.setChan c x).chan c = x := by
  cases c <;> rfl

theorem setChan_chan_other (s : State) {c d : Channel} (x : Chan) (h : d ≠ c) :
    (s.setChan c x).chan d = s.chan d := by
  cases c <;> cases d <;> first | rfl | exact absurd rfl h

@[simp] theorem setChan_self (s : State) (c : Channel) : s.setChan c (s.chan c) = s := by
  cases c <;> rfl

@[simp] theorem setChan_setChan (s : State) (c : Channel) (x y : Chan) :
    (s.setChan c x).setChan c y = s.setChan c y := by
  cases c <;> rfl

/-- Two states agree when their fields and both channels do. -/
theorem state_ext_chan {s t : State} (h1 : s.opa = t.opa) (h2 : s.opb = t.opb) (h3 : s.res = t.res)
    (h4 : s.stat = t.stat) (h5 : s.cfg = t.cfg) (h6 : s.tables = t.tables) (h7 : s.bus = t.bus)
    (h8 : s.rdata = t.rdata) (hc : ∀ c, s.chan c = t.chan c) : s = t := by
  have e1 : s.chan1 = t.chan1 := hc .ch1
  have e2 : s.chan2 = t.chan2 := hc .ch2
  cases s
  cases t
  simp_all

/-! ## Taking a fault: `State.raise` and `State.raiseStart` -/

@[simp] theorem raise_opa (s : State) (c : Cause) (d : BitVec 16) :
    (s.raise c d).opa = s.opa := by
  unfold State.raise; split <;> rfl
@[simp] theorem raise_opb (s : State) (c : Cause) (d : BitVec 16) :
    (s.raise c d).opb = s.opb := by
  unfold State.raise; split <;> rfl
@[simp] theorem raise_res (s : State) (c : Cause) (d : BitVec 16) :
    (s.raise c d).res = s.res := by
  unfold State.raise; split <;> rfl
@[simp] theorem raise_cfg (s : State) (c : Cause) (d : BitVec 16) :
    (s.raise c d).cfg = s.cfg := by
  unfold State.raise; split <;> rfl
@[simp] theorem raise_tables (s : State) (c : Cause) (d : BitVec 16) :
    (s.raise c d).tables = s.tables := by
  unfold State.raise; split <;> rfl
@[simp] theorem raise_chan1 (s : State) (c : Cause) (d : BitVec 16) :
    (s.raise c d).chan1 = s.chan1 := by
  unfold State.raise; split <;> rfl
@[simp] theorem raise_chan2 (s : State) (c : Cause) (d : BitVec 16) :
    (s.raise c d).chan2 = s.chan2 := by
  unfold State.raise; split <;> rfl
@[simp] theorem raise_bus (s : State) (c : Cause) (d : BitVec 16) :
    (s.raise c d).bus = s.bus := by
  unfold State.raise; split <;> rfl
@[simp] theorem raise_rdata (s : State) (c : Cause) (d : BitVec 16) :
    (s.raise c d).rdata = s.rdata := by
  unfold State.raise; split <;> rfl
@[simp] theorem raise_chan (s : State) (c : Cause) (d : BitVec 16) (k : Channel) :
    (s.raise c d).chan k = s.chan k := by
  cases k <;> simp [State.chan]
@[simp] theorem raise_started (s : State) (c : Cause) (d : BitVec 16) :
    (s.raise c d).stat.started = s.stat.started := by
  unfold State.raise; split <;> rfl
@[simp] theorem raise_clipf (s : State) (c : Cause) (d : BitVec 16) :
    (s.raise c d).stat.clipf = s.stat.clipf := by
  unfold State.raise; split <;> rfl
@[simp] theorem raise_fault (s : State) (c : Cause) (d : BitVec 16) :
    (s.raise c d).stat.fault = true := by
  unfold State.raise; split <;> simp_all [Stat.record]
@[simp] theorem raiseStart_opa (s : State) (c : Cause) (d : BitVec 16) :
    (s.raiseStart c d).opa = s.opa := rfl
@[simp] theorem raiseStart_opb (s : State) (c : Cause) (d : BitVec 16) :
    (s.raiseStart c d).opb = s.opb := rfl
@[simp] theorem raiseStart_res (s : State) (c : Cause) (d : BitVec 16) :
    (s.raiseStart c d).res = s.res := rfl
@[simp] theorem raiseStart_cfg (s : State) (c : Cause) (d : BitVec 16) :
    (s.raiseStart c d).cfg = s.cfg := rfl
@[simp] theorem raiseStart_tables (s : State) (c : Cause) (d : BitVec 16) :
    (s.raiseStart c d).tables = s.tables := rfl
@[simp] theorem raiseStart_chan1 (s : State) (c : Cause) (d : BitVec 16) :
    (s.raiseStart c d).chan1 = s.chan1 := rfl
@[simp] theorem raiseStart_chan2 (s : State) (c : Cause) (d : BitVec 16) :
    (s.raiseStart c d).chan2 = s.chan2 := rfl
@[simp] theorem raiseStart_bus (s : State) (c : Cause) (d : BitVec 16) :
    (s.raiseStart c d).bus = s.bus := rfl
@[simp] theorem raiseStart_rdata (s : State) (c : Cause) (d : BitVec 16) :
    (s.raiseStart c d).rdata = s.rdata := rfl
@[simp] theorem raiseStart_chan (s : State) (c : Cause) (d : BitVec 16) (k : Channel) :
    (s.raiseStart c d).chan k = s.chan k := by
  cases k <;> simp [State.chan]
@[simp] theorem raiseStart_started (s : State) (c : Cause) (d : BitVec 16) :
    (s.raiseStart c d).stat.started = s.stat.started := rfl
@[simp] theorem raiseStart_clipf (s : State) (c : Cause) (d : BitVec 16) :
    (s.raiseStart c d).stat.clipf = s.stat.clipf := rfl
@[simp] theorem raiseStart_fault (s : State) (c : Cause) (d : BitVec 16) :
    (s.raiseStart c d).stat.fault = true := rfl
/-- With no fault recorded, taking one writes the record (R366). -/
theorem raise_of_no_fault {s : State} (h : s.stat.fault = false) (c : Cause) (d : BitVec 16) :
    s.raise c d = { s with stat := { s.stat with fault := true, fcause := c.code, fdetail := d } } := by
  rw [State.raise, h]
  rfl

/-- With a fault recorded, taking another changes nothing (R367). -/
theorem raise_of_fault {s : State} (h : s.stat.fault = true) (c : Cause) (d : BitVec 16) : s.raise c d = s := by
  rw [State.raise, h]
  rfl

/-! ## `State.setClip` -/

@[simp] theorem setClip_opa (s : State) (f : Bool) :
    (s.setClip f).opa = s.opa := rfl
@[simp] theorem setClip_opb (s : State) (f : Bool) :
    (s.setClip f).opb = s.opb := rfl
@[simp] theorem setClip_res (s : State) (f : Bool) :
    (s.setClip f).res = s.res := rfl
@[simp] theorem setClip_cfg (s : State) (f : Bool) :
    (s.setClip f).cfg = s.cfg := rfl
@[simp] theorem setClip_tables (s : State) (f : Bool) :
    (s.setClip f).tables = s.tables := rfl
@[simp] theorem setClip_chan1 (s : State) (f : Bool) :
    (s.setClip f).chan1 = s.chan1 := rfl
@[simp] theorem setClip_chan2 (s : State) (f : Bool) :
    (s.setClip f).chan2 = s.chan2 := rfl
@[simp] theorem setClip_bus (s : State) (f : Bool) :
    (s.setClip f).bus = s.bus := rfl
@[simp] theorem setClip_rdata (s : State) (f : Bool) :
    (s.setClip f).rdata = s.rdata := rfl
@[simp] theorem setClip_stat (s : State) (f : Bool) :
    (s.setClip f).stat = { s.stat with clipf := f } := rfl
@[simp] theorem setClip_chan (s : State) (f : Bool) (k : Channel) :
    (s.setClip f).chan k = s.chan k := by
  cases k <;> rfl

/-! ## `State.commit` -/

@[simp] theorem commit_opa (s : State) (c : Channel) (b : Bank) (y : Int) :
    (s.commit c b y).opa = s.opa := by
  cases c <;> rfl
@[simp] theorem commit_opb (s : State) (c : Channel) (b : Bank) (y : Int) :
    (s.commit c b y).opb = s.opb := by
  cases c <;> rfl
@[simp] theorem commit_stat (s : State) (c : Channel) (b : Bank) (y : Int) :
    (s.commit c b y).stat = s.stat := by
  cases c <;> rfl
@[simp] theorem commit_cfg (s : State) (c : Channel) (b : Bank) (y : Int) :
    (s.commit c b y).cfg = s.cfg := by
  cases c <;> rfl
@[simp] theorem commit_tables (s : State) (c : Channel) (b : Bank) (y : Int) :
    (s.commit c b y).tables = s.tables := by
  cases c <;> rfl
@[simp] theorem commit_bus (s : State) (c : Channel) (b : Bank) (y : Int) :
    (s.commit c b y).bus = s.bus := by
  cases c <;> rfl
@[simp] theorem commit_rdata (s : State) (c : Channel) (b : Bank) (y : Int) :
    (s.commit c b y).rdata = s.rdata := by
  cases c <;> rfl
@[simp] theorem commit_res (s : State) (c : Channel) (b : Bank) (y : Int) :
    (s.commit c b y).res = w64 y := rfl
@[simp] theorem commit_chan_same (s : State) (c : Channel) (b : Bank) (y : Int) :
    (s.commit c b y).chan c = { s.chan c with st := b, pend := .none } := by
  cases c <;> rfl
theorem commit_chan_other (s : State) {c d : Channel} (b : Bank) (y : Int) (h : d ≠ c) :
    (s.commit c b y).chan d = s.chan d := by
  cases c <;> cases d <;> first | rfl | exact absurd rfl h


/-! ## `State.check` -/

@[simp] theorem check_opa (s : State) (c : Channel) (p : Pend) (b : Bank) (y : Int) :
    (s.check c p b y).opa = s.opa := by
  cases c <;> rfl
@[simp] theorem check_opb (s : State) (c : Channel) (p : Pend) (b : Bank) (y : Int) :
    (s.check c p b y).opb = s.opb := by
  cases c <;> rfl
@[simp] theorem check_stat (s : State) (c : Channel) (p : Pend) (b : Bank) (y : Int) :
    (s.check c p b y).stat = s.stat := by
  cases c <;> rfl
@[simp] theorem check_cfg (s : State) (c : Channel) (p : Pend) (b : Bank) (y : Int) :
    (s.check c p b y).cfg = s.cfg := by
  cases c <;> rfl
@[simp] theorem check_tables (s : State) (c : Channel) (p : Pend) (b : Bank) (y : Int) :
    (s.check c p b y).tables = s.tables := by
  cases c <;> rfl
@[simp] theorem check_bus (s : State) (c : Channel) (p : Pend) (b : Bank) (y : Int) :
    (s.check c p b y).bus = s.bus := by
  cases c <;> rfl
@[simp] theorem check_rdata (s : State) (c : Channel) (p : Pend) (b : Bank) (y : Int) :
    (s.check c p b y).rdata = s.rdata := by
  cases c <;> rfl
@[simp] theorem check_res (s : State) (c : Channel) (p : Pend) (b : Bank) (y : Int) :
    (s.check c p b y).res = w64 y := rfl
@[simp] theorem check_chan_same (s : State) (c : Channel) (p : Pend) (b : Bank) (y : Int) :
    (s.check c p b y).chan c = { s.chan c with sh := b, tout := w64 y, pend := p } := by
  cases c <;> rfl
theorem check_chan_other (s : State) {c d : Channel} (p : Pend) (b : Bank) (y : Int) (h : d ≠ c) :
    (s.check c p b y).chan d = s.chan d := by
  cases c <;> cases d <;> first | rfl | exact absurd rfl h


/-! ## `State.promote` -/

@[simp] theorem promote_opa (s : State) (c : Channel) :
    (s.promote c).opa = s.opa := by
  cases c <;> rfl
@[simp] theorem promote_opb (s : State) (c : Channel) :
    (s.promote c).opb = s.opb := by
  cases c <;> rfl
@[simp] theorem promote_stat (s : State) (c : Channel) :
    (s.promote c).stat = s.stat := by
  cases c <;> rfl
@[simp] theorem promote_cfg (s : State) (c : Channel) :
    (s.promote c).cfg = s.cfg := by
  cases c <;> rfl
@[simp] theorem promote_tables (s : State) (c : Channel) :
    (s.promote c).tables = s.tables := by
  cases c <;> rfl
@[simp] theorem promote_bus (s : State) (c : Channel) :
    (s.promote c).bus = s.bus := by
  cases c <;> rfl
@[simp] theorem promote_rdata (s : State) (c : Channel) :
    (s.promote c).rdata = s.rdata := by
  cases c <;> rfl
@[simp] theorem promote_res (s : State) (c : Channel) :
    (s.promote c).res = (s.chan c).tout := rfl
@[simp] theorem promote_chan_same (s : State) (c : Channel) :
    (s.promote c).chan c = { s.chan c with st := (s.chan c).sh, pend := .none } := by
  cases c <;> rfl
theorem promote_chan_other (s : State) {c d : Channel} (h : d ≠ c) :
    (s.promote c).chan d = s.chan d := by
  cases c <;> cases d <;> first | rfl | exact absurd rfl h

/-! ## `State.startSession` -/

@[simp] theorem startSession_opa (s : State) :
    s.startSession.opa = s.opa := rfl
@[simp] theorem startSession_opb (s : State) :
    s.startSession.opb = s.opb := rfl
@[simp] theorem startSession_res (s : State) :
    s.startSession.res = s.res := rfl
@[simp] theorem startSession_tables (s : State) :
    s.startSession.tables = s.tables := rfl
@[simp] theorem startSession_bus (s : State) :
    s.startSession.bus = s.bus := rfl
@[simp] theorem startSession_rdata (s : State) :
    s.startSession.rdata = s.rdata := rfl
@[simp] theorem startSession_chan (s : State) (c : Channel) : s.startSession.chan c = Chan.zero := by
  cases c <;> rfl

@[simp] theorem startSession_stat (s : State) :
    s.startSession.stat = { started := true, fault := false, clipf := false, fcause := 0, fdetail := 0 } := rfl

@[simp] theorem startSession_cfg (s : State) :
    s.startSession.cfg = { s.cfg with upsEff := BitVec.ofNat 64 s.cfg.factor } := rfl

/-! ## Banks -/

@[simp] theorem bank_zero_read (f : BankField) : Bank.zero.read f = 0 := by cases f <;> rfl

/-- A bank is its seventeen fields. -/
theorem bank_ext {b b' : Bank} (h : ∀ f, b.read f = b'.read f) : b = b' := by
  have h0 := h .dcf0Y; have h1 := h .dcf0R; have h2 := h .dcf1Y; have h3 := h .dcf1R; have h4 := h .dcf2Y
  have h5 := h .dcf2R; have h6 := h .hpf0PI; have h7 := h .hpf0PO; have h8 := h .hpf1PI; have h9 := h .hpf1PO
  have h10 := h .slfPI; have h11 := h .slfPO; have h12 := h .envS1; have h13 := h .envR1; have h14 := h .envS2
  have h15 := h .envR2; have h16 := h .cv
  cases b
  cases b'
  simp_all [Bank.read]

end Sys2Proof.Machine
end

