-- ==== Sys2Proof/Laws/Commands.lean ====
section
/-! SUPPORT. What the operations shared by the commands can do, each said once: the checks of 60_exceptions.md R370,
the end of a command (R19, R366, R367), and the three modes of a family (43_filters.md R210). -/

namespace Sys2Proof.Machine

/-! ## Checks -/

theorem demand_eq_ok_iff {p : Bool} {c : Cause} {d : BitVec 16} : demand p c d = .ok () ↔ p = true := by
  cases p <;> simp [demand]

theorem notStuck_demand (p : Bool) (c : Cause) (d : BitVec 16) : NotStuck (demand p c d) := by
  cases p
  · exact notStuck_raise c d
  · exact notStuck_ok _

theorem needStarted_of_started {s : State} (h : s.stat.started = true) (op : BitVec 16) :
    s.needStarted op = .ok () := by
  simp [State.needStarted, demand, h]

theorem needStarted_of_idle {s : State} (h : s.stat.started = false) (op : BitVec 16) :
    s.needStarted op = .error (.raise .notStarted op) := by
  simp [State.needStarted, demand, h]

theorem needStarted_eq_ok_iff {s : State} {op : BitVec 16} :
    s.needStarted op = .ok () ↔ s.stat.started = true := demand_eq_ok_iff

theorem channel_ofCh_eq_some_iff {ch : BitVec 2} {c : Channel} : Channel.ofCh ch = some c ↔ ch.toNat = c.num := by
  revert ch c
  intro ch c
  cases c <;> revert ch <;> decide

/-- A CH field names channel c exactly where `selects` says so (30_encoding.md R104). -/
theorem needChannel_eq_ok_iff {s : State} {ch : BitVec 2} {c : Channel} :
    s.needChannel ch = .ok c ↔ selects s ch c := by
  rw [State.needChannel, selects, ← channel_ofCh_eq_some_iff]
  cases h : Channel.ofCh ch with
  | none => simp
  | some e =>
    simp only [Option.some.injEq]
    by_cases hn : e.num ≤ s.cfg.nch.toNat
    · rw [if_pos hn]
      constructor
      · intro h1
        obtain rfl := Except.ok.inj h1
        exact ⟨rfl, hn⟩
      · rintro ⟨rfl, -⟩
        rfl
    · rw [if_neg hn]
      constructor
      · exact fun h1 => nomatch h1
      · rintro ⟨rfl, h2⟩
        exact absurd h2 hn

/-- A CH field that names no channel raises BAD_CHANNEL(CH). -/
theorem needChannel_of_none {s : State} {ch : BitVec 2} (h : ∀ c, ¬ selects s ch c) :
    s.needChannel ch = .error (.raise .badChannel (ch.setWidth 16)) := by
  cases hr : s.needChannel ch with
  | ok c => exact absurd (needChannel_eq_ok_iff.mp hr) (h c)
  | error e =>
    rw [State.needChannel] at hr
    split at hr
    · split at hr
      · cases hr
      · exact hr.symm
    · exact hr.symm

/-- No two channels are named by one CH field. -/
theorem selects_unique {s : State} {ch : BitVec 2} {c d : Channel} (h : selects s ch c) (h' : selects s ch d) :
    c = d := by
  have := h.1.symm.trans h'.1
  cases c <;> cases d <;> first | rfl | cases this

theorem notStuck_needChannel (s : State) (ch : BitVec 2) : NotStuck (s.needChannel ch) := by
  rw [State.needChannel]
  split
  · split
    · exact notStuck_ok _
    · exact notStuck_raise _ _
  · exact notStuck_raise _ _

theorem notStuck_needNum {α : Type} (r : Option α) (n : BitVec 16) : NotStuck (needNum r n) := by
  cases r
  · exact notStuck_raise _ _
  · exact notStuck_ok _

theorem notStuck_needIndex (t : TableId) (i : BitVec 16) : NotStuck (needIndex t i) := by
  rw [needIndex]
  split
  · exact notStuck_ok _
  · exact notStuck_raise _ _

theorem needIndex_eq_ok_iff {t : TableId} {i : BitVec 16} {k : Nat} :
    needIndex t i = .ok k ↔ i.toNat < t.size ∧ k = i.toNat := by
  rw [needIndex]
  split <;> simp_all [eq_comm]

theorem needNum_eq_ok_iff {α : Type} {r : Option α} {n : BitVec 16} {x : α} : needNum r n = .ok x ↔ r = some x := by
  cases r <;> simp [needNum]

/-! ## The end of a command -/

@[simp] theorem finish_ok (s t : State) : s.finish (.ok t) = .next t := rfl

@[simp] theorem finish_raise (s : State) (c : Cause) (d : BitVec 16) :
    s.finish (.error (.raise c d)) = .next (s.raise c d) := rfl

/-- What a command's end answers: the state it computed, or the fault it raised. -/
theorem finish_eq_next_iff {s t : State} {r : Except Stop State} :
    s.finish r = .next t ↔ r = .ok t ∨ ∃ c d, r = .error (.raise c d) ∧ t = s.raise c d := by
  rcases r with e | u
  · cases e with
    | raise c d =>
      simp only [finish_raise, Host.Outcome.next.injEq]
      constructor
      · rintro rfl
        exact .inr ⟨c, d, rfl, rfl⟩
      · rintro (h | ⟨c', d', h, rfl⟩)
        · cases h
        · cases h
          rfl
    | stuck f => simp [State.finish]
  · simp [finish_ok]

/-- A command's end never refuses. -/
theorem finish_ne_refused {s : State} {r : Except Stop State} (x : Refusal) : s.finish r ≠ .refused x := by
  rcases r with e | u
  · cases e <;> intro h <;> cases h
  · intro h
    cases h

/-- A command that is not stuck answers a next state. -/
theorem finish_next_of_notStuck {s : State} {r : Except Stop State} (h : NotStuck r) : ∃ t, s.finish r = .next t := by
  rcases r with e | u
  · cases e with
    | raise c d => exact ⟨_, rfl⟩
    | stuck f => exact absurd rfl (h f)
  · exact ⟨u, rfl⟩

theorem finishUnlessFault_of_fault {s : State} (h : s.stat.fault = true) (r : Except Stop State) :
    s.finishUnlessFault r = .next s := by
  rw [State.finishUnlessFault, if_pos h]

theorem finishUnlessFault_of_no_fault {s : State} (h : s.stat.fault = false) (r : Except Stop State) :
    s.finishUnlessFault r = s.finish r := by
  rw [State.finishUnlessFault, h]
  rfl

/-- What an inhibitable command's end answers: nothing changed or a fault recorded, or, with no fault recorded
before, the state it computed. -/
theorem finishUnlessFault_eq_next {s t : State} {r : Except Stop State} (h : s.finishUnlessFault r = .next t) :
    (∃ c d, t = s.raise c d) ∨ (s.stat.fault = false ∧ r = .ok t) := by
  cases hf : s.stat.fault with
  | true =>
    rw [finishUnlessFault_of_fault hf] at h
    cases h
    exact .inl ⟨.illegal, 0, (raise_of_fault hf _ _).symm⟩
  | false =>
    rw [finishUnlessFault_of_no_fault hf, finish_eq_next_iff] at h
    rcases h with h | ⟨c, d, -, h⟩
    · exact .inr ⟨rfl, h⟩
    · exact .inl ⟨c, d, h⟩

theorem finishUnlessFault_ne_refused {s : State} {r : Except Stop State} (x : Refusal) :
    s.finishUnlessFault r ≠ .refused x := by
  rw [State.finishUnlessFault]
  split
  · intro h
    cases h
  · exact finish_ne_refused x

theorem finishUnlessFault_next_of_notStuck {s : State} {r : Except Stop State} (h : NotStuck r) :
    ∃ t, s.finishUnlessFault r = .next t := by
  rw [State.finishUnlessFault]
  split
  · exact ⟨s, rfl⟩
  · exact finish_next_of_notStuck h

/-! ## The instance field -/

theorem withInst_of_some {α : Type} {s : State} {of : BitVec 3 → Option α} {inst : BitVec 3} {x : α}
    (h : of inst = some x) (body : α → Host.Outcome State Fault Refusal) : s.withInst of inst body = body x := by
  rw [State.withInst, h]

theorem withInst_of_none {α : Type} {s : State} {of : BitVec 3 → Option α} {inst : BitVec 3}
    (h : of inst = none) (body : α → Host.Outcome State Fault Refusal) :
    s.withInst of inst body = .next (s.raise .badInstance (inst.setWidth 16)) := by
  rw [State.withInst, h]

/-- What a command with an instance field answers: BAD_INSTANCE, or what its instance's body answers. -/
theorem withInst_eq_next {α : Type} {s t : State} {of : BitVec 3 → Option α} {inst : BitVec 3}
    {body : α → Host.Outcome State Fault Refusal} (h : s.withInst of inst body = .next t) :
    (∃ c d, t = s.raise c d) ∨ ∃ x, of inst = some x ∧ body x = .next t := by
  cases hx : of inst with
  | none =>
    rw [withInst_of_none hx] at h
    cases h
    exact .inl ⟨_, _, rfl⟩
  | some x =>
    rw [withInst_of_some hx] at h
    exact .inr ⟨x, rfl, h⟩

theorem tableId_ofInst_eq_some_iff {t : BitVec 3} {tb : TableId} : TableId.ofInst t = some tb ↔ t.toNat = tb.num := by
  cases tb <;> revert t <;> decide

theorem dcfId_ofInst_eq_some_iff {k : BitVec 3} {j : DcfId} : DcfId.ofInst k = some j ↔ k.toNat = j.num := by
  cases j <;> revert k <;> decide

theorem hpfId_ofInst_eq_some_iff {h : BitVec 3} {j : HpfId} : HpfId.ofInst h = some j ↔ h.toNat = j.num := by
  cases j <;> revert h <;> decide

/-! ## The three modes of a family, R210 -/

/-- Commit mode in a session with no fault, on a selected channel. -/
theorem runCommit_of_ready {s : State} {ch : BitVec 2} {c : Channel} (hr : ready s) (hc : selects s ch c)
    (op : BitVec 16) (f : Bank → Except Stop (Bank × Int)) :
    s.runCommit op ch f = s.finish ((f (s.chan c).st).map fun p => s.commit c p.1 p.2) := by
  rw [State.runCommit, finishUnlessFault_of_no_fault hr.2, needStarted_of_started hr.1,
    needChannel_eq_ok_iff.mpr hc]
  simp only [except_ok_bind]
  cases f (s.chan c).st <;> rfl

/-- Check mode in a session with no fault, on a selected channel. -/
theorem runCheck_of_ready {s : State} {ch : BitVec 2} {c : Channel} (hr : ready s) (hc : selects s ch c)
    (op : BitVec 16) (p : Pend) (f : Bank → Except Stop (Bank × Int)) :
    s.runCheck op ch p f = s.finish ((f (s.chan c).st).map fun q => s.check c p q.1 q.2) := by
  rw [State.runCheck, finishUnlessFault_of_no_fault hr.2, needStarted_of_started hr.1,
    needChannel_eq_ok_iff.mpr hc]
  simp only [except_ok_bind]
  cases f (s.chan c).st <;> rfl

/-- Update mode in a session with no fault, on a selected channel. -/
theorem runUpdate_of_ready {s : State} {ch : BitVec 2} {c : Channel} (hr : ready s) (hc : selects s ch c)
    (op : BitVec 16) (p : Pend) :
    s.runUpdate op ch p = .next (if (s.chan c).pend = p then s.promote c
      else s.raise .noTrial ((s.chan c).pend.code.setWidth 16)) := by
  rw [State.runUpdate, finishUnlessFault_of_no_fault hr.2, needStarted_of_started hr.1,
    needChannel_eq_ok_iff.mpr hc]
  simp only [except_ok_bind, State.needTrial, demand]
  by_cases h : (s.chan c).pend = p <;> simp [h]

/-- What commit mode can do. -/
theorem runCommit_eq_next {s t : State} {op : BitVec 16} {ch : BitVec 2} {f : Bank → Except Stop (Bank × Int)}
    (h : s.runCommit op ch f = .next t) :
    (∃ c d, t = s.raise c d) ∨ ∃ c b y, ready s ∧ selects s ch c ∧ f (s.chan c).st = .ok (b, y) ∧
      t = s.commit c b y := by
  rcases finishUnlessFault_eq_next h with h | ⟨hf, h⟩
  · exact .inl h
  · obtain ⟨_, h1, h⟩ := except_bind_eq_ok.mp h
    obtain ⟨c, h2, h⟩ := except_bind_eq_ok.mp h
    obtain ⟨⟨b, y⟩, h3, h⟩ := except_bind_eq_ok.mp h
    exact .inr ⟨c, b, y, ⟨needStarted_eq_ok_iff.mp h1, hf⟩, needChannel_eq_ok_iff.mp h2, h3,
      (Except.ok.inj h).symm⟩

/-- What check mode can do. -/
theorem runCheck_eq_next {s t : State} {op : BitVec 16} {ch : BitVec 2} {p : Pend}
    {f : Bank → Except Stop (Bank × Int)} (h : s.runCheck op ch p f = .next t) :
    (∃ c d, t = s.raise c d) ∨ ∃ c b y, ready s ∧ selects s ch c ∧ f (s.chan c).st = .ok (b, y) ∧
      t = s.check c p b y := by
  rcases finishUnlessFault_eq_next h with h | ⟨hf, h⟩
  · exact .inl h
  · obtain ⟨_, h1, h⟩ := except_bind_eq_ok.mp h
    obtain ⟨c, h2, h⟩ := except_bind_eq_ok.mp h
    obtain ⟨⟨b, y⟩, h3, h⟩ := except_bind_eq_ok.mp h
    exact .inr ⟨c, b, y, ⟨needStarted_eq_ok_iff.mp h1, hf⟩, needChannel_eq_ok_iff.mp h2, h3,
      (Except.ok.inj h).symm⟩

/-- What update mode can do. -/
theorem runUpdate_eq_next {s t : State} {op : BitVec 16} {ch : BitVec 2} {p : Pend}
    (h : s.runUpdate op ch p = .next t) :
    (∃ c d, t = s.raise c d) ∨ ∃ c, ready s ∧ selects s ch c ∧ (s.chan c).pend = p ∧ t = s.promote c := by
  rcases finishUnlessFault_eq_next h with h | ⟨hf, h⟩
  · exact .inl h
  · obtain ⟨_, h1, h⟩ := except_bind_eq_ok.mp h
    obtain ⟨c, h2, h⟩ := except_bind_eq_ok.mp h
    obtain ⟨_, h3, h⟩ := except_bind_eq_ok.mp h
    exact .inr ⟨c, ⟨needStarted_eq_ok_iff.mp h1, hf⟩, needChannel_eq_ok_iff.mp h2,
      by simpa using demand_eq_ok_iff.mp h3, (Except.ok.inj h).symm⟩

theorem runCommit_next_of_notStuck {s : State} {op : BitVec 16} {ch : BitVec 2}
    {f : Bank → Except Stop (Bank × Int)} (h : s.stat.started = true → ∀ b, NotStuck (f b)) :
    ∃ t, s.runCommit op ch f = .next t :=
  finishUnlessFault_next_of_notStuck <| notStuck_bind (notStuck_demand _ _ _) fun _ h1 =>
    notStuck_bind (notStuck_needChannel _ _) fun _ _ =>
      notStuck_bind (h (needStarted_eq_ok_iff.mp h1) _) fun _ _ => notStuck_ok _

theorem runCheck_next_of_notStuck {s : State} {op : BitVec 16} {ch : BitVec 2} {p : Pend}
    {f : Bank → Except Stop (Bank × Int)} (h : s.stat.started = true → ∀ b, NotStuck (f b)) :
    ∃ t, s.runCheck op ch p f = .next t :=
  finishUnlessFault_next_of_notStuck <| notStuck_bind (notStuck_demand _ _ _) fun _ h1 =>
    notStuck_bind (notStuck_needChannel _ _) fun _ _ =>
      notStuck_bind (h (needStarted_eq_ok_iff.mp h1) _) fun _ _ => notStuck_ok _

theorem runUpdate_next (s : State) (op : BitVec 16) (ch : BitVec 2) (p : Pend) :
    ∃ t, s.runUpdate op ch p = .next t :=
  finishUnlessFault_next_of_notStuck <| notStuck_bind (notStuck_demand _ _ _) fun _ _ =>
    notStuck_bind (notStuck_needChannel _ _) fun _ _ =>
      notStuck_bind (notStuck_demand _ _ _) fun _ _ => notStuck_ok _

end Sys2Proof.Machine
end

