-- ==== Sys2Proof/Laws/Encoding.lean ====
section
/-! SUPPORT. The fields of a packed command word (30_encoding.md R101, R102), and the port's byte order (20_memory.md
R85). -/

namespace Sys2Proof

/-! ## The fields of a packed word -/

theorem opField_packWord (op : BitVec 8) (ch : BitVec 2) (inst : BitVec 3) (imm : BitVec 16) :
    opField (packWord op ch inst imm) = op := by
  ext k hk
  interval_cases k <;> simp [opField, packWord]

theorem chField_packWord (op : BitVec 8) (ch : BitVec 2) (inst : BitVec 3) (imm : BitVec 16) :
    chField (packWord op ch inst imm) = ch := by
  ext k hk
  interval_cases k <;> simp [chField, packWord]

theorem instField_packWord (op : BitVec 8) (ch : BitVec 2) (inst : BitVec 3) (imm : BitVec 16) :
    instField (packWord op ch inst imm) = inst := by
  ext k hk
  interval_cases k <;> simp [instField, packWord]

theorem rsvField_packWord (op : BitVec 8) (ch : BitVec 2) (inst : BitVec 3) (imm : BitVec 16) :
    rsvField (packWord op ch inst imm) = 0 := by
  ext k hk
  interval_cases k <;> simp [rsvField, packWord]

theorem immField_packWord (op : BitVec 8) (ch : BitVec 2) (inst : BitVec 3) (imm : BitVec 16) :
    immField (packWord op ch inst imm) = imm := by
  ext k hk
  interval_cases k <;> simp [immField, packWord]

/-- A word is its five fields. -/
theorem packWord_fields {w : CmdWord} (h : rsvField w = 0) :
    packWord (opField w) (chField w) (instField w) (immField w) = w := by
  have h13 : w.getLsbD 13 = false := by simpa [rsvField] using congrArg (fun x => x.getLsbD 0) h
  have h14 : w.getLsbD 14 = false := by simpa [rsvField] using congrArg (fun x => x.getLsbD 1) h
  have h15 : w.getLsbD 15 = false := by simpa [rsvField] using congrArg (fun x => x.getLsbD 2) h
  ext k hk
  interval_cases k <;> simp_all [packWord, opField, chField, instField, immField, BitVec.getLsbD_eq_getElem]

/-! ## Bytes -/

@[simp] theorem bytesLE_length (k v : Nat) : (bytesLE k v).length = k := by
  induction k generalizing v with
  | zero => rfl
  | succ k ih => simp [bytesLE, ih]

/-- The bytes of a value are the value, modulo what they hold (R85). -/
theorem valueLE_bytesLE (k v : Nat) : valueLE (bytesLE k v) = v % 256 ^ k := by
  induction k generalizing v with
  | zero => simp [bytesLE, valueLE, Nat.mod_one]
  | succ k ih =>
    rw [bytesLE, valueLE, ih, BitVec.toNat_ofNat, pow_succ' 256 k, Nat.mod_mul (x := v)]

end Sys2Proof
end

