-- ==== Sys2Proof/Laws/Memory.lean ====
section
/-! SUPPORT. The table memory (20_memory.md R81, R82): reading after writing, the canonical form, and when a table is
full. -/

namespace Sys2Proof.Machine

/-! ## One table -/

theorem memory_wfFrom_mono {n lo lo' : Nat} {m : Memory} (h : lo' ≤ lo) (hm : m.wfFrom n lo = true) :
    m.wfFrom n lo' = true := by
  cases m with
  | nil => rfl
  | cons p m =>
    simp only [Memory.wfFrom, Bool.and_eq_true, decide_eq_true_eq] at hm ⊢
    exact ⟨⟨by omega, hm.1.2⟩, hm.2⟩

/-- In canonical form nothing is listed below the bound. -/
theorem memory_read_below {n lo i : Nat} {m : Memory} (hm : m.wfFrom n lo = true) (h : i < lo) :
    m.read i = none := by
  induction m generalizing lo with
  | nil => rfl
  | cons p m ih =>
    simp only [Memory.wfFrom, Bool.and_eq_true, decide_eq_true_eq] at hm
    rw [Memory.read, if_neg (by omega)]
    exact ih hm.2 (by omega)

/-- Nothing is listed at or above the table's size. -/
theorem memory_read_above {n lo i : Nat} {m : Memory} (hm : m.wfFrom n lo = true) (h : n ≤ i) :
    m.read i = none := by
  induction m generalizing lo with
  | nil => rfl
  | cons p m ih =>
    simp only [Memory.wfFrom, Bool.and_eq_true, decide_eq_true_eq] at hm
    rw [Memory.read, if_neg (by omega)]
    exact ih hm.2

/-- A written entry reads as the value written (R82). -/
@[simp] theorem memory_read_write_same (m : Memory) (i : Nat) (v : Word) : (m.write i v).read i = some v := by
  induction m with
  | nil => simp [Memory.write, Memory.read]
  | cons p m ih =>
    rw [Memory.write]
    split
    · simp [Memory.read]
    · split
      · simp [Memory.read]
      · rw [Memory.read, if_neg (by omega), ih]

/-- Every other entry reads as before; no canonical form is needed. -/
theorem memory_read_write_other (m : Memory) {i k : Nat} (v : Word) (h : k ≠ i) :
    (m.write i v).read k = m.read k := by
  induction m with
  | nil => simp [Memory.write, Memory.read, h.symm]
  | cons p m ih =>
    rw [Memory.write]
    split
    · rw [Memory.read, if_neg (by omega)]
    · split
      · subst_vars
        rw [Memory.read, Memory.read, if_neg (by omega), if_neg (by omega)]
      · rw [Memory.read, Memory.read, ih]

theorem memory_wfFrom_write {n lo i : Nat} {m : Memory} (v : Word) (hm : m.wfFrom n lo = true) (hl : lo ≤ i)
    (hi : i < n) : (m.write i v).wfFrom n lo = true := by
  induction m generalizing lo with
  | nil => simp [Memory.write, Memory.wfFrom, hl, hi]
  | cons p m ih =>
    simp only [Memory.wfFrom, Bool.and_eq_true, decide_eq_true_eq] at hm
    rw [Memory.write]
    split
    · simp only [Memory.wfFrom, Bool.and_eq_true, decide_eq_true_eq]
      exact ⟨⟨hl, hi⟩, ⟨by omega, hm.1.2⟩, hm.2⟩
    · split
      · subst_vars
        simp only [Memory.wfFrom, Bool.and_eq_true, decide_eq_true_eq]
        exact ⟨⟨hl, hi⟩, hm.2⟩
      · simp only [Memory.wfFrom, Bool.and_eq_true, decide_eq_true_eq]
        exact ⟨hm.1, ih hm.2 (by omega)⟩

/-- A write inside the table keeps the canonical form. -/
theorem memory_wf_write {n i : Nat} {m : Memory} (v : Word) (hm : m.wf n = true) (hi : i < n) :
    (m.write i v).wf n = true :=
  memory_wfFrom_write v hm (Nat.zero_le i) hi

/-- In canonical form equal reads make equal data. -/
theorem memory_ext {n lo : Nat} {m m' : Memory} (hm : m.wfFrom n lo = true) (hm' : m'.wfFrom n lo = true)
    (h : ∀ i, m.read i = m'.read i) : m = m' := by
  induction m generalizing lo m' with
  | nil =>
    cases m' with
    | nil => rfl
    | cons p m' =>
      have := h p.1
      simp [Memory.read, Memory.unlisted] at this
  | cons p m ih =>
    cases m' with
    | nil =>
      have := h p.1
      simp [Memory.read, Memory.unlisted] at this
    | cons q m' =>
      obtain ⟨pk, pv⟩ := p
      obtain ⟨qk, qv⟩ := q
      simp only [Memory.wfFrom, Bool.and_eq_true, decide_eq_true_eq] at hm hm'
      have hk : pk = qk := by
        rcases lt_trichotomy pk qk with hlt | heq | hlt
        · have h1 := h pk
          rw [Memory.read, if_pos rfl, Memory.read, if_neg (by omega),
            memory_read_below hm'.2 (by omega)] at h1
          cases h1
        · exact heq
        · have h1 := h qk
          rw [Memory.read, if_neg (by omega), Memory.read, if_pos rfl,
            memory_read_below hm.2 (by omega)] at h1
          cases h1
      subst hk
      have hv : pv = qv := by
        have h1 := h pk
        rw [Memory.read, if_pos rfl, Memory.read, if_pos rfl] at h1
        exact Option.some.inj h1
      subst hv
      congr 1
      refine ih hm.2 hm'.2 fun i => ?_
      have h1 := h i
      by_cases hi : pk = i
      · subst hi
        rw [memory_read_below hm.2 (by omega), memory_read_below hm'.2 (by omega)]
      · rwa [Memory.read, if_neg hi, Memory.read, if_neg hi] at h1

theorem memory_indexes_eq_range' {n lo : Nat} {m : Memory} (hm : m.wfFrom n lo = true)
    (h : ∀ i, lo ≤ i → i < n → ∃ v, m.read i = some v) : m.map Prod.fst = List.range' lo (n - lo) := by
  induction m generalizing lo with
  | nil =>
    have : n - lo = 0 := by
      by_contra hc
      obtain ⟨v, hv⟩ := h lo le_rfl (by omega)
      simp [Memory.read, Memory.unlisted] at hv
    simp [this]
  | cons p m ih =>
    simp only [Memory.wfFrom, Bool.and_eq_true, decide_eq_true_eq] at hm
    have hp : p.1 = lo := by
      by_contra hc
      obtain ⟨v, hv⟩ := h lo le_rfl (by omega)
      rw [Memory.read, if_neg (by omega), memory_read_below hm.2 (by omega)] at hv
      cases hv
    have ht := ih (lo := p.1 + 1) hm.2 fun i h1 h2 => by
      obtain ⟨v, hv⟩ := h i (by omega) h2
      rw [Memory.read, if_neg (by omega)] at hv
      exact ⟨v, hv⟩
    rw [List.map_cons, ht, hp, show n - lo = (n - (lo + 1)) + 1 by omega, List.range'_succ]

theorem memory_read_of_mem {m : Memory} {i : Nat} (h : i ∈ m.map Prod.fst) : ∃ v, m.read i = some v := by
  induction m with
  | nil => simp at h
  | cons p m ih =>
    by_cases hp : p.1 = i
    · exact ⟨p.2, by rw [Memory.read, if_pos hp]⟩
    · rw [List.map_cons, List.mem_cons] at h
      obtain ⟨v, hv⟩ := ih (h.resolve_left (Ne.symm hp))
      exact ⟨v, by rw [Memory.read, if_neg hp, hv]⟩

/-- A full table has every entry written. -/
theorem memory_full_read {n i : Nat} {m : Memory} (h : m.full n = true) (hi : i < n) : ∃ v, m.read i = some v := by
  refine memory_read_of_mem ?_
  rw [Memory.full, beq_iff_eq] at h
  rw [h]
  exact List.mem_range.mpr hi

/-- In canonical form a table is full exactly when every entry is written (R82). -/
theorem memory_full_iff {n : Nat} {m : Memory} (hm : m.wf n = true) :
    m.full n = true ↔ ∀ i, i < n → ∃ v, m.read i = some v := by
  constructor
  · exact fun h i hi => memory_full_read h hi
  · intro h
    rw [Memory.full, beq_iff_eq, memory_indexes_eq_range' hm fun i _ hi => h i hi, List.range_eq_range']
    rfl

/-! ## The six tables -/

theorem mem_allTables (t : TableId) : t ∈ allTables := by cases t <;> decide

@[simp] theorem tables_get_set_same (tb : Tables) (t : TableId) (m : Memory) : (tb.set t m).get t = m := by
  cases t <;> rfl

theorem tables_get_set_other (tb : Tables) {t u : TableId} (m : Memory) (h : u ≠ t) :
    (tb.set t m).get u = tb.get u := by
  cases t <;> cases u <;> first | rfl | exact absurd rfl h

@[simp] theorem tables_read_write_same (tb : Tables) (t : TableId) (i : Nat) (v : Word) :
    (tb.write t i v).read t i = some v := by
  simp [Tables.write, Tables.read]

theorem tables_read_write_other (tb : Tables) {t u : TableId} {i k : Nat} (v : Word) (h : (u, k) ≠ (t, i)) :
    (tb.write t i v).read u k = tb.read u k := by
  rw [Tables.write, Tables.read, Tables.read]
  by_cases hu : u = t
  · subst hu
    rw [tables_get_set_same, memory_read_write_other]
    exact fun hk => h (by rw [hk])
  · rw [tables_get_set_other _ _ hu]

theorem tables_wf_iff (tb : Tables) : tb.wf = true ↔ ∀ t, (tb.get t).wf t.size = true := by
  rw [Tables.wf, List.all_eq_true]
  exact ⟨fun h t => h t (mem_allTables t), fun h t _ => h t⟩

/-- A TBLW keeps the canonical form of every table. -/
theorem tables_wf_write {tb : Tables} {t : TableId} {i : Nat} (v : Word) (h : tb.wf = true) (hi : i < t.size) :
    (tb.write t i v).wf = true := by
  rw [tables_wf_iff] at h ⊢
  intro u
  by_cases hu : u = t
  · subst hu
    rw [Tables.write, tables_get_set_same]
    exact memory_wf_write v (h u) hi
  · rw [Tables.write, tables_get_set_other _ _ hu]
    exact h u

/-- The tables after power-on and STOP are in canonical form. -/
theorem tables_empty_wf : Tables.empty.wf = true := by decide

@[simp] theorem tables_empty_read (t : TableId) (i : Nat) : Tables.empty.read t i = none := by
  cases t <;> rfl

/-- START's table check passes exactly when every table is full. -/
theorem tables_check_ok_iff (tb : Tables) :
    tb.check = .ok () ↔ ∀ t, (tb.get t).full t.size = true := by
  have : tb.firstIncomplete = none ↔ ∀ t, (tb.get t).full t.size = true := by
    rw [Tables.firstIncomplete, List.find?_eq_none]
    exact ⟨fun h t => by simpa using h t (mem_allTables t), fun h t _ => by simp [h t]⟩
  rw [← this, Tables.check]
  cases tb.firstIncomplete <;> simp

/-- In a session every entry of every table has a value. -/
theorem tables_read_of_check {tb : Tables} (h : tb.check = .ok ()) {t : TableId} {i : Nat} (hi : i < t.size) :
    ∃ v, tb.read t i = some v :=
  memory_full_read ((tables_check_ok_iff tb).mp h t) hi

end Sys2Proof.Machine
end

