-- ==== Sys2Proof/Laws/Stages.lean ====
section
/-! SUPPORT. What the stage functions can do (42_lut.md R190, 43_filters.md R214 to R219, 44_envelope.md R261,
45_sidepath.md R281 to R287): for each, what holds when it returns, and when it is not stuck. -/

namespace Sys2Proof.Machine

/-! ## The DC filter step, R214 -/

/-- What a DC filter step returns. -/
theorem dcfStep_eq_ok {y r x a m y' r' : Int} (h : dcfStep y r x a m = .ok (y', r')) :
    m ≠ 0 ∧ fits (x - y) ∧ fits ((x - y) * a) ∧ fits (accOf y r x a) ∧ fits y' ∧ fits r' ∧
      y' = dcfY y r x a m ∧ r' = dcfR y r x a m := by
  obtain ⟨d, h1, h⟩ := except_bind_eq_ok.mp h
  obtain ⟨p, h2, h⟩ := except_bind_eq_ok.mp h
  obtain ⟨acc, h3, h⟩ := except_bind_eq_ok.mp h
  obtain ⟨q, h4, h⟩ := except_bind_eq_ok.mp h
  obtain ⟨qm, h5, h⟩ := except_bind_eq_ok.mp h
  obtain ⟨r2, h6, h⟩ := except_bind_eq_ok.mp h
  obtain ⟨y2, h7, h⟩ := except_bind_eq_ok.mp h
  obtain ⟨f1, rfl⟩ := chk_eq_ok_iff.mp h1
  obtain ⟨f2, rfl⟩ := chk_eq_ok_iff.mp h2
  obtain ⟨f3, rfl⟩ := chk_eq_ok_iff.mp h3
  obtain ⟨hm, -, rfl⟩ := tdiv_eq_ok h4
  obtain ⟨-, rfl⟩ := chk_eq_ok_iff.mp h5
  obtain ⟨f6, rfl⟩ := chk_eq_ok_iff.mp h6
  obtain ⟨f7, rfl⟩ := chk_eq_ok_iff.mp h7
  simp only [Except.ok.injEq, Prod.mk.injEq] at h
  obtain ⟨rfl, rfl⟩ := h
  refine ⟨hm, f1, f2, f3, f7, f6, rfl, ?_⟩
  have := Int.mul_tdiv_add_tmod (r + (x - y) * a) m
  rw [dcfR, accOf]
  linarith [mul_comm m ((r + (x - y) * a).tdiv m)]

/-- The remainder of a division by a positive multiplier is smaller than it. -/
theorem abs_tmod_lt {a m : Int} (hm : 0 < m) : |a.tmod m| < m := by
  rw [abs_lt]
  rcases le_total 0 a with h | h
  · have h1 := Int.tmod_nonneg m h
    have h2 := Int.tmod_lt_of_pos a hm
    omega
  · obtain ⟨b, rfl⟩ : ∃ b, a = -b := ⟨-a, by omega⟩
    have h1 := Int.tmod_nonneg (a := b) m (by omega)
    have h2 := Int.tmod_lt_of_pos b hm
    rw [Int.neg_tmod]
    omega

theorem notStuck_dcfStep {y r x a m : Int} (hm : m ≠ 0) : NotStuck (dcfStep y r x a m) :=
  notStuck_bind (notStuck_chk _) fun _ _ => notStuck_bind (notStuck_chk _) fun _ _ =>
    notStuck_bind (notStuck_chk _) fun _ _ => notStuck_bind (notStuck_tdiv hm) fun _ _ =>
      notStuck_bind (notStuck_chk _) fun _ _ => notStuck_bind (notStuck_chk _) fun _ _ =>
        notStuck_bind (notStuck_chk _) fun _ _ => notStuck_ok _

/-! ## The high-pass step, R217 and R218 -/

/-- What a high-pass step returns. -/
theorem hpfStep_eq_ok {f f' : HpfFields} {x a m da dm out : Int}
    (h : hpfStep f x a m da dm = .ok (f', out)) :
    m ≠ 0 ∧ fits (f.po + x) ∧ fits (f.po + x - f.pi) ∧ fits ((f.po + x - f.pi) * a) ∧ fits out ∧
      out = hpfOut f x a m ∧ dcfStep f.y f.r out da dm = .ok (f'.y, f'.r) ∧ fits f'.po ∧
      f'.po = out - f'.y ∧ f'.pi = x := by
  obtain ⟨u, h1, h⟩ := except_bind_eq_ok.mp h
  obtain ⟨v, h2, h⟩ := except_bind_eq_ok.mp h
  obtain ⟨p, h3, h⟩ := except_bind_eq_ok.mp h
  obtain ⟨q, h4, h⟩ := except_bind_eq_ok.mp h
  obtain ⟨⟨y', r', po'⟩, h5, h⟩ := except_bind_eq_ok.mp h
  obtain ⟨⟨y2, r2⟩, h6, h5⟩ := except_bind_eq_ok.mp h5
  obtain ⟨w, h7, h5⟩ := except_bind_eq_ok.mp h5
  obtain ⟨f1, rfl⟩ := chk_eq_ok_iff.mp h1
  obtain ⟨f2, rfl⟩ := chk_eq_ok_iff.mp h2
  obtain ⟨f3, rfl⟩ := chk_eq_ok_iff.mp h3
  obtain ⟨hm, f4, rfl⟩ := tdiv_eq_ok h4
  obtain ⟨f7, rfl⟩ := chk_eq_ok_iff.mp h7
  simp only [Except.ok.injEq, Prod.mk.injEq] at h5 h
  obtain ⟨rfl, rfl, rfl⟩ := h5
  obtain ⟨rfl, rfl⟩ := h
  exact ⟨hm, f1, f2, f3, f4, rfl, h6, f7, rfl, rfl⟩

theorem notStuck_hpfStep {f : HpfFields} {x a m da dm : Int} (hm : m ≠ 0) (hd : dm ≠ 0) :
    NotStuck (hpfStep f x a m da dm) :=
  notStuck_bind (notStuck_chk _) fun _ _ => notStuck_bind (notStuck_chk _) fun _ _ =>
    notStuck_bind (notStuck_chk _) fun _ _ => notStuck_bind (notStuck_tdiv hm) fun _ _ =>
      notStuck_bind (notStuck_bind (notStuck_dcfStep hd) fun _ _ =>
        notStuck_bind (notStuck_chk _) fun _ _ => notStuck_ok _) fun _ _ => notStuck_ok _

/-! ## The families' functions, R220 -/

theorem fDcf_eq_ok {g : Cfg} {b b' : Bank} {k : DcfId} {x y : Int} (h : fDcf g b k x = .ok (b', y)) :
    ∃ r, dcfStep (b.dcf k).1 (b.dcf k).2 x (g.dcf k).a.toInt (g.dcf k).m.toInt = .ok (y, r) ∧
      b' = b.setDcf k y r := by
  obtain ⟨⟨y', r'⟩, h1, h⟩ := except_bind_eq_ok.mp h
  simp only [Except.ok.injEq, Prod.mk.injEq] at h
  obtain ⟨rfl, rfl⟩ := h
  exact ⟨r', h1, rfl⟩

theorem fHpf_eq_ok {g : Cfg} {b b' : Bank} {k : HpfId} {x y : Int} (h : fHpf g b k x = .ok (b', y)) :
    ∃ f, hpfStep (b.hpf k) x (g.hpf k).a.toInt (g.hpf k).m.toInt (g.dcf k.dcf).a.toInt (g.dcf k.dcf).m.toInt =
      .ok (f, y) ∧ b' = b.setHpf k f := by
  obtain ⟨⟨f, y'⟩, h1, h⟩ := except_bind_eq_ok.mp h
  simp only [Except.ok.injEq, Prod.mk.injEq] at h
  obtain ⟨rfl, rfl⟩ := h
  exact ⟨f, h1, rfl⟩

theorem fSlf_eq_ok {g : Cfg} {b b' : Bank} {u a y : Int} (h : fSlf g b u a = .ok (b', y)) :
    ∃ f, hpfStep b.slf u a g.muxAlpha.toInt g.dcf2.a.toInt g.dcf2.m.toInt = .ok (f, y) ∧ b' = b.setSlf f := by
  obtain ⟨⟨f, y'⟩, h1, h⟩ := except_bind_eq_ok.mp h
  simp only [Except.ok.injEq, Prod.mk.injEq] at h
  obtain ⟨rfl, rfl⟩ := h
  exact ⟨f, h1, rfl⟩

/-! ## The interpolator, R190 -/

/-- What the interpolator returns: with a positive step, the top entry, or the value between two adjacent entries. -/
theorem interp_eq_ok {g : Cfg} {tb : Tables} {t : TableId} {v y : Int} (h : interp g tb t v = .ok y) :
    fits y ∧ ∃ d i : Int, (g.geom t).q.toInt ≠ 0 ∧
      d = clamp v (g.geom t).v0.toInt ((g.geom t).v0.toInt + ((t.size : Int) - 1) * (g.geom t).q.toInt) -
        (g.geom t).v0.toInt ∧
      i = d.tdiv (g.geom t).q.toInt ∧
      if i = (t.size : Int) - 1 then ∃ w, tb.read t (t.size - 1) = some w ∧ y = w.toInt
      else ∃ a b, tb.read t i.toNat = some a ∧ tb.read t (i.toNat + 1) = some b ∧
        fits (b.toInt - a.toInt) ∧ fits ((b.toInt - a.toInt) * (d - i * (g.geom t).q.toInt)) ∧
        y = a.toInt + ((b.toInt - a.toInt) * (d - i * (g.geom t).q.toInt)).tdiv (g.geom t).q.toInt := by
  have entry : ∀ {k : Nat} {e : Int}, tb.entry t k = .ok e → ∃ w : Word, tb.read t k = some w ∧ e = w.toInt := by
    intro k e he
    rw [Tables.entry] at he
    split at he
    · rename_i w hw
      exact ⟨w, hw, (Except.ok.inj he).symm⟩
    · cases he
  obtain ⟨sp, h1, h⟩ := except_bind_eq_ok.mp h
  obtain ⟨vm, h2, h⟩ := except_bind_eq_ok.mp h
  obtain ⟨d, h3, h⟩ := except_bind_eq_ok.mp h
  obtain ⟨i, h4, h⟩ := except_bind_eq_ok.mp h
  obtain ⟨iq, h5, h⟩ := except_bind_eq_ok.mp h
  obtain ⟨f, h6, h⟩ := except_bind_eq_ok.mp h
  obtain ⟨-, rfl⟩ := chk_eq_ok_iff.mp h1
  obtain ⟨-, rfl⟩ := chk_eq_ok_iff.mp h2
  obtain ⟨-, rfl⟩ := chk_eq_ok_iff.mp h3
  obtain ⟨hq, -, rfl⟩ := tdiv_eq_ok h4
  obtain ⟨-, rfl⟩ := chk_eq_ok_iff.mp h5
  obtain ⟨-, rfl⟩ := chk_eq_ok_iff.mp h6
  split at h
  · rename_i hi
    obtain ⟨w, hw, rfl⟩ := entry h
    refine ⟨fits_toInt w, _, _, hq, rfl, rfl, ?_⟩
    rw [if_pos hi]
    exact ⟨w, hw, rfl⟩
  · rename_i hi
    obtain ⟨a, ha, h⟩ := except_bind_eq_ok.mp h
    obtain ⟨b, hb, h⟩ := except_bind_eq_ok.mp h
    obtain ⟨df, h7, h⟩ := except_bind_eq_ok.mp h
    obtain ⟨p, h8, h⟩ := except_bind_eq_ok.mp h
    obtain ⟨e, h9, h⟩ := except_bind_eq_ok.mp h
    obtain ⟨wa, hwa, rfl⟩ := entry ha
    obtain ⟨wb, hwb, rfl⟩ := entry hb
    obtain ⟨f7, rfl⟩ := chk_eq_ok_iff.mp h7
    obtain ⟨f8, rfl⟩ := chk_eq_ok_iff.mp h8
    obtain ⟨-, -, rfl⟩ := tdiv_eq_ok h9
    obtain ⟨f9, rfl⟩ := chk_eq_ok_iff.mp h
    refine ⟨f9, _, _, hq, rfl, rfl, ?_⟩
    rw [if_neg hi]
    exact ⟨wa, wb, hwa, hwb, f7, f8, rfl⟩

/-- The index into a table: the distance into the domain divided by the step stays in the table. -/
theorem tdiv_index_le {d q n : Int} (hq : 0 < q) (h0 : 0 ≤ d) (hd : d ≤ n * q) : 0 ≤ d.tdiv q ∧ d.tdiv q ≤ n := by
  refine ⟨Int.tdiv_nonneg h0 hq.le, ?_⟩
  rw [Int.tdiv_eq_ediv_of_nonneg h0]
  exact Int.ediv_le_of_le_mul hq hd

/-- With a positive step and a full table the interpolator is not stuck. -/
theorem notStuck_interp {g : Cfg} {tb : Tables} {t : TableId} (v : Int) (hq : 0 < (g.geom t).q.toInt)
    (hf : ∀ i, i < t.size → ∃ w, tb.read t i = some w) : NotStuck (interp g tb t v) := by
  have entry : ∀ {k : Nat}, k < t.size → NotStuck (tb.entry t k) := by
    intro k hk
    obtain ⟨w, hw⟩ := hf k hk
    rw [Tables.entry, hw]
    exact notStuck_ok _
  have hs : 1 ≤ t.size := by cases t <;> decide
  refine notStuck_bind (notStuck_chk _) fun sp h1 => notStuck_bind (notStuck_chk _) fun vm h2 =>
    notStuck_bind (notStuck_chk _) fun d h3 => notStuck_bind (notStuck_tdiv hq.ne') fun i h4 =>
      notStuck_bind (notStuck_chk _) fun iq _ => notStuck_bind (notStuck_chk _) fun f _ => ?_
  obtain ⟨-, rfl⟩ := chk_eq_ok_iff.mp h1
  obtain ⟨-, rfl⟩ := chk_eq_ok_iff.mp h2
  obtain ⟨-, rfl⟩ := chk_eq_ok_iff.mp h3
  obtain ⟨-, -, rfl⟩ := tdiv_eq_ok h4
  have hp : 0 ≤ ((t.size : Int) - 1) * (g.geom t).q.toInt := mul_nonneg (by omega) hq.le
  have hc := clamp_mem (x := v) (lo := (g.geom t).v0.toInt)
    (hi := (g.geom t).v0.toInt + ((t.size : Int) - 1) * (g.geom t).q.toInt) (by omega)
  have hi := tdiv_index_le hq (by omega) (show _ ≤ ((t.size : Int) - 1) * (g.geom t).q.toInt from by
    have := hc.2; omega) (d := clamp v (g.geom t).v0.toInt
      ((g.geom t).v0.toInt + ((t.size : Int) - 1) * (g.geom t).q.toInt) - (g.geom t).v0.toInt)
  split
  · exact entry (by omega)
  · exact notStuck_bind (entry (by omega)) fun _ _ => notStuck_bind (entry (by omega)) fun _ _ =>
      notStuck_bind (notStuck_chk _) fun _ _ => notStuck_bind (notStuck_chk _) fun _ _ =>
        notStuck_bind (notStuck_tdiv hq.ne') fun _ _ => notStuck_chk _

/-! ## The envelope detector, R261 -/

/-- What a detector step returns, over the table values and the two filter steps it used. -/
theorem envFun_eq_ok {g : Cfg} {tb : Tables} {b b' : Bank} {e y : Int} (h : envFun g tb b e = .ok (b', y)) :
    ∃ ec att1 al1 a1 s1 r1 al2 s2 r2 : Int,
      ec = clamp e g.geomE1Att.v0.toInt (g.geomE1Att.v0.toInt + 975 * g.geomE1Att.q.toInt) ∧
      interp g tb .e1Att ec = .ok att1 ∧ interp g tb .e1Alpha ec = .ok al1 ∧
      fxmul ec att1 g.muxE1Att.toInt = .ok a1 ∧
      dcfStep b.envS1.toInt b.envR1.toInt a1 al1 g.muxE1Alpha.toInt = .ok (s1, r1) ∧
      interp g tb .e2Alpha s1 = .ok al2 ∧
      dcfStep b.envS2.toInt b.envR2.toInt s1 al2 g.muxE2Alpha.toInt = .ok (s2, r2) ∧
      fits (s1 - g.vd.toInt) ∧ y = (diodeFloor s2 r2 (s1 - g.vd.toInt)).1 ∧
      b' = { b with
        envS1 := w64 s1
        envR1 := w64 r1
        envS2 := w64 y
        envR2 := w64 (diodeFloor s2 r2 (s1 - g.vd.toInt)).2
        cv := w64 y } := by
  obtain ⟨sp, h1, h⟩ := except_bind_eq_ok.mp h
  obtain ⟨hi, h2, h⟩ := except_bind_eq_ok.mp h
  obtain ⟨att1, h3, h⟩ := except_bind_eq_ok.mp h
  obtain ⟨al1, h4, h⟩ := except_bind_eq_ok.mp h
  obtain ⟨a1, h5, h⟩ := except_bind_eq_ok.mp h
  obtain ⟨⟨s1, r1⟩, h6, h⟩ := except_bind_eq_ok.mp h
  obtain ⟨al2, h7, h⟩ := except_bind_eq_ok.mp h
  obtain ⟨⟨s2, r2⟩, h8, h⟩ := except_bind_eq_ok.mp h
  obtain ⟨fl, h9, h⟩ := except_bind_eq_ok.mp h
  obtain ⟨-, rfl⟩ := chk_eq_ok_iff.mp h1
  obtain ⟨-, rfl⟩ := chk_eq_ok_iff.mp h2
  obtain ⟨f9, rfl⟩ := chk_eq_ok_iff.mp h9
  simp only [Except.ok.injEq, Prod.mk.injEq] at h
  obtain ⟨rfl, rfl⟩ := h
  exact ⟨_, att1, al1, a1, s1, r1, al2, s2, r2, rfl, h3, h4, h5, h6, h7, h8, f9, rfl, rfl⟩

/-- With positive multipliers and steps and full tables the detector is not stuck. -/
theorem notStuck_envFun {g : Cfg} {tb : Tables} (b : Bank) (e : Int) (h1 : g.muxE1Att.toInt ≠ 0)
    (h2 : g.muxE1Alpha.toInt ≠ 0) (h3 : g.muxE2Alpha.toInt ≠ 0) (hq : ∀ t, 0 < (g.geom t).q.toInt)
    (hf : ∀ t i, i < t.size → ∃ w, tb.read t i = some w) : NotStuck (envFun g tb b e) :=
  notStuck_bind (notStuck_chk _) fun _ _ => notStuck_bind (notStuck_chk _) fun _ _ =>
    notStuck_bind (notStuck_interp _ (hq _) (hf _)) fun _ _ =>
      notStuck_bind (notStuck_interp _ (hq _) (hf _)) fun _ _ => notStuck_bind (notStuck_fxmul h1) fun _ _ =>
        notStuck_bind (notStuck_dcfStep h2) fun _ _ => notStuck_bind (notStuck_interp _ (hq _) (hf _)) fun _ _ =>
          notStuck_bind (notStuck_dcfStep h3) fun _ _ => notStuck_bind (notStuck_chk _) fun _ _ => notStuck_ok _

/-! ## The side path, R281 and R282 -/

/-- A property that every run of the stage keeps is kept by its repetition, and the output is one of the stage's. -/
theorem repeatStage_induction {f : Bank → Except Stop (Bank × Int)} {P : Bank → Prop} {Q : Int → Prop}
    (hf : ∀ b b' y, P b → f b = .ok (b', y) → P b' ∧ Q y) :
    ∀ {n : Nat} {b b' : Bank} {y : Int}, P b → repeatStage f n b = .ok (b', y) → P b' ∧ Q y
  | 0, _, _, _, _, h => nomatch h
  | 1, _, _, _, hb, h => hf _ _ _ hb h
  | n + 2, b, b', y, hb, h => by
    rw [repeatStage] at h
    obtain ⟨⟨b1, y1⟩, h1, h⟩ := except_bind_eq_ok.mp h
    exact repeatStage_induction hf (n := n + 1) (hf _ _ _ hb h1).1 h

theorem notStuck_repeatStage {f : Bank → Except Stop (Bank × Int)} (hf : ∀ b, NotStuck (f b)) :
    ∀ {n : Nat} (b : Bank), n ≠ 0 → NotStuck (repeatStage f n b)
  | 0, _, h => absurd rfl h
  | 1, b, _ => hf b
  | n + 2, b, _ => by
    rw [repeatStage]
    exact notStuck_bind (hf b) fun _ _ => notStuck_repeatStage hf (n := n + 1) _ (by omega)

/-- What one pass returns, over its stages: the input stage, the sliding filter and tap, the potentiometer branch
and the envelope feed. -/
theorem spPass_eq_ok {g : Cfg} {tb : Tables} {n : Nat} {u0 sum : Int} {b b' : Bank}
    (h : spPass g tb n u0 b = .ok (b', sum)) :
    ∃ (b1 b2 b3 : Bank) (u1 v att alpha oatt hs tap br1 br2 : Int),
      spInput g b u0 = .ok (b1, u1) ∧ tableVoltage g b1 = .ok v ∧ interp g tb .att v = .ok att ∧
      interp g tb .alpha v = .ok alpha ∧ interp g tb .oatt v = .ok oatt ∧
      spSliding g b1 u1 att alpha n = .ok (b2, hs, tap) ∧ fxmul hs oatt g.muxAtt.toInt = .ok br1 ∧
      spBranch2 g b2 tap = .ok (b3, br2) ∧ fits sum ∧ sum = br1 + br2 ∧ spEnvelope g tb b3 sum = .ok b' := by
  obtain ⟨⟨b1, u1⟩, h1, h⟩ := except_bind_eq_ok.mp h
  obtain ⟨v, h2, h⟩ := except_bind_eq_ok.mp h
  obtain ⟨att, h3, h⟩ := except_bind_eq_ok.mp h
  obtain ⟨alpha, h4, h⟩ := except_bind_eq_ok.mp h
  obtain ⟨oatt, h5, h⟩ := except_bind_eq_ok.mp h
  obtain ⟨⟨b2, hs, tap⟩, h6, h⟩ := except_bind_eq_ok.mp h
  obtain ⟨br1, h7, h⟩ := except_bind_eq_ok.mp h
  obtain ⟨⟨b3, br2⟩, h8, h⟩ := except_bind_eq_ok.mp h
  obtain ⟨sm, h9, h⟩ := except_bind_eq_ok.mp h
  obtain ⟨b4, h10, h⟩ := except_bind_eq_ok.mp h
  obtain ⟨f9, rfl⟩ := chk_eq_ok_iff.mp h9
  simp only [Except.ok.injEq, Prod.mk.injEq] at h
  obtain ⟨rfl, rfl⟩ := h
  exact ⟨b1, b2, b3, u1, v, att, alpha, oatt, hs, tap, br1, br2, h1, h2, h3, h4, h5, h6, h7, h8, f9, rfl, h10⟩

/-- What the sliding filter and tap return: the repeated sliding filter on some input, and the two attenuations. -/
theorem spSliding_eq_ok {g : Cfg} {b b' : Bank} {u1 att alpha hs tap : Int} {n : Nat}
    (h : spSliding g b u1 att alpha n = .ok (b', hs, tap)) :
    ((g.flt = 1 ∨ g.flt = 2) ∧ fxmul u1 att g.muxAtt.toInt = .ok tap ∧
      repeatStage (fun b => fSlf g b tap alpha) n b = .ok (b', hs)) ∨
    (¬ (g.flt = 1 ∨ g.flt = 2) ∧ repeatStage (fun b => fSlf g b u1 alpha) n b = .ok (b', hs) ∧
      fits (u1 - hs) ∧ fxmul (u1 - hs) att g.muxAtt.toInt = .ok tap) := by
  rw [spSliding] at h
  split at h
  · obtain ⟨tp, h1, h⟩ := except_bind_eq_ok.mp h
    obtain ⟨⟨b2, h2⟩, h3, h⟩ := except_bind_eq_ok.mp h
    cases h
    exact .inl ⟨‹_›, h1, h3⟩
  · obtain ⟨⟨b2, h2⟩, h3, h⟩ := except_bind_eq_ok.mp h
    dsimp only at h
    obtain ⟨df, h4, h⟩ := except_bind_eq_ok.mp h
    obtain ⟨tp, h5, h⟩ := except_bind_eq_ok.mp h
    cases h
    obtain ⟨f4, rfl⟩ := chk_eq_ok_iff.mp h4
    exact .inr ⟨‹_›, h3, f4, h5⟩

/-- What the input stage returns. -/
theorem spInput_eq_ok {g : Cfg} {b b' : Bank} {u0 u1 : Int} (h : spInput g b u0 = .ok (b', u1)) :
    ((g.flt = 1 ∨ g.flt = 3) ∧ fHpf g b .h0 u0 = .ok (b', u1)) ∨
    (¬ (g.flt = 1 ∨ g.flt = 3) ∧ b' = b ∧ u1 = u0) := by
  rw [spInput] at h
  split at h
  · exact .inl ⟨‹_›, h⟩
  · cases h
    exact .inr ⟨‹_›, rfl, rfl⟩

/-- What the potentiometer branch returns. -/
theorem spBranch2_eq_ok {g : Cfg} {b b' : Bank} {tap br2 : Int} (h : spBranch2 g b tap = .ok (b', br2)) :
    ((g.flt = 2 ∨ g.flt = 4) ∧ fHpf g b .h1 tap = .ok (b', br2)) ∨
    (¬ (g.flt = 2 ∨ g.flt = 4) ∧ b' = b ∧ br2 = tap) := by
  rw [spBranch2] at h
  split at h
  · exact .inl ⟨‹_›, h⟩
  · cases h
    exact .inr ⟨‹_›, rfl, rfl⟩

/-- What the envelope feed returns. -/
theorem spEnvelope_eq_ok {g : Cfg} {tb : Tables} {b b' : Bank} {sum : Int}
    (h : spEnvelope g tb b sum = .ok b') :
    (g.fetgnd = true ∧ b' = b) ∨
    (g.fetgnd = false ∧ ∃ e y, fxmul sum g.envgV.toInt g.envgM.toInt = .ok e ∧ envFun g tb b e = .ok (b', y)) := by
  rw [spEnvelope] at h
  cases hg : g.fetgnd with
  | true =>
    rw [hg] at h
    cases h
    exact .inl ⟨rfl, rfl⟩
  | false =>
    rw [hg] at h
    obtain ⟨e, h1, h⟩ := except_bind_eq_ok.mp h
    obtain ⟨⟨b2, y⟩, h2, h⟩ := except_bind_eq_ok.mp h
    cases h
    exact .inr ⟨rfl, e, y, h1, h2⟩

/-- What the side path returns: the last pass's sum, clipped. -/
theorem spFun_eq_ok {g : Cfg} {tb : Tables} {b b' : Bank} {x y : Int} {f : Bool}
    (h : spFun g tb b x = .ok (b', y, f)) :
    ∃ u0 sum, fxmul x g.sidampV.toInt g.sidampM.toInt = .ok u0 ∧
      repeatStage (spPass g tb (if g.upall then 1 else g.upsEff.toNat) u0)
        (if g.upall then g.upsEff.toNat else 1) b = .ok (b', sum) ∧
      y = (diodeclip g.cliplim.toInt sum).1 ∧ f = (diodeclip g.cliplim.toInt sum).2 := by
  obtain ⟨u0, h1, h⟩ := except_bind_eq_ok.mp h
  obtain ⟨⟨b2, sum⟩, h2, h⟩ := except_bind_eq_ok.mp h
  simp only [Except.ok.injEq, Prod.mk.injEq] at h
  obtain ⟨rfl, rfl, rfl⟩ := h
  exact ⟨u0, sum, h1, h2, rfl, rfl⟩

/-- The multipliers, steps and factor of a session: what keeps every stage from being stuck. -/
structure SoundSession (g : Cfg) (tb : Tables) : Prop where
  sidampM : 0 < g.sidampM.toInt
  envgM : 0 < g.envgM.toInt
  dcf : ∀ k, 0 < (g.dcf k).m.toInt
  hpf : ∀ h, 0 < (g.hpf h).m.toInt
  muxAtt : 0 < g.muxAtt.toInt
  muxAlpha : 0 < g.muxAlpha.toInt
  muxE1Att : 0 < g.muxE1Att.toInt
  muxE1Alpha : 0 < g.muxE1Alpha.toInt
  muxE2Alpha : 0 < g.muxE2Alpha.toInt
  step : ∀ t, 0 < (g.geom t).q.toInt
  cliplim : 0 < g.cliplim.toInt
  full : ∀ t i, i < t.size → ∃ w, tb.read t i = some w

theorem notStuck_fDcf {g : Cfg} {tb : Tables} (hs : SoundSession g tb) (b : Bank) (k : DcfId) (x : Int) :
    NotStuck (fDcf g b k x) :=
  notStuck_bind (notStuck_dcfStep (hs.dcf k).ne') fun _ _ => notStuck_ok _

theorem notStuck_fHpf {g : Cfg} {tb : Tables} (hs : SoundSession g tb) (b : Bank) (k : HpfId) (x : Int) :
    NotStuck (fHpf g b k x) :=
  notStuck_bind (notStuck_hpfStep (hs.hpf k).ne' (hs.dcf k.dcf).ne') fun _ _ => notStuck_ok _

theorem notStuck_fSlf {g : Cfg} {tb : Tables} (hs : SoundSession g tb) (b : Bank) (u a : Int) :
    NotStuck (fSlf g b u a) :=
  notStuck_bind (notStuck_hpfStep hs.muxAlpha.ne' (hs.dcf .k2).ne') fun _ _ => notStuck_ok _

theorem notStuck_envFun_of_sound {g : Cfg} {tb : Tables} (hs : SoundSession g tb) (b : Bank) (e : Int) :
    NotStuck (envFun g tb b e) :=
  notStuck_envFun b e hs.muxE1Att.ne' hs.muxE1Alpha.ne' hs.muxE2Alpha.ne' hs.step hs.full

theorem notStuck_spPass {g : Cfg} {tb : Tables} (hs : SoundSession g tb) {n : Nat} (hn : n ≠ 0) (u0 : Int)
    (b : Bank) : NotStuck (spPass g tb n u0 b) := by
  refine notStuck_bind ?_ fun _ _ => notStuck_bind ?_ fun _ _ =>
    notStuck_bind (notStuck_interp _ (hs.step _) (hs.full _)) fun _ _ =>
      notStuck_bind (notStuck_interp _ (hs.step _) (hs.full _)) fun _ _ =>
        notStuck_bind (notStuck_interp _ (hs.step _) (hs.full _)) fun _ _ => notStuck_bind ?_ fun _ _ =>
          notStuck_bind (notStuck_fxmul hs.muxAtt.ne') fun _ _ => notStuck_bind ?_ fun _ _ =>
            notStuck_bind (notStuck_chk _) fun _ _ => notStuck_bind ?_ fun _ _ => notStuck_ok _
  · rw [spInput]
    split
    · exact notStuck_fHpf hs _ _ _
    · exact notStuck_ok _
  · rw [tableVoltage]
    split
    · exact notStuck_ok _
    · exact notStuck_chk _
  · rw [spSliding]
    split
    · exact notStuck_bind (notStuck_fxmul hs.muxAtt.ne') fun _ _ =>
        notStuck_bind (notStuck_repeatStage (fun b => notStuck_fSlf hs b _ _) _ hn) fun _ _ => notStuck_ok _
    · exact notStuck_bind (notStuck_repeatStage (fun b => notStuck_fSlf hs b _ _) _ hn) fun _ _ =>
        notStuck_bind (notStuck_chk _) fun _ _ =>
          notStuck_bind (notStuck_fxmul hs.muxAtt.ne') fun _ _ => notStuck_ok _
  · rw [spBranch2]
    split
    · exact notStuck_fHpf hs _ _ _
    · exact notStuck_ok _
  · rw [spEnvelope]
    split
    · exact notStuck_ok _
    · exact notStuck_bind (notStuck_fxmul hs.envgM.ne') fun _ _ =>
        notStuck_bind (notStuck_envFun_of_sound hs _ _) fun _ _ => notStuck_ok _

/-- In a sound session with a factor of 1 or more the side path is not stuck. -/
theorem notStuck_spFun {g : Cfg} {tb : Tables} (hs : SoundSession g tb) (hn : g.upsEff.toNat ≠ 0) (b : Bank)
    (x : Int) : NotStuck (spFun g tb b x) := by
  refine notStuck_bind (notStuck_fxmul hs.sidampM.ne') fun u0 _ =>
    notStuck_bind (notStuck_repeatStage (fun b => notStuck_spPass hs ?_ u0 b) _ ?_) fun _ _ => notStuck_ok _
  · split <;> omega
  · split <;> omega

end Sys2Proof.Machine
end

