-- ==== Sys2Proof/Laws/Exec.lean ====
section
/-! SUPPORT. What each command can do: if `exec` answers a next state, then either a fault was taken (or the command
was inhibited, which leaves the state that taking a fault leaves), or the command had the effect written here, under
the conditions written here. -/

namespace Sys2Proof.Machine

theorem execNop_eq_next {s t : State} (h : exec .nop s = .next t) : t = s := by
  cases h
  rfl

theorem execCfgw_eq_next {n : BitVec 16} {s t : State} (h : exec (.cfgw n) s = .next t) :
    (∃ c d, t = s.raise c d) ∨ ∃ r, CfgReg.ofNum n = some r ∧ r.cls ≠ .readOnly ∧
      ¬ (r.cls = .session ∧ s.stat.started = true) ∧ t = { s with cfg := s.cfg.write r s.opa } := by
  rcases finish_eq_next_iff.mp h with h | ⟨c, d, -, h⟩
  · obtain ⟨r, h1, h⟩ := except_bind_eq_ok.mp h
    obtain ⟨_, h2, h⟩ := except_bind_eq_ok.mp h
    obtain ⟨_, h3, h⟩ := except_bind_eq_ok.mp h
    cases h
    refine .inr ⟨r, needNum_eq_ok_iff.mp h1, by simpa using demand_eq_ok_iff.mp h2, ?_, rfl⟩
    have h4 := demand_eq_ok_iff.mp h3
    rintro ⟨h5, h6⟩
    simp [h5, h6] at h4
  · exact .inl ⟨c, d, h⟩

theorem execCfgr_eq_next {n : BitVec 16} {s t : State} (h : exec (.cfgr n) s = .next t) :
    (∃ c d, t = s.raise c d) ∨ ∃ r, CfgReg.ofNum n = some r ∧ t = { s with res := s.cfg.read r } := by
  rcases finish_eq_next_iff.mp h with h | ⟨c, d, -, h⟩
  · obtain ⟨r, h1, h⟩ := except_bind_eq_ok.mp h
    cases h
    exact .inr ⟨r, needNum_eq_ok_iff.mp h1, rfl⟩
  · exact .inl ⟨c, d, h⟩

theorem execTblw_eq_next {n : BitVec 3} {i : BitVec 16} {s t : State} (h : exec (.tblw n i) s = .next t) :
    (∃ c d, t = s.raise c d) ∨ ∃ tb, TableId.ofInst n = some tb ∧ i.toNat < tb.size ∧ s.stat.started = false ∧
      t = { s with tables := s.tables.write tb i.toNat s.opa } := by
  rcases withInst_eq_next h with h | ⟨tb, hx, h⟩
  · exact .inl h
  · rcases finish_eq_next_iff.mp h with h | ⟨c, d, -, h⟩
    · obtain ⟨k, h1, h⟩ := except_bind_eq_ok.mp h
      obtain ⟨_, h2, h⟩ := except_bind_eq_ok.mp h
      cases h
      obtain ⟨h3, rfl⟩ := needIndex_eq_ok_iff.mp h1
      exact .inr ⟨tb, hx, h3, by simpa using demand_eq_ok_iff.mp h2, rfl⟩
    · exact .inl ⟨c, d, h⟩

theorem execTblr_eq_next {n : BitVec 3} {i : BitVec 16} {s t : State} (h : exec (.tblr n i) s = .next t) :
    (∃ c d, t = s.raise c d) ∨ ∃ tb v, TableId.ofInst n = some tb ∧ i.toNat < tb.size ∧
      s.tables.read tb i.toNat = some v ∧ t = { s with res := v } := by
  rcases withInst_eq_next h with h | ⟨tb, hx, h⟩
  · exact .inl h
  · rcases finish_eq_next_iff.mp h with h | ⟨c, d, -, h⟩
    · obtain ⟨k, h1, h⟩ := except_bind_eq_ok.mp h
      obtain ⟨h3, rfl⟩ := needIndex_eq_ok_iff.mp h1
      split at h
      · rename_i v hv
        cases h
        exact .inr ⟨tb, v, hx, h3, hv, rfl⟩
      · cases h
    · exact .inl ⟨c, d, h⟩

/-- START takes its own fault, or its checks pass and the session starts. -/
theorem execStart_eq_next {s t : State} (h : exec .start s = .next t) :
    (∃ c d, t = s.raiseStart c d) ∨ (s.cfg.check = .ok () ∧ s.tables.check = .ok () ∧ t = s.startSession) := by
  rw [exec, execStart] at h
  split at h
  · rename_i heq
    obtain ⟨_, h1, h2⟩ := except_bind_eq_ok.mp heq
    cases h
    exact .inr ⟨h1, h2, rfl⟩
  · cases h
    exact .inl ⟨_, _, rfl⟩
  · cases h

theorem execStop_eq_next {s t : State} (h : exec .stop s = .next t) :
    t = { s with
      stat := { s.stat.clearFault with clipf := false, started := false }
      cfg := { s.cfg with upsEff := 0 }
      chan1 := Chan.zero
      chan2 := Chan.zero
      tables := Tables.empty } := by
  cases h
  rfl

theorem execRdst_eq_next {ch : BitVec 2} {n : BitVec 16} {s t : State} (h : exec (.rdst ch n) s = .next t) :
    (∃ c d, t = s.raise c d) ∨ ∃ c r, s.stat.started = true ∧ selects s ch c ∧ StateReg.ofNum n = some r ∧
      t = { s with res := (s.chan c).read r } := by
  rcases finish_eq_next_iff.mp h with h | ⟨c, d, -, h⟩
  · obtain ⟨r, h1, h⟩ := except_bind_eq_ok.mp h
    obtain ⟨_, h2, h⟩ := except_bind_eq_ok.mp h
    obtain ⟨c, h3, h⟩ := except_bind_eq_ok.mp h
    cases h
    exact .inr ⟨c, r, needStarted_eq_ok_iff.mp h2, needChannel_eq_ok_iff.mp h3, needNum_eq_ok_iff.mp h1, rfl⟩
  · exact .inl ⟨c, d, h⟩

theorem execRdsh_eq_next {ch : BitVec 2} {n : BitVec 16} {s t : State} (h : exec (.rdsh ch n) s = .next t) :
    (∃ c d, t = s.raise c d) ∨ ∃ c f, s.stat.started = true ∧ selects s ch c ∧ BankField.ofNum n = some f ∧
      t = { s with res := (s.chan c).sh.read f } := by
  rcases finish_eq_next_iff.mp h with h | ⟨c, d, -, h⟩
  · obtain ⟨r, h1, h⟩ := except_bind_eq_ok.mp h
    obtain ⟨_, h2, h⟩ := except_bind_eq_ok.mp h
    obtain ⟨c, h3, h⟩ := except_bind_eq_ok.mp h
    cases h
    exact .inr ⟨c, r, needStarted_eq_ok_iff.mp h2, needChannel_eq_ok_iff.mp h3, needNum_eq_ok_iff.mp h1, rfl⟩
  · exact .inl ⟨c, d, h⟩

theorem execDiscard_eq_next {ch : BitVec 2} {s t : State} (h : exec (.discard ch) s = .next t) :
    (∃ c d, t = s.raise c d) ∨ ∃ c, ready s ∧ selects s ch c ∧
      t = s.setChan c { s.chan c with pend := .none } := by
  rcases finishUnlessFault_eq_next h with h | ⟨hf, h⟩
  · exact .inl h
  · obtain ⟨_, h1, h⟩ := except_bind_eq_ok.mp h
    obtain ⟨c, h2, h⟩ := except_bind_eq_ok.mp h
    cases h
    exact .inr ⟨c, ⟨needStarted_eq_ok_iff.mp h1, hf⟩, needChannel_eq_ok_iff.mp h2, rfl⟩

theorem execRtoa_eq_next {s t : State} (h : exec .rtoa s = .next t) :
    (∃ c d, t = s.raise c d) ∨ (s.stat.fault = false ∧ t = { s with opa := s.res }) := by
  rcases finishUnlessFault_eq_next h with h | ⟨hf, h⟩
  · exact .inl h
  · cases h
    exact .inr ⟨hf, rfl⟩

theorem execRtob_eq_next {s t : State} (h : exec .rtob s = .next t) :
    (∃ c d, t = s.raise c d) ∨ (s.stat.fault = false ∧ t = { s with opb := s.res }) := by
  rcases finishUnlessFault_eq_next h with h | ⟨hf, h⟩
  · exact .inl h
  · cases h
    exact .inr ⟨hf, rfl⟩

theorem execMix_eq_next {s t : State} (h : exec .mix s = .next t) :
    (∃ c d, t = s.raise c d) ∨ (ready s ∧ fits (s.opa.toInt + s.opb.toInt) ∧
      t = { s with res := w64 (s.opa.toInt + s.opb.toInt) }) := by
  rcases finishUnlessFault_eq_next h with h | ⟨hf, h⟩
  · exact .inl h
  · obtain ⟨_, h1, h⟩ := except_bind_eq_ok.mp h
    obtain ⟨y, h2, h⟩ := except_bind_eq_ok.mp h
    obtain ⟨f, rfl⟩ := chk_eq_ok_iff.mp h2
    cases h
    exact .inr ⟨⟨needStarted_eq_ok_iff.mp h1, hf⟩, f, rfl⟩

theorem execUnmix_eq_next {s t : State} (h : exec .unmix s = .next t) :
    (∃ c d, t = s.raise c d) ∨ (ready s ∧ fits (s.opa.toInt - s.opb.toInt) ∧
      t = { s with res := w64 (s.opa.toInt - s.opb.toInt) }) := by
  rcases finishUnlessFault_eq_next h with h | ⟨hf, h⟩
  · exact .inl h
  · obtain ⟨_, h1, h⟩ := except_bind_eq_ok.mp h
    obtain ⟨y, h2, h⟩ := except_bind_eq_ok.mp h
    obtain ⟨f, rfl⟩ := chk_eq_ok_iff.mp h2
    cases h
    exact .inr ⟨⟨needStarted_eq_ok_iff.mp h1, hf⟩, f, rfl⟩

theorem execClip_eq_next {s t : State} (h : exec .clip s = .next t) :
    (∃ c d, t = s.raise c d) ∨ (ready s ∧
      t = { s.setClip (diodeclip s.cfg.cliplim.toInt s.opa.toInt).2 with
        res := w64 (diodeclip s.cfg.cliplim.toInt s.opa.toInt).1 }) := by
  rcases finishUnlessFault_eq_next h with h | ⟨hf, h⟩
  · exact .inl h
  · obtain ⟨_, h1, h⟩ := except_bind_eq_ok.mp h
    cases h
    exact .inr ⟨⟨needStarted_eq_ok_iff.mp h1, hf⟩, rfl⟩

theorem execLut_eq_next {n : BitVec 3} {s t : State} (h : exec (.lut n) s = .next t) :
    (∃ c d, t = s.raise c d) ∨ ∃ tb y, ready s ∧ TableId.ofInst n = some tb ∧
      interp s.cfg s.tables tb s.opa.toInt = .ok y ∧ t = { s with res := w64 y } := by
  rcases withInst_eq_next h with h | ⟨tb, hx, h⟩
  · exact .inl h
  · rcases finishUnlessFault_eq_next h with h | ⟨hf, h⟩
    · exact .inl h
    · obtain ⟨_, h1, h⟩ := except_bind_eq_ok.mp h
      obtain ⟨y, h2, h⟩ := except_bind_eq_ok.mp h
      cases h
      exact .inr ⟨tb, y, ⟨needStarted_eq_ok_iff.mp h1, hf⟩, hx, h2, rfl⟩

theorem execDcf_eq_next {ch : BitVec 2} {k : BitVec 3} {s t : State} (h : exec (.dcf ch k) s = .next t) :
    (∃ c d, t = s.raise c d) ∨ ∃ j c b y, ready s ∧ selects s ch c ∧ DcfId.ofInst k = some j ∧
      fDcf s.cfg (s.chan c).st j s.opa.toInt = .ok (b, y) ∧ t = s.commit c b y := by
  rcases withInst_eq_next h with h | ⟨j, hx, h⟩
  · exact .inl h
  · rcases runCommit_eq_next h with h | ⟨c, b, y, hr, hc, hf, ht⟩
    · exact .inl h
    · exact .inr ⟨j, c, b, y, hr, hc, hx, hf, ht⟩

theorem execDcfC_eq_next {ch : BitVec 2} {k : BitVec 3} {s t : State} (h : exec (.dcfC ch k) s = .next t) :
    (∃ c d, t = s.raise c d) ∨ ∃ j c b y, ready s ∧ selects s ch c ∧ DcfId.ofInst k = some j ∧
      fDcf s.cfg (s.chan c).st j s.opa.toInt = .ok (b, y) ∧ t = s.check c (.dcf j) b y := by
  rcases withInst_eq_next h with h | ⟨j, hx, h⟩
  · exact .inl h
  · rcases runCheck_eq_next h with h | ⟨c, b, y, hr, hc, hf, ht⟩
    · exact .inl h
    · exact .inr ⟨j, c, b, y, hr, hc, hx, hf, ht⟩

theorem execDcfU_eq_next {ch : BitVec 2} {k : BitVec 3} {s t : State} (h : exec (.dcfU ch k) s = .next t) :
    (∃ c d, t = s.raise c d) ∨ ∃ j c, ready s ∧ selects s ch c ∧ DcfId.ofInst k = some j ∧
      (s.chan c).pend = .dcf j ∧ t = s.promote c := by
  rcases withInst_eq_next h with h | ⟨j, hx, h⟩
  · exact .inl h
  · rcases runUpdate_eq_next h with h | ⟨c, hr, hc, hp, ht⟩
    · exact .inl h
    · exact .inr ⟨j, c, hr, hc, hx, hp, ht⟩

theorem execHpf_eq_next {ch : BitVec 2} {k : BitVec 3} {s t : State} (h : exec (.hpf ch k) s = .next t) :
    (∃ c d, t = s.raise c d) ∨ ∃ j c b y, ready s ∧ selects s ch c ∧ HpfId.ofInst k = some j ∧
      fHpf s.cfg (s.chan c).st j s.opa.toInt = .ok (b, y) ∧ t = s.commit c b y := by
  rcases withInst_eq_next h with h | ⟨j, hx, h⟩
  · exact .inl h
  · rcases runCommit_eq_next h with h | ⟨c, b, y, hr, hc, hf, ht⟩
    · exact .inl h
    · exact .inr ⟨j, c, b, y, hr, hc, hx, hf, ht⟩

theorem execHpfC_eq_next {ch : BitVec 2} {k : BitVec 3} {s t : State} (h : exec (.hpfC ch k) s = .next t) :
    (∃ c d, t = s.raise c d) ∨ ∃ j c b y, ready s ∧ selects s ch c ∧ HpfId.ofInst k = some j ∧
      fHpf s.cfg (s.chan c).st j s.opa.toInt = .ok (b, y) ∧ t = s.check c (.hpf j) b y := by
  rcases withInst_eq_next h with h | ⟨j, hx, h⟩
  · exact .inl h
  · rcases runCheck_eq_next h with h | ⟨c, b, y, hr, hc, hf, ht⟩
    · exact .inl h
    · exact .inr ⟨j, c, b, y, hr, hc, hx, hf, ht⟩

theorem execHpfU_eq_next {ch : BitVec 2} {k : BitVec 3} {s t : State} (h : exec (.hpfU ch k) s = .next t) :
    (∃ c d, t = s.raise c d) ∨ ∃ j c, ready s ∧ selects s ch c ∧ HpfId.ofInst k = some j ∧
      (s.chan c).pend = .hpf j ∧ t = s.promote c := by
  rcases withInst_eq_next h with h | ⟨j, hx, h⟩
  · exact .inl h
  · rcases runUpdate_eq_next h with h | ⟨c, hr, hc, hp, ht⟩
    · exact .inl h
    · exact .inr ⟨j, c, hr, hc, hx, hp, ht⟩

theorem execSlf_eq_next {ch : BitVec 2} {s t : State} (h : exec (.slf ch) s = .next t) :
    (∃ c d, t = s.raise c d) ∨ ∃ c b y, ready s ∧ selects s ch c ∧
      fSlf s.cfg (s.chan c).st s.opa.toInt s.opb.toInt = .ok (b, y) ∧ t = s.commit c b y := by
  rw [exec, execSlf] at h
  exact runCommit_eq_next h

theorem execSlfC_eq_next {ch : BitVec 2} {s t : State} (h : exec (.slfC ch) s = .next t) :
    (∃ c d, t = s.raise c d) ∨ ∃ c b y, ready s ∧ selects s ch c ∧
      fSlf s.cfg (s.chan c).st s.opa.toInt s.opb.toInt = .ok (b, y) ∧ t = s.check c .slf b y := by
  rw [exec, execSlfC] at h
  exact runCheck_eq_next h

theorem execSlfU_eq_next {ch : BitVec 2} {s t : State} (h : exec (.slfU ch) s = .next t) :
    (∃ c d, t = s.raise c d) ∨ ∃ c, ready s ∧ selects s ch c ∧ (s.chan c).pend = .slf ∧ t = s.promote c :=
  runUpdate_eq_next h

theorem execEnv_eq_next {ch : BitVec 2} {s t : State} (h : exec (.env ch) s = .next t) :
    (∃ c d, t = s.raise c d) ∨ ∃ c b y, ready s ∧ selects s ch c ∧
      envFun s.cfg s.tables (s.chan c).st s.opa.toInt = .ok (b, y) ∧ t = s.commit c b y := by
  rw [exec, execEnv] at h
  exact runCommit_eq_next h

theorem execEnvC_eq_next {ch : BitVec 2} {s t : State} (h : exec (.envC ch) s = .next t) :
    (∃ c d, t = s.raise c d) ∨ ∃ c b y, ready s ∧ selects s ch c ∧
      envFun s.cfg s.tables (s.chan c).st s.opa.toInt = .ok (b, y) ∧ t = s.check c .env b y := by
  rw [exec, execEnvC] at h
  exact runCheck_eq_next h

theorem execEnvU_eq_next {ch : BitVec 2} {s t : State} (h : exec (.envU ch) s = .next t) :
    (∃ c d, t = s.raise c d) ∨ ∃ c, ready s ∧ selects s ch c ∧ (s.chan c).pend = .env ∧ t = s.promote c :=
  runUpdate_eq_next h

theorem execSp_eq_next {ch : BitVec 2} {s t : State} (h : exec (.sp ch) s = .next t) :
    (∃ c d, t = s.raise c d) ∨ ∃ c b y f, ready s ∧ selects s ch c ∧
      spFun s.cfg s.tables (s.chan c).st s.opa.toInt = .ok (b, y, f) ∧ t = (s.commit c b y).setClip f := by
  rcases finishUnlessFault_eq_next h with h | ⟨hf, h⟩
  · exact .inl h
  · obtain ⟨_, h1, h⟩ := except_bind_eq_ok.mp h
    obtain ⟨c, h2, h⟩ := except_bind_eq_ok.mp h
    obtain ⟨⟨b, y, f⟩, h3, h⟩ := except_bind_eq_ok.mp h
    cases h
    exact .inr ⟨c, b, y, f, ⟨needStarted_eq_ok_iff.mp h1, hf⟩, needChannel_eq_ok_iff.mp h2, h3, rfl⟩

theorem execSpC_eq_next {ch : BitVec 2} {s t : State} (h : exec (.spC ch) s = .next t) :
    (∃ c d, t = s.raise c d) ∨ ∃ c b y f, ready s ∧ selects s ch c ∧
      spFun s.cfg s.tables (s.chan c).st s.opa.toInt = .ok (b, y, f) ∧ t = (s.check c .sp b y).setClip f := by
  rcases finishUnlessFault_eq_next h with h | ⟨hf, h⟩
  · exact .inl h
  · obtain ⟨_, h1, h⟩ := except_bind_eq_ok.mp h
    obtain ⟨c, h2, h⟩ := except_bind_eq_ok.mp h
    obtain ⟨⟨b, y, f⟩, h3, h⟩ := except_bind_eq_ok.mp h
    cases h
    exact .inr ⟨c, b, y, f, ⟨needStarted_eq_ok_iff.mp h1, hf⟩, needChannel_eq_ok_iff.mp h2, h3, rfl⟩

theorem execSpU_eq_next {ch : BitVec 2} {s t : State} (h : exec (.spU ch) s = .next t) :
    (∃ c d, t = s.raise c d) ∨ ∃ c, ready s ∧ selects s ch c ∧ (s.chan c).pend = .sp ∧ t = s.promote c :=
  runUpdate_eq_next h

end Sys2Proof.Machine
end

