-- ==== Sys2Proof/Laws/HostText.lean ====
section
/-! SUPPORT. The decimal text of a binary64 value reads back as the same value, and so does a line of the calibration
cache (48_host_protocol.md R333). -/

namespace Sys2Proof.Machine

/-! ## Powers, searches and roundings -/

theorem powZ_eq (b : Nat) (k : Int) : powZ b k = (b : ℚ) ^ k := by
  cases k with
  | ofNat n => simp [powZ]
  | negSucc n => simp [powZ, zpow_negSucc]

/-- What the search for an exponent returns. -/
theorem leastExp_spec (p : Int → Bool) (n : Nat) (k : Int) :
    k ≤ leastExp p n k ∧ leastExp p n k ≤ k + n ∧ (∀ j, k ≤ j → j < leastExp p n k → p j = false) ∧
      (leastExp p n k < k + n → p (leastExp p n k) = true) := by
  induction n generalizing k with
  | zero =>
    refine ⟨le_refl k, by simp [leastExp], fun j h1 h2 => ?_, fun h => ?_⟩
    · exact absurd h2 (not_lt.mpr h1)
    · simp [leastExp] at h
  | succ n ih =>
    unfold leastExp
    split
    · rename_i hp
      refine ⟨le_refl k, by omega, fun j h1 h2 => absurd h2 (not_lt.mpr h1), fun _ => hp⟩
    · rename_i hp
      obtain ⟨h1, h2, h3, h4⟩ := ih (k + 1)
      refine ⟨by omega, by push_cast; omega, fun j hj1 hj2 => ?_, fun h => h4 (by push_cast at h; omega)⟩
      rcases eq_or_lt_of_le hj1 with rfl | hj
      · simpa using hp
      · exact h3 j (by omega) hj2

/-- Rounding to even gives an integer that is nearer than one half. -/
theorem roundEven_eq {q : ℚ} {m : Int} (h : |q - m| < 1 / 2) : roundEven q = m := by
  obtain ⟨h1, h2⟩ := abs_lt.mp h
  unfold roundEven
  rcases lt_or_ge q m with hq | hq
  · have hf : ⌊q⌋ = m - 1 := by
      rw [Int.floor_eq_iff]
      push_cast
      constructor <;> linarith
    rw [hf]
    push_cast
    rw [if_neg (by linarith), if_pos (by linarith)]
    ring
  · have hf : ⌊q⌋ = m := by
      rw [Int.floor_eq_iff]
      constructor <;> linarith
    rw [hf, if_pos (by linarith)]

/-- Rounding to even moves a value by at most one half. -/
theorem abs_roundEven_sub_le (q : ℚ) : |(roundEven q : ℚ) - q| ≤ 1 / 2 := by
  have h1 := Int.floor_le q
  have h2 := Int.lt_floor_add_one q
  unfold roundEven
  split
  · rw [abs_le]
    constructor <;> linarith
  · split
    · push_cast
      rw [abs_le]
      constructor <;> linarith
    · split <;> push_cast <;> rw [abs_le] <;> constructor <;> linarith

/-! ## The nearest pattern -/

/-- The exponent of the last bit of a pattern, and its significand. -/
theorem magValue_form {p : Nat} {x : ℚ} (h : magValue p = some x) :
    ∃ (m : Nat) (k : Int), x = m * (2 : ℚ) ^ k ∧ m < 2 ^ 53 ∧ -1074 ≤ k ∧ k ≤ 971 ∧ (k = -1074 ∨ 2 ^ 52 ≤ m) ∧
      (k + 1074).toNat * 2 ^ 52 + m = p ∧ p < 2047 * 2 ^ 52 := by
  unfold magValue at h
  split at h
  · rename_i h0
    obtain rfl := Option.some.inj h
    refine ⟨p, -1074, by rw [powZ_eq]; norm_num, by omega, le_refl _, by norm_num, .inl rfl, by norm_num, by omega⟩
  · rename_i h0
    split at h
    · rename_i h1
      obtain rfl := Option.some.inj h
      refine ⟨2 ^ 52 + p % 2 ^ 52, ((p / 2 ^ 52 : Nat) : Int) - 1075, by rw [powZ_eq]; norm_num, by omega, by omega,
        by omega, .inr (by omega), by omega, by omega⟩
    · cases h

/-- A value near enough to that of a pattern has that pattern as its nearest one. -/
theorem nearestMag_eq {p : Nat} {x q : ℚ} (hp : magValue p = some x) (hq : 0 ≤ q)
    (hx : |q - x| ≤ x * (1 / 10 ^ 16) / 2) : nearestMag q = some p := by
  obtain ⟨m, k, rfl, hm, hk1, hk2, hk, rfl, hlt⟩ := magValue_form hp
  have pos : ∀ j : Int, (0 : ℚ) < 2 ^ j := fun j => zpow_pos (by norm_num) j
  have add : ∀ i j : Int, (2 : ℚ) ^ (i + j) = 2 ^ i * 2 ^ j := fun i j => zpow_add₀ (by norm_num) i j
  have hm' : (m : ℚ) ≤ 2 ^ 53 - 1 := by
    have : m + 1 ≤ 2 ^ 53 := hm
    have : ((m + 1 : Nat) : ℚ) ≤ ((2 ^ 53 : Nat) : ℚ) := by exact_mod_cast this
    push_cast at this
    linarith
  have hm0 : (0 : ℚ) ≤ m := Nat.cast_nonneg m
  have hk0 := pos k
  -- The significand of `q` at the exponent `k` is nearer to `m` than 0.46.
  obtain ⟨y, hy⟩ : ∃ y : ℚ, q = y * 2 ^ k := ⟨q / 2 ^ k, by field_simp⟩
  subst hy
  have hd : |y - m| ≤ m * (1 / 10 ^ 16) / 2 := by
    rw [show y * 2 ^ k - m * 2 ^ k = (y - m) * 2 ^ k by ring, abs_mul, abs_of_pos hk0] at hx
    nlinarith
  have hd' := abs_le.mp hd
  have hy0 : 0 ≤ y := nonneg_of_mul_nonneg_left hq hk0
  have hsmall : |y - m| < 1 / 2 := by
    refine lt_of_le_of_lt hd ?_
    nlinarith
  have hylt : y < 2 ^ 53 := by nlinarith
  obtain ⟨s1, s2, s3, s4⟩ := leastExp_spec (fun j => decide (y * 2 ^ k < powZ 2 (j + 53))) 2046 (-1074)
  unfold nearestMag
  set r := leastExp (fun j => decide (y * 2 ^ k < powZ 2 (j + 53))) 2046 (-1074) with hr
  have atk : decide (y * 2 ^ k < powZ 2 (k + 53)) = true := by
    rw [decide_eq_true_eq, powZ_eq, Nat.cast_ofNat, add]
    rw [mul_comm]
    exact mul_lt_mul_of_pos_left (by exact_mod_cast hylt) hk0
  have hrk : r ≤ k := by
    by_contra hc
    have := s3 k hk1 (by omega)
    exact Bool.noConfusion (atk.symm.trans this)
  have hpr : decide (y * 2 ^ k < powZ 2 (r + 53)) = true := s4 (by push_cast; omega)
  rw [decide_eq_true_eq, powZ_eq, Nat.cast_ofNat] at hpr
  have scaled : ∀ j : Int, y * 2 ^ k * powZ 2 (-j) = y * 2 ^ (k - j) := by
    intro j
    rw [powZ_eq, Nat.cast_ofNat, mul_assoc, ← add, sub_eq_add_neg]
  simp only [scaled]
  rcases eq_or_lt_of_le hrk with hreq | hrlt
  · rw [hreq, sub_self, zpow_zero, mul_one, roundEven_eq (m := (m : Int)) (by exact_mod_cast hsmall), Int.toNat_natCast,
      if_pos hlt]
  · -- The value lies just below a power of two, one binade lower.
    have hkm : 2 ^ 52 ≤ m := by
      rcases hk with hk | hk
      · omega
      · exact hk
    have hkm' : (2 : ℚ) ^ 52 ≤ m := by exact_mod_cast hkm
    have hr1 : r = k - 1 := by
      by_contra hc
      have h1 : (2 : ℚ) ^ (r + 53) ≤ 2 ^ (k + 51) := zpow_le_zpow_right₀ (by norm_num) (by omega)
      rw [add k 51] at h1
      have h2 : y < 2 ^ (51 : Int) := by
        have := lt_of_lt_of_le hpr h1
        rw [mul_comm] at this
        exact lt_of_mul_lt_mul_left this hk0.le
      norm_num at h2
      nlinarith
    have h1 : y < 2 ^ (52 : Int) := by
      rw [hr1, show k - 1 + 53 = k + 52 by ring, add k 52, mul_comm] at hpr
      exact lt_of_mul_lt_mul_left hpr hk0.le
    norm_num at h1
    have hm52 : m = 2 ^ 52 := by
      by_contra hc
      have h3 : 2 ^ 52 + 1 ≤ m := by omega
      have h3' : (2 : ℚ) ^ 52 + 1 ≤ m := by exact_mod_cast h3
      nlinarith
    subst hm52
    rw [hr1, show k - (k - 1) = 1 by ring, zpow_one]
    have hround : roundEven (y * 2) = 9007199254740992 := by
      apply roundEven_eq
      have c1 := hd'.1
      have c2 := hd'.2
      norm_num at c1 c2 ⊢
      rw [abs_lt]
      constructor <;> linarith
    rw [hround]
    rw [show (9007199254740992 : Int).toNat = 9007199254740992 from rfl]
    have e : (k - 1 + 1074).toNat * 2 ^ 52 + 9007199254740992 = (k + 1074).toNat * 2 ^ 52 + 2 ^ 52 := by omega
    rw [e, if_pos hlt]

/-! ## Seventeen digits -/

/-- The 17 digits of a value in the range of binary64 are within half a unit of the last digit. -/
theorem digits17_near {x : ℚ} (h1 : (10 : ℚ) ^ (-324 : Int) ≤ x) (h2 : x < 10 ^ (309 : Int)) :
    |((digits17 x).1 : ℚ) * 10 ^ (digits17 x).2 - x| ≤ x * (1 / 10 ^ 16) / 2 := by
  obtain ⟨s1, s2, s3, s4⟩ := leastExp_spec (fun k => decide (x < powZ 10 (k + 1))) 640 (-324)
  have lead : leadExp x = leastExp (fun k => decide (x < powZ 10 (k + 1))) 640 (-324) := rfl
  rw [← lead] at s1 s2 s3 s4
  have up : (308 : Int) < leadExp x → False := fun hc => by
    have := s3 308 (by norm_num) hc
    rw [decide_eq_false_iff_not, powZ_eq] at this
    exact this (lt_of_lt_of_eq h2 (by rw [Nat.cast_ofNat, show (308 : Int) + 1 = 309 by norm_num]))
  have lo : (10 : ℚ) ^ leadExp x ≤ x := by
    rcases eq_or_lt_of_le s1 with h | h
    · rw [← h]
      exact h1
    · have := s3 (leadExp x - 1) (by omega) (by omega)
      rw [decide_eq_false_iff_not, powZ_eq, sub_add_cancel] at this
      simpa using this
  have pos : (0 : ℚ) < 10 ^ (leadExp x - 16) := zpow_pos (by norm_num) _
  have inv : powZ 10 (-(leadExp x - 16)) = (10 ^ (leadExp x - 16) : ℚ)⁻¹ := by
    rw [powZ_eq, Nat.cast_ofNat, zpow_neg]
  have near := abs_roundEven_sub_le (x * powZ 10 (-(leadExp x - 16)))
  have x0 : 0 < x := lt_of_lt_of_le (zpow_pos (by norm_num) _) h1
  have rpos : 0 ≤ roundEven (x * powZ 10 (-(leadExp x - 16))) := by
    have hq : 0 ≤ x * powZ 10 (-(leadExp x - 16)) := by
      rw [inv]
      positivity
    by_contra hc
    have h3 : roundEven (x * powZ 10 (-(leadExp x - 16))) ≤ -1 := by omega
    have h4 : (roundEven (x * powZ 10 (-(leadExp x - 16))) : ℚ) ≤ -1 := by exact_mod_cast h3
    have := (abs_le.mp near).1
    linarith
  have val : ((digits17 x).1 : ℚ) * 10 ^ (digits17 x).2 =
      roundEven (x * powZ 10 (-(leadExp x - 16))) * 10 ^ (leadExp x - 16) := by
    have cast : ((roundEven (x * powZ 10 (-(leadExp x - 16)))).toNat : ℚ) =
        roundEven (x * powZ 10 (-(leadExp x - 16))) := by
      exact_mod_cast congrArg (fun z : Int => (z : ℚ)) (Int.toNat_of_nonneg rpos)
    unfold digits17
    dsimp only
    split
    · rename_i hd
      rw [← cast, hd, zpow_add₀ (by norm_num : (10 : ℚ) ≠ 0)]
      push_cast
      ring
    · rw [cast]
  rw [val]
  have split16 : (10 : ℚ) ^ (leadExp x - 16) * 10 ^ 16 = 10 ^ leadExp x := by
    rw [← zpow_natCast, ← zpow_add₀ (by norm_num : (10 : ℚ) ≠ 0)]
    congr 1
    push_cast
    ring
  have e : roundEven (x * powZ 10 (-(leadExp x - 16))) * (10 : ℚ) ^ (leadExp x - 16) - x =
      (roundEven (x * powZ 10 (-(leadExp x - 16))) - x * powZ 10 (-(leadExp x - 16))) *
        10 ^ (leadExp x - 16) := by
    rw [sub_mul, inv, mul_assoc x, inv_mul_cancel₀ pos.ne', mul_one]
  rw [e, abs_mul, abs_of_pos pos]
  nlinarith

/-! ## Texts -/

theorem readNat_toDigits (n : Nat) : readNat (Nat.toDigits 10 n) = some n := by
  have h : (Nat.toDigits 10 n).all Char.isDigit = true :=
    List.all_eq_true.mpr fun c hc => Nat.isDigit_of_mem_toDigits (by norm_num) (by norm_num) hc
  have h' : (Nat.toDigits 10 n).isEmpty = false := by
    rw [List.isEmpty_eq_false_iff]
    exact Nat.toDigits_ne_nil
  rw [readNat, h, h', Nat.ofDigitChars_toDigits (by norm_num) (by norm_num)]
  rfl

/-- A digit is none of the characters that have a meaning of their own. -/
theorem digit_ne {c : Char} (h : c.isDigit = true) : c ≠ '-' ∧ c ≠ '+' ∧ c ≠ '.' ∧ c ≠ 'e' ∧ c ≠ 'E' ∧ c ≠ ' ' := by
  refine ⟨?_, ?_, ?_, ?_, ?_, ?_⟩ <;> rintro rfl <;> exact absurd h (by decide)

theorem zeros_isDigit : ∀ c ∈ List.replicate 17 '0', c.isDigit = true := by
  intro c hc
  rw [List.eq_of_mem_replicate hc]
  decide

/-- Reading digits as a signed number. -/
theorem readInt_digits {l : List Char} (h : ∀ c ∈ l, c.isDigit = true) :
    readInt l = (readNat l).map fun n => (n : Int) := by
  unfold readInt
  split
  · rename_i l'
    exact absurd (h '-' (by simp)) (by decide)
  · rfl

theorem toDigits_isDigit (n : Nat) : ∀ c ∈ Nat.toDigits 10 n, c.isDigit = true := fun _ hc =>
  Nat.isDigit_of_mem_toDigits (by norm_num) (by norm_num) hc

theorem readInt_intText (v : Int) : readInt (intText v) = some v := by
  unfold intText
  split
  · rename_i hv
    simp only [List.cons_append, List.nil_append, readInt, readNat_toDigits]
    exact congrArg some (by dsimp only; omega)
  · rw [List.nil_append, readInt_digits (toDigits_isDigit _), readNat_toDigits]
    exact congrArg some (by dsimp only; omega)

theorem readExp_intText (v : Int) : readExp ('e' :: intText v) = some v := by
  have hne : ∀ l, intText v ≠ '+' :: l := by
    intro l h
    unfold intText at h
    split at h
    · simp at h
    · have : '+' ∈ Nat.toDigits 10 v.natAbs := by
        rw [List.nil_append] at h
        rw [h]
        simp
      exact absurd (toDigits_isDigit _ _ this) (by decide)
  unfold readExp
  split
  · rename_i h
    cases h
  · rename_i l h
    exact absurd (List.cons.inj h).2 (hne l)
  · rename_i l _ h
    rw [← (List.cons.inj h).2]
    exact readInt_intText v

/-- Reading a text in scientific form. -/
theorem readMag_sciText {ds : List Char} (hne : ds ≠ []) (hd : ∀ c ∈ ds, c.isDigit = true) (e : Int) :
    readMag (sciText ds e) = some (Nat.ofDigitChars 10 ds 0 * powZ 10 e) := by
  obtain ⟨c, cs, rfl⟩ := List.exists_cons_of_ne_nil hne
  have hc := digit_ne (hd c (by simp))
  have hcs : ∀ x ∈ cs, x.isDigit = true := fun x hx => hd x (by simp [hx])
  have t : ∀ (rest : List Char), (cs ++ 'e' :: rest).takeWhile (fun c => c != 'e' && c != 'E') = cs := by
    intro rest
    rw [List.takeWhile_append_of_pos]
    · simp
    · intro x hx
      have := digit_ne (hcs x hx)
      simp [this]
  have hdot : (['.'] ++ cs).takeWhile (· != '.') = [] := by simp
  have all : readNat (c :: cs) = some (Nat.ofDigitChars 10 (c :: cs) 0) := by
    unfold readNat
    rw [if_pos]
    simp [List.all_eq_true.mpr hcs, hd c]
  simp only [sciText, List.take_succ_cons, List.take_zero, List.drop_succ_cons, List.drop_zero, readMag,
    List.cons_append, List.nil_append]
  have m : (c :: '.' :: (cs ++ 'e' :: intText (e + (((c :: cs).length : Int) - 1)))).takeWhile
      (fun c => c != 'e' && c != 'E') = c :: '.' :: cs := by
    rw [List.takeWhile_cons_of_pos (by simp [hc]), List.takeWhile_cons_of_pos (by decide), t]
  rw [m]
  have ip : (c :: '.' :: cs).takeWhile (· != '.') = [c] := by
    rw [List.takeWhile_cons_of_pos (by simp [hc])]
    simp
  rw [ip]
  have dr : (c :: '.' :: (cs ++ 'e' :: intText (e + (((c :: cs).length : Int) - 1)))).drop
      (c :: '.' :: cs).length = 'e' :: intText (e + (((c :: cs).length : Int) - 1)) := by simp
  rw [dr, readExp_intText]
  simp only [List.length_cons, List.length_nil, List.drop_succ_cons, List.drop_zero, List.cons_append,
    List.nil_append, all, zero_add]
  congr 3
  push_cast
  ring

/-- The text of a value that is not negative reads back to within half a unit of its last digit. -/
theorem readMag_magText {x : ℚ} (h0 : x = 0 ∨ (10 : ℚ) ^ (-324 : Int) ≤ x ∧ x < 10 ^ (309 : Int)) :
    ∃ q, readMag (magText x) = some q ∧ 0 ≤ q ∧ |q - x| ≤ x * (1 / 10 ^ 16) / 2 := by
  rcases h0 with rfl | ⟨h1, h2⟩
  · refine ⟨0, ?_, le_refl _, by simp⟩
    rw [magText, if_pos rfl, readMag_sciText (ds := List.replicate 17 '0') (List.cons_ne_nil _ _) zeros_isDigit]
    rw [Nat.ofDigitChars_replicate_zero]
    simp
  · have x0 : x ≠ 0 := (lt_of_lt_of_le (zpow_pos (by norm_num) _) h1).ne'
    refine ⟨((digits17 x).1 : ℚ) * 10 ^ (digits17 x).2, ?_, by positivity, digits17_near h1 h2⟩
    rw [magText, if_neg x0, readMag_sciText Nat.toDigits_ne_nil (toDigits_isDigit _),
      Nat.ofDigitChars_toDigits (by norm_num) (by norm_num), powZ_eq]
    norm_num

/-- The value of a pattern is 0 or in the range of the search for its leading digit. -/
theorem magValue_range {p : Nat} {x : ℚ} (h : magValue p = some x) :
    x = 0 ∨ (10 : ℚ) ^ (-324 : Int) ≤ x ∧ x < 10 ^ (309 : Int) := by
  obtain ⟨m, k, rfl, hm, hk1, hk2, -, -, -⟩ := magValue_form h
  rcases Nat.eq_zero_or_pos m with rfl | hm0
  · exact .inl (by simp)
  · right
    have hm1 : (1 : ℚ) ≤ m := by exact_mod_cast hm0
    have hm2 : (m : ℚ) < 2 ^ 53 := by exact_mod_cast hm
    have p0 : (0 : ℚ) < 2 ^ k := zpow_pos (by norm_num) k
    have small : 2 ^ 1074 ≤ 10 ^ 324 := by decide +kernel
    have big : 2 ^ 53 * 2 ^ 971 < 10 ^ 309 := by decide +kernel
    have l : (2 : ℚ) ^ (-1074 : Int) ≤ 2 ^ k := zpow_le_zpow_right₀ (by norm_num) hk1
    have u : (2 : ℚ) ^ k ≤ 2 ^ (971 : Int) := zpow_le_zpow_right₀ (by norm_num) hk2
    constructor
    · calc (10 : ℚ) ^ (-324 : Int) ≤ 2 ^ (-1074 : Int) := by
            rw [zpow_neg, zpow_neg]
            exact inv_anti₀ (by positivity) (by exact_mod_cast small)
        _ ≤ 2 ^ k := l
        _ ≤ m * 2 ^ k := le_mul_of_one_le_left p0.le hm1
    · calc (m : ℚ) * 2 ^ k ≤ 2 ^ 53 * 2 ^ (971 : Int) := by
            exact mul_le_mul hm2.le u p0.le (by positivity)
        _ < 10 ^ (309 : Int) := by exact_mod_cast big

/-- The first character of a text without a sign is a digit. -/
theorem magText_head (x : ℚ) : ∃ c l, magText x = c :: l ∧ c.isDigit = true := by
  have key : ∀ (ds : List Char) (e : Int), ds ≠ [] → (∀ c ∈ ds, c.isDigit = true) →
      ∃ c l, sciText ds e = c :: l ∧ c.isDigit = true := by
    intro ds e hne hd
    obtain ⟨c, cs, rfl⟩ := List.exists_cons_of_ne_nil hne
    exact ⟨c, _, rfl, hd c (by simp)⟩
  unfold magText
  split
  · exact key _ _ (List.cons_ne_nil _ _) zeros_isDigit
  · exact key _ _ Nat.toDigits_ne_nil (toDigits_isDigit _)

/-- A pattern is its sign and the rest. -/
theorem toNat_eq_sign_add (b : BitVec 64) : b.toNat = (if b.msb then 2 ^ 63 else 0) + f64Mag b := by
  rw [f64Mag, BitVec.msb_eq_decide]
  have := b.isLt
  split <;> rename_i hs <;> simp at hs <;> omega

/-- A text that does not begin with a minus sign is read as a value that is not negative. -/
theorem readF64_cons {c : Char} (hc : c ≠ '-') (l : List Char) :
    readF64 (c :: l) = ((readMag (c :: l)).bind nearestMag).map fun p => BitVec.ofNat 64 p := by
  unfold readF64
  split
  · rename_i heq
    exact absurd (List.cons.inj heq).1 hc
  · rfl

/-- A text that begins with a minus sign. -/
theorem readF64_neg (l : List Char) :
    readF64 ('-' :: l) = ((readMag l).bind nearestMag).map fun p => BitVec.ofNat 64 (2 ^ 63 + p) := rfl

/-- The text of a pattern that has a value. -/
theorem f64Text_eq {b : BitVec 64} {x : ℚ} (h : magValue (f64Mag b) = some x) :
    f64Text b = (if b.msb then ['-'] else []) ++ magText x := by
  rw [f64Text, h]

/-- A finite binary64 value reads back from its 17 digits as the same pattern (R333). -/
theorem readF64_f64Text {b : BitVec 64} (h : f64Value b ≠ none) : readF64 (f64Text b) = some b := by
  obtain ⟨x, hx⟩ : ∃ x, magValue (f64Mag b) = some x := by
    cases hm : magValue (f64Mag b) with
    | none => simp [f64Value, hm] at h
    | some x => exact ⟨x, rfl⟩
  obtain ⟨q, h1, h2, h3⟩ := readMag_magText (magValue_range hx)
  have h4 := nearestMag_eq hx h2 h3
  have hb := toNat_eq_sign_add b
  have back : ∀ n, b.toNat = n → BitVec.ofNat 64 n = b := by
    rintro _ rfl
    rw [BitVec.ofNat_toNat, BitVec.setWidth_eq]
  rw [f64Text_eq hx]
  obtain ⟨c, l, he, hc⟩ := magText_head x
  by_cases hs : b.msb = true
  · rw [if_pos hs, List.singleton_append, readF64_neg, h1, Option.bind_some, h4, Option.map_some]
    rw [if_pos hs] at hb
    exact congrArg some (back _ hb)
  · rw [if_neg hs, List.nil_append, he, readF64_cons (digit_ne hc).1, ← he, h1, Option.bind_some, h4,
      Option.map_some]
    rw [if_neg hs, zero_add] at hb
    exact congrArg some (back _ hb)

/-! ## Lines of the cache -/

theorem space_not_mem_toDigits (n : Nat) : ' ' ∉ Nat.toDigits 10 n := fun h =>
  absurd (toDigits_isDigit n _ h) (by decide)

theorem space_not_mem_intText (v : Int) : ' ' ∉ intText v := by
  intro h
  rw [intText, List.mem_append] at h
  rcases h with h | h
  · split at h <;> simp at h
  · exact space_not_mem_toDigits _ h

theorem space_not_mem_sciText {ds : List Char} (hd : ' ' ∉ ds) (e : Int) : ' ' ∉ sciText ds e := by
  intro h
  rw [sciText, List.append_assoc, List.mem_append, List.cons_append, List.mem_cons, List.mem_append,
    List.mem_cons] at h
  rcases h with h | h | h | h | h
  · exact hd (List.mem_of_mem_take h)
  · exact absurd h (by decide)
  · exact hd (List.mem_of_mem_drop h)
  · exact absurd h (by decide)
  · exact space_not_mem_intText _ h

theorem space_not_mem_f64Text (b : BitVec 64) : ' ' ∉ f64Text b := by
  intro h
  unfold f64Text at h
  split at h
  · rw [List.mem_append] at h
    rcases h with h | h
    · split at h <;> simp at h
    · unfold magText at h
      split at h
      · exact space_not_mem_sciText (by simp) _ h
      · exact space_not_mem_sciText (space_not_mem_toDigits _) _ h
  · exact absurd h (by decide)

theorem space_not_mem_field {name : String} {v : List Char} (hn : ' ' ∉ name.toList) (hv : ' ' ∉ v) :
    ' ' ∉ field name v := by
  intro h
  rw [field, List.mem_append, List.mem_cons] at h
  rcases h with h | h | h
  · exact hn h
  · exact absurd h (by decide)
  · exact hv h

/-- The value of a field is read back. -/
theorem fieldText_field (name : String) (v : List Char) : fieldText name.toList (field name v) = some v := by
  have h : (name.toList ++ ['=']).isPrefixOf (field name v) = true := by
    rw [List.isPrefixOf_iff_prefix]
    exact ⟨v, by simp [field]⟩
  rw [fieldText, if_pos h, field]
  congr 1
  rw [List.drop_append, List.drop_eq_nil_of_le (by omega), Nat.add_sub_cancel_left]
  rfl

theorem readInt64_intText (v : Word) : readInt64 (intText v.toInt) = some v := by
  rw [readInt64, readInt_intText, Option.bind_some, if_pos]
  · exact congrArg some (BitVec.ofInt_toInt)
  · have h1 := @BitVec.le_toInt 64 v
    have h2 := @BitVec.toInt_lt 64 v
    unfold Config.int64Min Config.int64Max
    constructor <;> omega

/-- A line of the cache reads back as its key and its constants, bit for bit (R333, R334). -/
theorem parseLine_cacheLine (key : CalKey) {k : Calibration} (h : f64Value k.sidAmp ≠ none) :
    parseLine (cacheLine key k) = some (key, k) := by
  have split : (cacheLine key k).toList.splitOn ' ' = lineFields key k := by
    rw [cacheLine, String.toList_ofList, List.splitOn_intercalate]
    · intro l hl
      simp only [lineFields, List.mem_cons, List.not_mem_nil, or_false] at hl
      rcases hl with rfl | rfl | rfl | rfl | rfl
      · exact space_not_mem_field (by decide) (space_not_mem_toDigits _)
      · exact space_not_mem_field (by decide) (space_not_mem_toDigits _)
      · exact space_not_mem_field (by decide) (space_not_mem_toDigits _)
      · exact space_not_mem_field (by decide) (space_not_mem_f64Text _)
      · exact space_not_mem_field (by decide) (space_not_mem_intText _)
    · exact List.cons_ne_nil _ _
  unfold parseLine
  rw [split]
  simp only [lineFields, fieldText_field, Option.bind_some, Option.bind_eq_bind, readNat_toDigits,
    readF64_f64Text h, readInt64_intText]

end Sys2Proof.Machine
end

