-- ==== Sys2Proof/Laws/Overflow.lean ====
section
/-! SUPPORT. OVERFLOW(0) is the only fault of the block that arithmetic raises (00_scope.md R14, 60_exceptions.md
R360): the stage functions raise nothing else. -/

namespace Sys2Proof.Machine

/-- Every fault of the block that the computation raises is OVERFLOW(0). -/
def OnlyOverflow {α : Type} (r : Except Stop α) : Prop := ∀ c d, r = .error (.raise c d) → c = .overflow ∧ d = 0

/-- A computation that raises only OVERFLOW and is not stuck has a value or is OVERFLOW(0). -/
theorem value_or_overflow {α : Type} {r : Except Stop α} (h : OnlyOverflow r) (hn : NotStuck r) :
    (∃ a, r = .ok a) ∨ r = .error (.raise .overflow 0) := by
  cases r with
  | ok a => exact .inl ⟨a, rfl⟩
  | error e =>
    cases e with
    | raise c d =>
      obtain ⟨rfl, rfl⟩ := h c d rfl
      exact .inr rfl
    | stuck f => exact absurd rfl (hn f)

theorem onlyOverflow_ok {α : Type} (a : α) : OnlyOverflow (.ok a) := by intro c d h; cases h

theorem onlyOverflow_stuck {α : Type} (f : Fault) : OnlyOverflow (.error (.stuck f) : Except Stop α) := by
  intro c d h; cases h

theorem onlyOverflow_bind {α β : Type} {x : Except Stop α} {g : α → Except Stop β} (hx : OnlyOverflow x)
    (hg : ∀ a, OnlyOverflow (g a)) : OnlyOverflow (x >>= g) := by
  intro c d h
  rcases except_bind_eq_error.mp h with h | ⟨a, -, h⟩
  · exact hx c d h
  · exact hg a c d h

theorem onlyOverflow_chk (v : Int) : OnlyOverflow (chk v) := by
  intro c d h
  cases (chk_eq_error_iff.mp h).2
  exact ⟨rfl, rfl⟩

theorem onlyOverflow_tdiv (a b : Int) : OnlyOverflow (tdiv a b) := by
  rw [tdiv]
  split
  · exact onlyOverflow_stuck _
  · exact onlyOverflow_chk _

theorem onlyOverflow_fxmul (x v m : Int) : OnlyOverflow (fxmul x v m) :=
  onlyOverflow_bind (onlyOverflow_chk _) fun _ => onlyOverflow_tdiv _ _

theorem onlyOverflow_entry (tb : Tables) (t : TableId) (i : Nat) : OnlyOverflow (tb.entry t i) := by
  rw [Tables.entry]
  split
  · exact onlyOverflow_ok _
  · exact onlyOverflow_stuck _

theorem onlyOverflow_interp (g : Cfg) (tb : Tables) (t : TableId) (v : Int) : OnlyOverflow (interp g tb t v) := by
  refine onlyOverflow_bind (onlyOverflow_chk _) fun _ => onlyOverflow_bind (onlyOverflow_chk _) fun _ =>
    onlyOverflow_bind (onlyOverflow_chk _) fun _ => onlyOverflow_bind (onlyOverflow_tdiv _ _) fun _ =>
      onlyOverflow_bind (onlyOverflow_chk _) fun _ => onlyOverflow_bind (onlyOverflow_chk _) fun _ => ?_
  split
  · exact onlyOverflow_entry _ _ _
  · exact onlyOverflow_bind (onlyOverflow_entry _ _ _) fun _ => onlyOverflow_bind (onlyOverflow_entry _ _ _) fun _ =>
      onlyOverflow_bind (onlyOverflow_chk _) fun _ => onlyOverflow_bind (onlyOverflow_chk _) fun _ =>
        onlyOverflow_bind (onlyOverflow_tdiv _ _) fun _ => onlyOverflow_chk _

theorem onlyOverflow_dcfStep (y r x a m : Int) : OnlyOverflow (dcfStep y r x a m) :=
  onlyOverflow_bind (onlyOverflow_chk _) fun _ => onlyOverflow_bind (onlyOverflow_chk _) fun _ =>
    onlyOverflow_bind (onlyOverflow_chk _) fun _ => onlyOverflow_bind (onlyOverflow_tdiv _ _) fun _ =>
      onlyOverflow_bind (onlyOverflow_chk _) fun _ => onlyOverflow_bind (onlyOverflow_chk _) fun _ =>
        onlyOverflow_bind (onlyOverflow_chk _) fun _ => onlyOverflow_ok _

theorem onlyOverflow_hpfStep (f : HpfFields) (x a m da dm : Int) : OnlyOverflow (hpfStep f x a m da dm) :=
  onlyOverflow_bind (onlyOverflow_chk _) fun _ => onlyOverflow_bind (onlyOverflow_chk _) fun _ =>
    onlyOverflow_bind (onlyOverflow_chk _) fun _ => onlyOverflow_bind (onlyOverflow_tdiv _ _) fun _ =>
      onlyOverflow_bind (onlyOverflow_bind (onlyOverflow_dcfStep _ _ _ _ _) fun _ =>
        onlyOverflow_bind (onlyOverflow_chk _) fun _ => onlyOverflow_ok _) fun _ => onlyOverflow_ok _

theorem onlyOverflow_fHpf (g : Cfg) (b : Bank) (k : HpfId) (x : Int) : OnlyOverflow (fHpf g b k x) :=
  onlyOverflow_bind (onlyOverflow_hpfStep _ _ _ _ _ _) fun _ => onlyOverflow_ok _

theorem onlyOverflow_fSlf (g : Cfg) (b : Bank) (u a : Int) : OnlyOverflow (fSlf g b u a) :=
  onlyOverflow_bind (onlyOverflow_hpfStep _ _ _ _ _ _) fun _ => onlyOverflow_ok _

theorem onlyOverflow_envFun (g : Cfg) (tb : Tables) (b : Bank) (e : Int) : OnlyOverflow (envFun g tb b e) :=
  onlyOverflow_bind (onlyOverflow_chk _) fun _ => onlyOverflow_bind (onlyOverflow_chk _) fun _ =>
    onlyOverflow_bind (onlyOverflow_interp _ _ _ _) fun _ => onlyOverflow_bind (onlyOverflow_interp _ _ _ _) fun _ =>
      onlyOverflow_bind (onlyOverflow_fxmul _ _ _) fun _ => onlyOverflow_bind (onlyOverflow_dcfStep _ _ _ _ _) fun _ =>
        onlyOverflow_bind (onlyOverflow_interp _ _ _ _) fun _ =>
          onlyOverflow_bind (onlyOverflow_dcfStep _ _ _ _ _) fun _ =>
            onlyOverflow_bind (onlyOverflow_chk _) fun _ => onlyOverflow_ok _

theorem onlyOverflow_repeatStage {f : Bank → Except Stop (Bank × Int)} (hf : ∀ b, OnlyOverflow (f b)) :
    ∀ (n : Nat) (b : Bank), OnlyOverflow (repeatStage f n b)
  | 0, _ => onlyOverflow_stuck _
  | 1, b => hf b
  | n + 2, b => by
    rw [repeatStage]
    exact onlyOverflow_bind (hf b) fun _ => onlyOverflow_repeatStage hf (n + 1) _

theorem onlyOverflow_spPass (g : Cfg) (tb : Tables) (n : Nat) (u0 : Int) (b : Bank) :
    OnlyOverflow (spPass g tb n u0 b) := by
  refine onlyOverflow_bind ?_ fun _ => onlyOverflow_bind ?_ fun _ => onlyOverflow_bind (onlyOverflow_interp _ _ _ _)
    fun _ => onlyOverflow_bind (onlyOverflow_interp _ _ _ _) fun _ => onlyOverflow_bind (onlyOverflow_interp _ _ _ _)
      fun _ => onlyOverflow_bind ?_ fun _ => onlyOverflow_bind (onlyOverflow_fxmul _ _ _) fun _ =>
        onlyOverflow_bind ?_ fun _ => onlyOverflow_bind (onlyOverflow_chk _) fun _ => onlyOverflow_bind ?_ fun _ =>
          onlyOverflow_ok _
  · rw [spInput]
    split
    · exact onlyOverflow_fHpf _ _ _ _
    · exact onlyOverflow_ok _
  · rw [tableVoltage]
    split
    · exact onlyOverflow_ok _
    · exact onlyOverflow_chk _
  · rw [spSliding]
    split
    · exact onlyOverflow_bind (onlyOverflow_fxmul _ _ _) fun _ =>
        onlyOverflow_bind (onlyOverflow_repeatStage (fun _ => onlyOverflow_fSlf _ _ _ _) _ _) fun _ =>
          onlyOverflow_ok _
    · exact onlyOverflow_bind (onlyOverflow_repeatStage (fun _ => onlyOverflow_fSlf _ _ _ _) _ _) fun _ =>
        onlyOverflow_bind (onlyOverflow_chk _) fun _ =>
          onlyOverflow_bind (onlyOverflow_fxmul _ _ _) fun _ => onlyOverflow_ok _
  · rw [spBranch2]
    split
    · exact onlyOverflow_fHpf _ _ _ _
    · exact onlyOverflow_ok _
  · rw [spEnvelope]
    split
    · exact onlyOverflow_ok _
    · exact onlyOverflow_bind (onlyOverflow_fxmul _ _ _) fun _ =>
        onlyOverflow_bind (onlyOverflow_envFun _ _ _ _) fun _ => onlyOverflow_ok _

theorem onlyOverflow_spFun (g : Cfg) (tb : Tables) (b : Bank) (x : Int) : OnlyOverflow (spFun g tb b x) :=
  onlyOverflow_bind (onlyOverflow_fxmul _ _ _) fun _ =>
    onlyOverflow_bind (onlyOverflow_repeatStage (fun _ => onlyOverflow_spPass _ _ _ _ _) _ _) fun _ =>
      onlyOverflow_ok _

end Sys2Proof.Machine
end

