-- ==== Sys2Proof/Laws/PerInstr.lean ====
section
/-! SUPPORT. One statement per command: its encoded word is one that R108 says spells it. -/

namespace Sys2Proof.Laws.EncodeMatches

/-- The word of `i` carries its class's match pattern (30_encoding.md R108): OP in bits 7:0, and zero in RSV and in
every field its class does not use. -/
def Statement (i : Instr) : Prop := encode i &&& (formatOf i).mask = (opOf i).setWidth 32

theorem op_and {m : CmdWord} (op : BitVec 8) (h : 0xFF#32 &&& m = 0xFF#32) : op.setWidth 32 &&& m = op.setWidth 32 := by
  have ho : op.setWidth 32 = op.setWidth 32 &&& 0xFF#32 := by
    ext k hk
    interval_cases k <;> simp
  rw [ho, BitVec.and_assoc, h]

theorem ch_and {m : CmdWord} (ch : BitVec 2) (h : 0x300#32 &&& m = 0) : ch.setWidth 32 <<< 8 &&& m = 0 := by
  have ho : ch.setWidth 32 <<< 8 = ch.setWidth 32 <<< 8 &&& 0x300#32 := by revert ch; decide
  rw [ho, BitVec.and_assoc, h]
  exact BitVec.and_zero

theorem inst_and {m : CmdWord} (inst : BitVec 3) (h : 0x1C00#32 &&& m = 0) : inst.setWidth 32 <<< 10 &&& m = 0 := by
  have ho : inst.setWidth 32 <<< 10 = inst.setWidth 32 <<< 10 &&& 0x1C00#32 := by revert inst; decide
  rw [ho, BitVec.and_assoc, h]
  exact BitVec.and_zero

theorem imm_and {m : CmdWord} (imm : BitVec 16) (h : 0xFFFF0000#32 &&& m = 0) :
    imm.setWidth 32 <<< 16 &&& m = 0 := by
  have ho : imm.setWidth 32 <<< 16 = imm.setWidth 32 <<< 16 &&& 0xFFFF0000#32 := by
    ext k hk
    interval_cases k <;> simp
  rw [ho, BitVec.and_assoc, h]
  exact BitVec.and_zero

/-- A packed word whose unused fields are zero carries its class's match pattern. -/
theorem packWord_and_mask (f : Format) (op : BitVec 8) (ch : BitVec 2) (inst : BitVec 3) (imm : BitVec 16)
    (hc : f.usesCh = false → ch = 0) (hi : f.usesInst = false → inst = 0) (hm : f.usesImm = false → imm = 0) :
    packWord op ch inst imm &&& f.mask = op.setWidth 32 := by
  have h1 : op.setWidth 32 &&& f.mask = op.setWidth 32 := op_and op (by cases f <;> decide)
  have h2 : ch.setWidth 32 <<< 8 &&& f.mask = 0 := by
    cases hf : f.usesCh with
    | true => exact ch_and ch (by cases f <;> first | decide | cases hf)
    | false => rw [hc hf]; cases f <;> decide
  have h3 : inst.setWidth 32 <<< 10 &&& f.mask = 0 := by
    cases hf : f.usesInst with
    | true => exact inst_and inst (by cases f <;> first | decide | cases hf)
    | false => rw [hi hf]; cases f <;> decide
  have h4 : imm.setWidth 32 <<< 16 &&& f.mask = 0 := by
    cases hf : f.usesImm with
    | true => exact imm_and imm (by cases f <;> first | decide | cases hf)
    | false => rw [hm hf]; cases f <;> decide
  have dist : ∀ a b c : CmdWord, (a ||| b) &&& c = (a &&& c) ||| (b &&& c) := by
    intro a b c
    rw [BitVec.and_comm, BitVec.and_or_distrib_left, BitVec.and_comm c, BitVec.and_comm c]
  rw [packWord, dist, dist, dist, h1, h2, h3, h4]
  simp

/-- A command whose class's unused fields are zero in its word satisfies the statement. -/
theorem ofFields {i : Instr}
    (h : ((formatOf i).usesCh = false → (fieldsOf i).1 = 0) ∧ ((formatOf i).usesInst = false → (fieldsOf i).2.1 = 0) ∧
      ((formatOf i).usesImm = false → (fieldsOf i).2.2 = 0)) : Statement i :=
  packWord_and_mask _ _ _ _ _ h.1 h.2.1 h.2.2

theorem nop : Statement .nop :=
  ofFields (by simp [formatOf, fieldsOf, Format.usesCh, Format.usesInst, Format.usesImm])

theorem cfgw (n : BitVec 16) : Statement (.cfgw n) :=
  ofFields (by simp [formatOf, fieldsOf, Format.usesCh, Format.usesInst, Format.usesImm])

theorem cfgr (n : BitVec 16) : Statement (.cfgr n) :=
  ofFields (by simp [formatOf, fieldsOf, Format.usesCh, Format.usesInst, Format.usesImm])

theorem tblw (t : BitVec 3) (i : BitVec 16) : Statement (.tblw t i) :=
  ofFields (by simp [formatOf, fieldsOf, Format.usesCh, Format.usesInst, Format.usesImm])

theorem tblr (t : BitVec 3) (i : BitVec 16) : Statement (.tblr t i) :=
  ofFields (by simp [formatOf, fieldsOf, Format.usesCh, Format.usesInst, Format.usesImm])

theorem start : Statement .start :=
  ofFields (by simp [formatOf, fieldsOf, Format.usesCh, Format.usesInst, Format.usesImm])

theorem stop : Statement .stop :=
  ofFields (by simp [formatOf, fieldsOf, Format.usesCh, Format.usesInst, Format.usesImm])

theorem rdst (ch : BitVec 2) (n : BitVec 16) : Statement (.rdst ch n) :=
  ofFields (by simp [formatOf, fieldsOf, Format.usesCh, Format.usesInst, Format.usesImm])

theorem rdsh (ch : BitVec 2) (n : BitVec 16) : Statement (.rdsh ch n) :=
  ofFields (by simp [formatOf, fieldsOf, Format.usesCh, Format.usesInst, Format.usesImm])

theorem discard (ch : BitVec 2) : Statement (.discard ch) :=
  ofFields (by simp [formatOf, fieldsOf, Format.usesCh, Format.usesInst, Format.usesImm])

theorem rtoa : Statement .rtoa :=
  ofFields (by simp [formatOf, fieldsOf, Format.usesCh, Format.usesInst, Format.usesImm])

theorem rtob : Statement .rtob :=
  ofFields (by simp [formatOf, fieldsOf, Format.usesCh, Format.usesInst, Format.usesImm])

theorem mix : Statement .mix :=
  ofFields (by simp [formatOf, fieldsOf, Format.usesCh, Format.usesInst, Format.usesImm])

theorem unmix : Statement .unmix :=
  ofFields (by simp [formatOf, fieldsOf, Format.usesCh, Format.usesInst, Format.usesImm])

theorem clip : Statement .clip :=
  ofFields (by simp [formatOf, fieldsOf, Format.usesCh, Format.usesInst, Format.usesImm])

theorem lut (t : BitVec 3) : Statement (.lut t) :=
  ofFields (by simp [formatOf, fieldsOf, Format.usesCh, Format.usesInst, Format.usesImm])

theorem dcf (ch : BitVec 2) (k : BitVec 3) : Statement (.dcf ch k) :=
  ofFields (by simp [formatOf, fieldsOf, Format.usesCh, Format.usesInst, Format.usesImm])

theorem dcfC (ch : BitVec 2) (k : BitVec 3) : Statement (.dcfC ch k) :=
  ofFields (by simp [formatOf, fieldsOf, Format.usesCh, Format.usesInst, Format.usesImm])

theorem dcfU (ch : BitVec 2) (k : BitVec 3) : Statement (.dcfU ch k) :=
  ofFields (by simp [formatOf, fieldsOf, Format.usesCh, Format.usesInst, Format.usesImm])

theorem hpf (ch : BitVec 2) (h : BitVec 3) : Statement (.hpf ch h) :=
  ofFields (by simp [formatOf, fieldsOf, Format.usesCh, Format.usesInst, Format.usesImm])

theorem hpfC (ch : BitVec 2) (h : BitVec 3) : Statement (.hpfC ch h) :=
  ofFields (by simp [formatOf, fieldsOf, Format.usesCh, Format.usesInst, Format.usesImm])

theorem hpfU (ch : BitVec 2) (h : BitVec 3) : Statement (.hpfU ch h) :=
  ofFields (by simp [formatOf, fieldsOf, Format.usesCh, Format.usesInst, Format.usesImm])

theorem slf (ch : BitVec 2) : Statement (.slf ch) :=
  ofFields (by simp [formatOf, fieldsOf, Format.usesCh, Format.usesInst, Format.usesImm])

theorem slfC (ch : BitVec 2) : Statement (.slfC ch) :=
  ofFields (by simp [formatOf, fieldsOf, Format.usesCh, Format.usesInst, Format.usesImm])

theorem slfU (ch : BitVec 2) : Statement (.slfU ch) :=
  ofFields (by simp [formatOf, fieldsOf, Format.usesCh, Format.usesInst, Format.usesImm])

theorem env (ch : BitVec 2) : Statement (.env ch) :=
  ofFields (by simp [formatOf, fieldsOf, Format.usesCh, Format.usesInst, Format.usesImm])

theorem envC (ch : BitVec 2) : Statement (.envC ch) :=
  ofFields (by simp [formatOf, fieldsOf, Format.usesCh, Format.usesInst, Format.usesImm])

theorem envU (ch : BitVec 2) : Statement (.envU ch) :=
  ofFields (by simp [formatOf, fieldsOf, Format.usesCh, Format.usesInst, Format.usesImm])

theorem sp (ch : BitVec 2) : Statement (.sp ch) :=
  ofFields (by simp [formatOf, fieldsOf, Format.usesCh, Format.usesInst, Format.usesImm])

theorem spC (ch : BitVec 2) : Statement (.spC ch) :=
  ofFields (by simp [formatOf, fieldsOf, Format.usesCh, Format.usesInst, Format.usesImm])

theorem spU (ch : BitVec 2) : Statement (.spU ch) :=
  ofFields (by simp [formatOf, fieldsOf, Format.usesCh, Format.usesInst, Format.usesImm])

end Sys2Proof.Laws.EncodeMatches
end

