-- ==== Sys2Proof/Laws/Session.lean ====
section
/-! SUPPORT. What START's checks guarantee (40_control.md R136), and so what holds in every state of a session that
satisfies the block's invariant. -/

namespace Sys2Proof.Machine

/-- What START's configuration checks demand holds of a configuration that passes them. -/
theorem startCondition_of_check {g : Cfg} (h : g.check = .ok ()) (k : Nat) : startCondition g k := by
  obtain ⟨_, h1, h⟩ := except_bind_eq_ok.mp h
  obtain ⟨_, h2, h⟩ := except_bind_eq_ok.mp h
  obtain ⟨_, h3, h⟩ := except_bind_eq_ok.mp h
  obtain ⟨_, h4, h⟩ := except_bind_eq_ok.mp h
  obtain ⟨_, h5, h⟩ := except_bind_eq_ok.mp h
  obtain ⟨_, h6, h⟩ := except_bind_eq_ok.mp h
  obtain ⟨_, h7, h⟩ := except_bind_eq_ok.mp h
  obtain ⟨_, h8, h⟩ := except_bind_eq_ok.mp h
  obtain ⟨_, h9, h⟩ := except_bind_eq_ok.mp h
  replace h1 := demand_eq_ok_iff.mp h1
  replace h2 := demand_eq_ok_iff.mp h2
  replace h3 := demand_eq_ok_iff.mp h3
  replace h4 := demand_eq_ok_iff.mp h4
  replace h5 := demand_eq_ok_iff.mp h5
  replace h6 := demand_eq_ok_iff.mp h6
  replace h7 := demand_eq_ok_iff.mp h7
  replace h8 := demand_eq_ok_iff.mp h8
  replace h9 := demand_eq_ok_iff.mp h9
  replace h := demand_eq_ok_iff.mp h
  unfold startCondition
  split
  · simp only [Bool.or_eq_true, beq_iff_eq] at h1
    rcases h1 with h1 | h1 <;> rw [h1] <;> decide
  · simp only [Bool.or_eq_true, beq_iff_eq] at h2
    rcases h2 with (h2 | h2) | h2 <;> rw [h2] <;> decide
  · simp only [Bool.or_eq_true, beq_iff_eq] at h3
    rcases h3 with ((h3 | h3) | h3) | h3 <;> rw [h3] <;> decide
  · simp only [bne_iff_ne, ne_eq] at h4
    intro hc
    exact h4 (BitVec.eq_of_toNat_eq hc)
  · simp only [Cfg.multipliers, List.all_cons, List.all_nil, Bool.and_eq_true, decide_eq_true_eq] at h5
    refine ⟨h5.1, h5.2.1, fun k => ?_, fun j => ?_, ?_⟩
    · cases k
      · exact h5.2.2.1
      · exact h5.2.2.2.1
      · exact h5.2.2.2.2.1
    · cases j
      · exact h5.2.2.2.2.2.1
      · exact h5.2.2.2.2.2.2.1
    · exact ⟨h5.2.2.2.2.2.2.2.1, h5.2.2.2.2.2.2.2.2.1, h5.2.2.2.2.2.2.2.2.2.1, h5.2.2.2.2.2.2.2.2.2.2.1,
        h5.2.2.2.2.2.2.2.2.2.2.2.1⟩
  · exact fun t => by simpa using List.all_eq_true.mp h6 t (mem_allTables t)
  · simpa using h7
  · simpa using h8
  · simp only [Cfg.coefs, List.all_cons, List.all_nil, Bool.and_eq_true, Coef.inRange, decide_eq_true_eq] at h9
    refine ⟨fun k => ?_, fun j => ?_⟩
    · cases k
      · exact h9.1
      · exact h9.2.1
      · exact h9.2.2.1
    · cases j
      · exact h9.2.2.2.1
      · exact h9.2.2.2.2.1
  · intro t
    have := List.all_eq_true.mp h t (mem_allTables t)
    simp only [Geom.inInt64, isInt64, Bool.and_eq_true, decide_eq_true_eq] at this
    exact this
  · trivial

/-- The factor START derives is at least 1 and fits the register (70_reset_and_hazards.md R404). -/
theorem factor_bounds {g : Cfg} (h : g.sr.toNat ≠ 0) : 1 ≤ g.factor ∧ g.factor < 2 ^ 64 := by
  unfold Cfg.factor
  have hs := g.sr.isLt
  have hu := g.ups.isLt
  split
  · rename_i hn
    have : g.ups.toNat ≠ 0 := fun hc => hn (BitVec.eq_of_toNat_eq hc)
    omega
  · refine ⟨le_max_left _ _, max_lt (by norm_num) ?_⟩
    rw [Nat.div_lt_iff_lt_mul (by omega), Config.autoRate]
    omega

/-- In a session of a state with the invariant, everything that keeps a stage from being stuck holds. -/
theorem soundSession_of_inv {s : State} (h : s.Inv) (hs : s.stat.started = true) :
    SoundSession s.cfg s.tables ∧ s.cfg.upsEff.toNat ≠ 0 := by
  obtain ⟨hc, ht, hu⟩ := h.2.1 hs
  have c := startCondition_of_check hc
  obtain ⟨m1, m2, m3, m4, m5, m6, m7, m8, m9⟩ := c 5
  refine ⟨⟨m1, m2, m3, m4, m5, m6, m7, m8, m9, c 6, c 7, fun t i hi => tables_read_of_check ht hi⟩, ?_⟩
  have hf := factor_bounds (c 4)
  rw [hu, BitVec.toNat_ofNat, Nat.mod_eq_of_lt hf.2]
  omega

end Sys2Proof.Machine
end

