-- ==== Sys2Proof/Tests/Slice0.lean ====
section
/-! SUPPORT. Tests. The words and the expected values come from the spec: 95_test_vectors.md sections 2 to 4, the
examples of 30_encoding.md R114, the corner cases of each command's rule, and hand calculation from the host's
rules. Each test names its vector or its rule. -/

namespace Sys2Proof.Tests

open Sys2Proof.Machine

/-! ## Well-formedness: one ill-formed command for each check (30_encoding.md R105) -/

theorem test_wf_tblw_t6 : (Instr.tblw 6 0).wf = false := by decide
theorem test_wf_tblr_t7 : (Instr.tblr 7 0).wf = false := by decide
theorem test_wf_lut_t6 : (Instr.lut 6).wf = false := by decide
theorem test_wf_dcf_k3 : (Instr.dcf 1 3).wf = false := by decide
theorem test_wf_dcfC_k4 : (Instr.dcfC 1 4).wf = false := by decide
theorem test_wf_dcfU_k7 : (Instr.dcfU 1 7).wf = false := by decide
theorem test_wf_hpf_h2 : (Instr.hpf 1 2).wf = false := by decide
theorem test_wf_hpfC_h3 : (Instr.hpfC 1 3).wf = false := by decide
theorem test_wf_hpfU_h7 : (Instr.hpfU 1 7).wf = false := by decide
theorem test_wf_in_range : [Instr.tblw 5 0, .tblr 0 0, .lut 5, .dcf 0 2, .hpfU 3 1, .sp 3].all Instr.wf = true := by
  decide

/-! ## Decoding: one word of each command, 95_test_vectors.md section 3 -/

theorem test_decode_nop : decode 0x00000000 = .ok .nop := by decide
theorem test_decode_cfgw : decode 0x000C0001 = .ok (.cfgw 0x0C) := by decide
theorem test_decode_cfgr : decode 0x000F0002 = .ok (.cfgr 0x0F) := by decide
theorem test_decode_tblw : decode 0x03CF0C03 = .ok (.tblw 3 975) := by decide
theorem test_decode_tblr : decode 0x00000004 = .ok (.tblr 0 0) := by decide
theorem test_decode_start : decode 0x00000005 = .ok .start := by decide
theorem test_decode_stop : decode 0x00000006 = .ok .stop := by decide
theorem test_decode_rdst : decode 0x00210107 = .ok (.rdst 1 0x21) := by decide
theorem test_decode_rdsh : decode 0x00100208 = .ok (.rdsh 2 16) := by decide
theorem test_decode_discard : decode 0x00000109 = .ok (.discard 1) := by decide
theorem test_decode_rtoa : decode 0x0000000A = .ok .rtoa := by decide
theorem test_decode_rtob : decode 0x0000000B = .ok .rtob := by decide
theorem test_decode_mix : decode 0x00000010 = .ok .mix := by decide
theorem test_decode_unmix : decode 0x00000011 = .ok .unmix := by decide
theorem test_decode_clip : decode 0x00000012 = .ok .clip := by decide
theorem test_decode_lut : decode 0x00001413 = .ok (.lut 5) := by decide
theorem test_decode_dcf : decode 0x00000120 = .ok (.dcf 1 0) := by decide
theorem test_decode_dcfC : decode 0x00000921 = .ok (.dcfC 1 2) := by decide
theorem test_decode_dcfU : decode 0x00000922 = .ok (.dcfU 1 2) := by decide
theorem test_decode_hpf : decode 0x00000624 = .ok (.hpf 2 1) := by decide
theorem test_decode_hpfC : decode 0x00000125 = .ok (.hpfC 1 0) := by decide
theorem test_decode_hpfU : decode 0x00000126 = .ok (.hpfU 1 0) := by decide
theorem test_decode_slf : decode 0x00000128 = .ok (.slf 1) := by decide
theorem test_decode_slfC : decode 0x00000129 = .ok (.slfC 1) := by decide
theorem test_decode_slfU : decode 0x0000012A = .ok (.slfU 1) := by decide
theorem test_decode_env : decode 0x0000012C = .ok (.env 1) := by decide
theorem test_decode_envC : decode 0x0000012D = .ok (.envC 1) := by decide
theorem test_decode_envU : decode 0x0000012E = .ok (.envU 1) := by decide
theorem test_decode_sp : decode 0x00000130 = .ok (.sp 1) := by decide
theorem test_decode_spC : decode 0x00000231 = .ok (.spC 2) := by decide
theorem test_decode_spU : decode 0x00000132 = .ok (.spU 1) := by decide

/-- E1, E2 and E3: an unassigned OP, a reserved mode, and a NOP with IMM16 = 1 are ILLEGAL. -/
theorem test_decode_illegal :
    [0x00000014#32, 0x00000023#32, 0x00010000#32].map decode =
      [.error (.illegal 0x14), .error (.illegal 0x23), .error (.illegal 0x00)] := by decide

/-- The host's entry point reads the same words from bytes in the port's order. -/
theorem test_decode_table_word :
    decodeTableWord 32 0x03CF0C03 = some (.tblw 3 975) ∧ decodeTableWord 32 0x00000014 = none := by decide

/-! ## One step on a small state -/

/-- The state an outcome leads to. -/
def nextOf (o : Host.Outcome State Fault Refusal) : Option State :=
  match o with
  | .next s => some s
  | .fault _ => none
  | .refused _ => none

/-- The configuration TC of 95_test_vectors.md section 2. -/
def tc : Cfg :=
  { Cfg.reset with
    sr := 44100, nch := 2, bits := 16, ups := 1, sidampV := 3, sidampM := 4, envgV := 2, envgM := 1
    cliplim := 20000, vd := 200, upsEff := 1, dcf0 := ⟨1, 64⟩, dcf1 := ⟨1, 64⟩, dcf2 := ⟨1, 64⟩, hpf0 := ⟨60, 64⟩
    hpf1 := ⟨60, 64⟩, muxAtt := 1024, muxAlpha := 1024, muxE1Att := 1024, muxE1Alpha := 1024
    muxE2Alpha := 1024, geomAtt := ⟨0, 16⟩, geomAlpha := ⟨0, 16⟩, geomOatt := ⟨0, 16⟩, geomE1Att := ⟨0, 32⟩
    geomE1Alpha := ⟨0, 32⟩, geomE2Alpha := ⟨0, 32⟩ }

/-- The entries of TC's tables that the tests below read. -/
def tcTables : Tables :=
  { att := [(0, 1024), (1, 1023), (2, 1022), (1000, 24)], alpha := [(0, 1000), (1, 1000)],
    oatt := [(0, 1024), (1, 1024)], e1Att := [(100, 524), (101, 524), (187, 535), (188, 535)],
    e1Alpha := [(100, 153), (101, 153), (187, 174), (188, 175)],
    e2Alpha := [(7, 16), (8, 16), (16, 17), (17, 17)] }

/-- TC started, with OPA and OPB. -/
def run (a b : Int) : State :=
  { State.reset with
    cfg := tc, tables := tcTables, stat := { Stat.zero with started := true }, opa := w64 a, opb := w64 b }

/-- A channel with a pending trial. -/
def trialOf (p : Pend) (sh : Bank) (tout : Word) : Chan := { st := Bank.zero, sh := sh, pend := p, tout := tout }

/-- What a command leaves, seen through `f`. -/
def see {α : Type} (i : Instr) (s : State) (f : State → α) : Option α := (nextOf (exec i s)).map f

/-- STAT after a command. -/
def statAfter (i : Instr) (s : State) : Option (BitVec 32) := see i s fun t => t.stat.toWord

/-- RES and STAT after a command. -/
def resStat (i : Instr) (s : State) : Option (Int × BitVec 32) := see i s fun t => (t.res.toInt, t.stat.toWord)

/-- C13: FETSVT is a run register. C12: CLIPLIM is not. -/
theorem test_cfgw : see (.cfgw 0x0B) (run 7 0) (fun t => (t.cfg.fetsvt, t.stat.toWord)) = some (7, 1) ∧
    statAfter (.cfgw 0x0C) (run 5 0) = some 0x000C0503 := by decide

/-- C14 and C15. -/
theorem test_cfgw_faults : statAfter (.cfgw 0x0E) (run 7 0) = some 0x000E0D03 ∧
    statAfter (.cfgw 0x16) (run 7 0) = some 0x00160A03 := by decide

/-- C19. -/
theorem test_cfgr : see (.cfgr 0x03) State.reset (fun t => t.res) = some 4 ∧
    see (.cfgr 0x0F) State.reset (fun t => t.res) = some 0x534F584E47000701 := by decide

/-- C16 and C17. -/
theorem test_tblw_faults : statAfter (.tblw 0 0) (run 1 0) = some 0x80000503 ∧
    statAfter (.tblw 3 976) State.reset = some 0x03D00B02 := by decide

/-- A write from power-on, at the last entry of table 3 (R134's example word). -/
theorem test_tblw : see (.tblw 3 975) { State.reset with opa := 633 } (fun t => t.tables.e1Att) =
    some [(975, 633)] := by decide

/-- C18, and R135 on a written entry. -/
theorem test_tblr : statAfter (.tblr 0 0) State.reset = some 0x00000C02 ∧
    resStat (.tblr 0 1) (run 0 0) = some (1023, 1) := by decide

/-- C1: NCH = 0. C2's check 4: SR = 0. -/
theorem test_start_fails : statAfter .start State.reset = some 0x00010602 ∧
    statAfter .start { State.reset with cfg := { tc with sr := 0 } } = some 0x00040602 := by decide

/-- C20: STOP clears STAT, UPS_EFF and the written bits. -/
theorem test_stop : see .stop (run 5 0) (fun t => (t.stat.toWord, t.cfg.upsEff, t.tables, t.opa)) =
    some (0, 0, Tables.empty, 5) := by decide

/-- C24 and C26: an unassigned state number, and NOT_STARTED before BAD_CHANNEL. -/
theorem test_rdst_faults : statAfter (.rdst 1 17) (run 0 0) = some 0x00110A03 ∧
    statAfter (.rdst 3 0) State.reset = some 0x00070402 := by decide

/-- R138: PEND reads as its tag, C22. -/
theorem test_rdst : resStat (.rdst 1 0x20) { run 0 0 with chan1 := { Chan.zero with pend := .dcf .k2 } } =
    some (0x21, 1) := by decide

/-- R139: the shadow bank's CV, field 16. -/
theorem test_rdsh : resStat (.rdsh 2 16)
    { run 0 0 with chan2 := { Chan.zero with sh := { Bank.zero with cv := 9 } } } = some (9, 1) := by decide

/-- C27's DISCARD: PEND is 0 after it. -/
theorem test_discard : see (.discard 1) { run 0 0 with chan1 := { Chan.zero with pend := .sp } }
    (fun t => t.chan1) = some Chan.zero := by decide

/-- C28, and RTOB beside it. -/
theorem test_moves : see .rtoa { run 5 6 with res := 11 } (fun t => (t.opa, t.opb)) = some (11, 6) ∧
    see .rtob { run 5 6 with res := 11 } (fun t => (t.opa, t.opb)) = some (5, 11) := by decide

/-- M3, M5 and M8. -/
theorem test_mix : resStat .mix (run (-5) (-7)) = some (-12, 1) ∧
    resStat .mix (run (2 ^ 63 - 1) 1) = some (0, 0x00000903) ∧
    statAfter .mix { State.reset with opa := 5, opb := 6 } = some 0x00100402 := by decide

/-- M2 and M7. -/
theorem test_unmix : resStat .unmix (run 1000 250) = some (750, 1) ∧
    resStat .unmix (run 0 (-2 ^ 63)) = some (0, 0x00000903) := by decide

/-- CL1, CL2, CL4 and CL7. -/
theorem test_clip : [19999, 20000, -20000, -2 ^ 63].map (fun x => resStat .clip (run x 0)) =
    [some (19999, 1), some (20000, 5), some (-20000, 5), some (-20000, 5)] := by decide

/-- L1, L3, L4 and L6. -/
theorem test_lut : [-5, 8, 24, 2 ^ 63 - 1].map (fun v => resStat (.lut 0) (run v 0)) =
    [some (1024, 1), some (1024, 1), some (1023, 1), some (24, 1)] := by decide

/-- E5: a table id out of range. -/
theorem test_lut_bad_instance : statAfter (.lut 6) (run 0 0) = some 0x00060303 := by decide

/-- D1 and D3. -/
theorem test_dcf : see (.dcf 1 0) (run 100 0) (fun t => (t.res.toInt, t.chan1.st)) =
      some (1, { Bank.zero with dcf0Y := 1, dcf0R := 36 }) ∧
    see (.dcf 2 0) (run (-100) 0) (fun t => (t.res.toInt, t.chan2.st)) =
      some (-1, { Bank.zero with dcf0Y := w64 (-1), dcf0R := w64 (-36) }) := by decide

/-- D6. -/
theorem test_dcfC : see (.dcfC 1 0) (run 100 0) (fun t => t.chan1) =
    some (trialOf (.dcf .k0) { Bank.zero with dcf0Y := 1, dcf0R := 36 } 1) := by
  decide

/-- D7 and D8. -/
theorem test_dcfU : see (.dcfU 1 0)
      { run 100 0 with chan1 := trialOf (.dcf .k0) { Bank.zero with dcf0Y := 1, dcf0R := 36 } 1 }
      (fun t => (t.res, t.chan1.st, t.chan1.pend)) =
        some (1, { Bank.zero with dcf0Y := 1, dcf0R := 36 }, .none) ∧
    statAfter (.dcfU 1 1) { run 1 0 with chan1 := { Chan.zero with pend := .dcf .k2 } } = some 0x00210803 := by
  decide

/-- F1. -/
theorem test_hpf : see (.hpf 1 0) (run 1000 0) (fun t => (t.res, t.chan1.st)) =
    some (937, { Bank.zero with hpf0PI := 1000, hpf0PO := 923, dcf0Y := 14, dcf0R := 41 }) := by decide

/-- F4's check, and F5. -/
theorem test_hpfC : see (.hpfC 1 0) (run 1000 0) (fun t => (t.chan1.sh.hpf0PO, t.chan1.tout, t.chan1.pend)) =
    some (923, 937, .hpf .h0) ∧ statAfter (.hpf 1 2) (run 0 0) = some 0x00020303 := by decide

/-- F4's update. -/
theorem test_hpfU : see (.hpfU 1 0) { run 0 0 with chan1 := (trialOf (.hpf .h0)
        { Bank.zero with hpf0PI := 1000, hpf0PO := 923, dcf0Y := 14, dcf0R := 41 } 937) }
      (fun t => (t.res, t.chan1.st.hpf0PO, t.chan1.tout, t.chan1.pend)) =
    some (937, 923, 937, .none) := by decide

/-- S1 and S4. -/
theorem test_slf : see (.slf 1) (run 1000 1000) (fun t => (t.res, t.chan1.st)) =
      some (976, { Bank.zero with slfPI := 1000, slfPO := 961, dcf2Y := 15, dcf2R := 16 }) ∧
    see (.slf 1) (run 1000 2048) (fun t => (t.res, t.chan1.st.slfPO)) = some (2000, 1969) := by decide

/-- S3 in check mode. -/
theorem test_slfC : see (.slfC 1) (run 1000 1024) (fun t => (t.res, t.chan1.sh.slfPO, t.chan1.st, t.chan1.pend)) =
    some (1000, 985, Bank.zero, .slf) := by decide

/-- S5: SLF.U after SP.C. -/
theorem test_slfU : statAfter (.slfU 1) { run 1 0 with chan1 := { Chan.zero with pend := .sp } } =
    some 0x00050803 := by decide

/-- V1. -/
theorem test_env : see (.env 1) (run 3200 0) (fun t => (t.res, t.chan1.st)) =
    some (44, { Bank.zero with envS1 := 244, envR1 := 605, envS2 := 44, cv := 44 }) := by decide

/-- V8. -/
theorem test_envC : see (.envC 1) (run 3200 0) (fun t => (t.res, t.chan1.sh.cv, t.chan1.st, t.chan1.pend)) =
    some (44, 44, Bank.zero, .env) := by decide

/-- V9. -/
theorem test_envU : see (.envU 1) { run 0 0 with chan1 := trialOf .env { Bank.zero with cv := 44 } 44 }
    (fun t => (t.res, t.chan1.st.cv)) =
    some (44, 44) := by decide

/-- SP-1. -/
theorem test_sp : see (.sp 1) (run 4000 0) (fun t => (t.res, t.stat.toWord, t.chan1.st)) =
    some (2995, 1, { Bank.zero with
      dcf1Y := 1, dcf1R := 2, dcf2Y := 45, dcf2R := 49, hpf1PI := 71, hpf1PO := 65, slfPI := 3000, slfPO := 2884
      envS1 := 531, envR1 := 702, envS2 := 331, cv := 331 }) := by decide

/-- SP-6 and SP-12 in check mode: FETGND skips the envelope; an overflow leaves everything. -/
theorem test_spC : see (.spC 1) { run 4000 0 with cfg := { tc with fetgnd := true } }
      (fun t => (t.res, t.chan1.sh.cv, t.chan1.sh.envS1, t.chan1.pend)) = some (2995, 0, 0, .sp) ∧
    see (.spC 1) (run (2 ^ 63 - 1) 0) (fun t => (t.stat.toWord, t.chan1)) = some (0x00000903, Chan.zero) := by decide

/-- SP-16 and SP-13. -/
theorem test_spU : statAfter (.spU 1) (run 0 0) = some 0x00000803 ∧
    statAfter (.sp 3) (run 0 0) = some 0x00030203 := by decide

/-- X1: a second fault does not overwrite the first. -/
theorem test_first_fault_stays : statAfter (.cfgw 0x16)
    { run 0 0 with stat := { Stat.zero with started := true, fault := true, fcause := 8 } } = some 0x00000803 := by
  decide

/-- A command runs exactly by a write to CMD: M1 through the port. -/
theorem test_step : (nextOf (step { run 1000 250 with bus := [.write 0x1C [0x10, 0x00, 0x00, 0x00]] })).map
    (fun t => (t.res, t.bus)) = some (1250, []) := by decide

/-! ## A session with full tables -/

/-- A table of `n` equal entries. -/
def fill (n : Nat) (v : Word) : Memory := (List.range' 0 n).map fun i => (i, v)

theorem fill_wfFrom (v : Word) : ∀ n lo : Nat,
    Memory.wfFrom (lo + n) lo ((List.range' lo n).map fun i => (i, v)) = true
  | 0, _ => rfl
  | n + 1, lo => by
    have h := fill_wfFrom v n (lo + 1)
    rw [List.range'_succ, List.map_cons, Memory.wfFrom, show lo + (n + 1) = lo + 1 + n by omega, h]
    simp only [le_refl, decide_true, Bool.true_and, Bool.and_true, decide_eq_true_eq]
    omega

theorem fill_wf (n : Nat) (v : Word) : (fill n v).wf n = true := by
  have h := fill_wfFrom v n 0
  rwa [Nat.zero_add] at h

theorem fill_full (n : Nat) (v : Word) : (fill n v).full n = true := by
  rw [Memory.full, fill, beq_iff_eq, List.map_map, List.range_eq_range']
  exact List.map_id' _

/-- All six tables written, every entry 512. -/
def flat : Tables :=
  { att := fill 1001 512, alpha := fill 1001 512, oatt := fill 1001 512, e1Att := fill 976 512
    e1Alpha := fill 976 512, e2Alpha := fill 701 512 }

theorem flat_wf : flat.wf = true := by
  rw [tables_wf_iff]
  intro t
  cases t <;> exact fill_wf _ _

theorem flat_full (t : TableId) : (flat.get t).full t.size = true := by
  cases t <;> exact fill_full _ _

theorem flat_check : flat.check = .ok () := (tables_check_ok_iff flat).mpr flat_full

/-- A session with configuration `g`, started by START's own effect. -/
def live (g : Cfg) : State := ({ State.reset with cfg := g, tables := flat } : State).startSession

theorem live_inv {g : Cfg} (h : g.check = .ok ()) : (live g).Inv := by
  obtain ⟨-, -, m, -, -, -, -, m1, m2⟩ := startCondition_of_check h 5
  have hz : remaindersOk (live g).cfg Bank.zero := ⟨m .k0, m .k1, m .k2, m1, m2⟩
  have hs : (live g).stat.started = true := rfl
  refine ⟨flat_wf, fun _ => ⟨h, flat_check, rfl⟩, fun hn => absurd (hs.symm.trans hn) (by decide), ⟨rfl, rfl⟩,
    ?_, ?_⟩
  · intro c f hp
    cases c <;> exact absurd rfl hp
  · intro _ c
    cases c <;> exact ⟨hz, hz⟩

theorem tc_check : tc.check = .ok () := by decide

theorem live_ready (g : Cfg) : ready (live g) := ⟨rfl, rfl⟩

theorem run_ready (a b : Int) : ready (run a b) := ⟨rfl, rfl⟩

theorem run_selects (a b : Int) : selects (run a b) 1 .ch1 ∧ selects (run a b) 2 .ch2 :=
  ⟨⟨rfl, show (1 : Nat) ≤ 2 by decide⟩, ⟨rfl, show (2 : Nat) ≤ 2 by decide⟩⟩

/-- A state with a recorded fault. -/
def faulted : State :=
  { run 5 6 with stat := { started := true, fault := true, clipf := false, fcause := 8, fdetail := 0 } }

/-- An idle block with these events pending. -/
def waiting (ops : List BusOp) : State := { State.reset with bus := ops }

/-! ## Witnesses: for each statement with hypotheses, a concrete case that meets them, for each of its clauses -/

theorem witness_EncodeOfDecode : decode 0x00000130 = .ok (.sp 1) := by decide

theorem witness_WordSpellsByMask : 0x00000130#32 &&& (formatOf (.sp 0)).mask = (opOf (.sp 0)).setWidth 32 ∧
    0x00000130#32 &&& (formatOf (.sp 1)).mask = (opOf (.sp 1)).setWidth 32 := by decide

theorem witness_IllegalWords : opcodeRow (opField 0x00000014) = none ∧
    (opField 0x00002013 = opOf (.lut 0) ∧
      0x00002013#32 &&& (formatOf (.lut 0)).mask ≠ (opOf (.lut 0)).setWidth 32) ∧
    (opField 0x00001413 = opOf (.lut 0) ∧
      0x00001413#32 &&& (formatOf (.lut 0)).mask = (opOf (.lut 0)).setWidth 32) := by decide

theorem witness_StepRunsDecoded :
    (waiting [.write 0x1C [0x10, 0, 0, 0]]).bus = [.write 0x1C [0x10, 0, 0, 0]] ∧
    decodeBytes [0x10, 0, 0, 0] = .ok .mix ∧ (waiting []).bus = [] := by decide

theorem witness_StepRunsDecoded_illegal :
    (waiting [.write 0x1C (bytesLE 4 (0x00000014#32).toNat)]).bus = [.write 0x1C (bytesLE 4 (0x00000014#32).toNat)] ∧
    ∀ i, decode 0x00000014 ≠ .ok i := by
  refine ⟨rfl, fun i h => ?_⟩
  rw [show decode 0x00000014 = .error (.illegal 0x14) by decide] at h
  cases h

theorem witness_PortAccesses :
    (waiting [.write 0x00 (bytesLE 8 (w64 (-1)).toNat)]).bus = [.write 0x00 (bytesLE 8 (w64 (-1)).toNat)] ∧
    (waiting [.write 0x08 (bytesLE 8 (w64 5).toNat)]).bus = [.write 0x08 (bytesLE 8 (w64 5).toNat)] ∧
    (∀ p ∈ [(0x00, 8), (0x08, 8), (0x10, 8), (0x18, 4)],
      (p.1, p.2, 0) ∈ [(0x00, 8, State.reset.opa.toNat), (0x08, 8, State.reset.opb.toNat),
        (0x10, 8, State.reset.res.toNat), (0x18, 4, State.reset.stat.toWord.toNat)] ∧
      (waiting [.read p.1 p.2]).bus = [.read p.1 p.2]) := by decide

theorem witness_UnsupportedAccessRefused : (waiting [.read 0x1C 4]).bus = [.read 0x1C 4] ∧
    (waiting [.write 0x10 [1]]).bus = [.write 0x10 [1]] := by decide

theorem witness_PowerOnResets : ({ run 1 2 with bus := [.powerOn] } : State).bus = [.powerOn] := by decide

theorem witness_FaultRecording : State.reset.stat.fault = false ∧ faulted.stat.fault = true := by decide

theorem witness_FaultsArePrecise :
    ((nextOf (exec (.cfgw 0x16) State.reset)).map fun t => t.stat.fault) = some true ∧
    ((nextOf (step (waiting [.write 0x1C [0x14, 0, 0, 0]]))).map fun t => t.stat.fault) = some true ∧
    State.reset.stat.fault = false ∧ (waiting [.write 0x1C [0x14, 0, 0, 0]]).stat.fault = false := by decide

theorem witness_FirstFaultStays : faulted.stat.fault = true ∧ (nextOf (exec (.cfgr 0) faulted)).isSome = true ∧
    inhibited .mix = true ∧ ((nextOf (exec .stop faulted)).map fun t => t.stat.fault) = some false := by decide

theorem witness_BadInstanceRaised : (Instr.tblw 6 0).wf = false ∧ (Instr.dcf 1 3).wf = false ∧
    (Instr.hpf 1 2).wf = false := by decide

theorem witness_NotStartedRaised : needsStarted (.rdst 3 0x21) = true ∧ (Instr.rdst 3 0x21).wf = true ∧
    numberOk (.rdst 3 0x21) = true ∧ State.reset.stat.started = false ∧ State.reset.stat.fault = false := by decide

theorem witness_BadChannelRaised : chOf (.sp 3) = some 3 ∧ (Instr.sp 3).wf = true ∧ numberOk (.sp 3) = true ∧
    ready (run 0 0) ∧ (∀ c, ¬ selects (run 0 0) 3 c) ∧
    ∀ c, ¬ selects { run 0 0 with cfg := { tc with nch := 1 } } 2 c := by
  refine ⟨rfl, rfl, rfl, run_ready 0 0, ?_, ?_⟩ <;> intro c <;> cases c <;> unfold selects <;> decide

theorem witness_NopDoesNothing : opField 0x00000100 = 0 ∧ (0x00000100 : CmdWord) ≠ 0 := by decide

theorem witness_AssignedRegisterNumbers : CfgReg.ofNum 0x16 = none ∧ CfgReg.ofNum 0x34 = none := by decide

theorem witness_TableAccess : (0 : BitVec 3).toNat = TableId.att.num ∧ (5 : BitVec 3).toNat = TableId.e2Alpha.num ∧
    State.reset.tables.wf = true := by decide

theorem witness_StartStartsSession : ({ State.reset with cfg := tc, tables := flat } : State).tables.wf = true ∧
    (∀ k, startCondition tc k) ∧ ∀ t i, i < t.size → ∃ v, flat.read t i = some v :=
  ⟨flat_wf, startCondition_of_check tc_check, fun _ _ hi => tables_read_of_check flat_check hi⟩

theorem witness_StartReportsFirstFailure_check1 : State.reset.tables.wf = true ∧
    (∀ j, j < 1 → startCondition State.reset.cfg j) ∧ ¬ startCondition State.reset.cfg 1 := by
  refine ⟨by decide, fun j hj => ?_, fun h => ?_⟩
  · obtain rfl : j = 0 := by omega
    trivial
  · exact absurd (show State.reset.cfg.nch.toNat = 1 ∨ State.reset.cfg.nch.toNat = 2 from h) (by decide)

/-- A configuration whose only failing check is the last (C7). -/
def tcHigh : Cfg := { tc with geomAtt := ⟨0x7FFFFFFFFFFFFFFF, 16⟩ }

theorem witness_StartReportsFirstFailure_check10 :
    (∀ j, j < 10 → startCondition tcHigh j) ∧ ¬ startCondition tcHigh 10 := by
  refine ⟨fun j hj => ?_, fun h => ?_⟩
  swap
  · exact absurd (show fits (tcHigh.geomAtt.v0.toInt + 1000 * tcHigh.geomAtt.q.toInt) from (h .att).2) (by decide)
  interval_cases j
  · trivial
  · exact show (2 : Nat) = 1 ∨ (2 : Nat) = 2 by decide
  · exact show (16 : Nat) = 8 ∨ (16 : Nat) = 16 ∨ (16 : Nat) = 24 by decide
  · exact show 1 ≤ (4 : Nat) ∧ (4 : Nat) ≤ 4 by decide
  · exact show (44100 : Nat) ≠ 0 by decide
  · refine ⟨by decide, by decide, fun k => ?_, fun h => ?_, by decide, by decide, by decide, by decide, by decide⟩
    · cases k <;> decide
    · cases h <;> decide
  · intro t
    cases t <;> decide
  · exact show (0 : Int) < 20000 by decide
  · exact show (0 : Int) ≤ 200 by decide
  · refine ⟨fun k => ?_, fun h => ?_⟩
    · cases k <;> decide
    · cases h <;> decide

theorem witness_StartReportsFirstFailure_tables : (∀ k, startCondition tc k) ∧
    (0 < TableId.att.size ∧ Tables.empty.read .att 0 = none) ∧
    (0 < TableId.e2Alpha.size ∧ ({ flat with e2Alpha := [] } : Tables).read .e2Alpha 0 = none) ∧
    ∀ t' : TableId, t'.num < TableId.e2Alpha.num →
      ∀ i, i < t'.size → ∃ v, ({ flat with e2Alpha := [] } : Tables).read t' i = some v := by
  refine ⟨startCondition_of_check tc_check, by decide, by decide, fun t' ht i hi => ?_⟩
  obtain ⟨v, hv⟩ := tables_read_of_check flat_check hi
  refine ⟨v, ?_⟩
  rw [← hv]
  cases t' <;> first | rfl | exact absurd ht (by decide)

theorem witness_UpsamplingFactor : tc.ups.toNat ≠ 0 ∧ ({ tc with ups := 0 } : Cfg).ups.toNat = 0 ∧
    ({ tc with ups := 0 } : Cfg).sr.toNat ≠ 0 ∧ 200000 ≤ 5 * ({ tc with ups := 0 } : Cfg).sr.toNat := by decide

theorem witness_BankReads : selects (run 0 0) 1 .ch1 ∧ selects (run 0 0) 2 .ch2 := run_selects 0 0

theorem witness_DiscardDropsTrial : ready (run 0 0) ∧ selects (run 0 0) 2 .ch2 := ⟨run_ready 0 0, (run_selects 0 0).2⟩

theorem witness_MixerAddsAndSubtracts : ready (run (2 ^ 63 - 1) 0) ∧
    fits ((run (2 ^ 63 - 1) 0).opa.toInt + (run (2 ^ 63 - 1) 0).opb.toInt) := ⟨run_ready _ _, by decide⟩

theorem witness_ClipClamps : 0 < ({ tc with cliplim := 1 } : Cfg).cliplim.toInt := by decide

theorem witness_InterpolatorFormula : 0 < (tc.geom .att).q.toInt ∧
    fits (((TableId.att.size : Int) - 1) * (tc.geom .att).q.toInt) ∧
    fits ((tc.geom .att).v0.toInt + ((TableId.att.size : Int) - 1) * (tc.geom .att).q.toInt) ∧
    (max 0 (min 16000 (0 + ((TableId.att.size : Int) - 1) * 16)) - 0) / 16 = (TableId.att.size : Int) - 1 ∧
    tcTables.read .att 1000 = some 24 ∧
    (max 0 (min 24 (0 + ((TableId.att.size : Int) - 1) * 16)) - 0) / 16 < (TableId.att.size : Int) - 1 ∧
    tcTables.read .att 1 = some 1023 ∧ tcTables.read .att 2 = some 1022 := by decide

/-- A table whose first two entries are the extreme int64 values: their difference overflows. -/
def wild : Tables :=
  { tcTables with
    att := [(0, w64 (-2 ^ 63)), (1, w64 (2 ^ 63 - 1))], e1Att := [(100, w64 (2 ^ 62)), (101, w64 (2 ^ 62))] }

theorem witness_LutReturnsInterpolation : ready (run 24 0) ∧ (0 : BitVec 3).toNat = TableId.att.num ∧
    interp tc tcTables .att 24 = .ok 1023 ∧ interp tc wild .att 8 = .error (.raise .overflow 0) ∧
    (live tc).Inv ∧ ready (live tc) :=
  ⟨run_ready 24 0, by decide, by decide, by decide, live_inv tc_check, live_ready tc⟩

theorem witness_DcStepFormula : (0 : Int) < 1 ∧ dcfFits 0 0 100 1 64 ∧ ¬ dcfFits 0 0 (2 ^ 63 - 1) 2 1 ∧
    (fDcf tc Bank.zero .k0 100).toBool = true := by
  unfold dcfFits
  decide

theorem witness_DcFilterConverges : (0 : Int) < 64 ∧ (64 : Int) ≤ 64 ∧ |(-63 : Int)| < 64 ∧
    dcfStep 0 (-63) 100 64 64 = .ok (99, 1) ∧ fits 100 ∧ fits 64 ∧ fits (|100 - 0| * 64 + 64) := by decide

theorem witness_HighPassStepFormula : (0 : Int) < 64 ∧ hpfFits ⟨0, 0, 0, 0⟩ 1000 60 64 1 64 ∧
    ¬ hpfFits ⟨0, 0, 0, 0⟩ (2 ^ 63 - 1) 60 64 1 64 := by
  unfold hpfFits dcfFits
  decide

theorem witness_DcFilterCommands : ready (run 100 0) ∧ selects (run 100 0) 1 .ch1 ∧
    (2 : BitVec 3).toNat = DcfId.k2.num ∧ dcfFits 0 0 100 1 64 ∧
    (0 < (64 : Int) ∧ ¬ dcfFits (-1) 0 (2 ^ 63 - 1) 1 64) := by
  refine ⟨run_ready _ _, (run_selects _ _).1, by decide, ?_, ?_⟩ <;> unfold dcfFits <;> decide

theorem witness_HighPassCommands : ready (run 100 0) ∧ selects (run 100 0) 2 .ch2 ∧
    (1 : BitVec 3).toNat = HpfId.h1.num ∧ hpfFits ⟨0, 0, 0, 0⟩ 100 60 64 1 64 ∧
    ¬ hpfFits ⟨0, 1, 0, 0⟩ (2 ^ 63 - 1) 60 64 1 64 := by
  refine ⟨run_ready _ _, (run_selects _ _).2, by decide, ?_, ?_⟩ <;> unfold hpfFits dcfFits <;> decide

theorem witness_SlidingFilterCommands : ready (run 1000 2048) ∧ selects (run 1000 2048) 1 .ch1 ∧
    hpfFits ⟨0, 0, 0, 0⟩ 1000 2048 1024 1 64 ∧ ¬ hpfFits ⟨0, 0, 0, 0⟩ (2 ^ 63 - 1) 2048 1024 1 64 := by
  refine ⟨run_ready _ _, (run_selects _ _).1, ?_, ?_⟩ <;> unfold hpfFits dcfFits <;> decide

theorem witness_EnvelopeFormula : fits (975 * tc.geomE1Att.q.toInt) ∧
    fits (tc.geomE1Att.v0.toInt + 975 * tc.geomE1Att.q.toInt) ∧ interp tc tcTables .e1Att 3200 = .ok 524 ∧
    interp tc tcTables .e1Alpha 3200 = .ok 153 ∧ fits (3200 * 524) ∧ 0 < tc.muxE1Att.toInt ∧
    dcfFits 0 0 1637 153 1024 ∧ interp tc tcTables .e2Alpha 244 = .ok 16 ∧ dcfFits 0 0 244 16 1024 ∧
    fits (244 - tc.vd.toInt) := by
  unfold dcfFits
  decide

/-- A computation has a value. -/
def hasValue {α : Type} (r : Except Stop α) : Bool := r.toBool

theorem witness_StagesOwnTheirFields :
    (hasValue (fDcf tc Bank.zero .k0 100) = true ∧ BankField.dcf1Y ∉ [BankField.dcf0Y, .dcf0R]) ∧
    (hasValue (fHpf tc Bank.zero .h1 1000) = true ∧
      BankField.hpf0PO ∉ [BankField.hpf1PI, .hpf1PO, .dcf1Y, .dcf1R]) ∧
    (hasValue (fSlf tc Bank.zero 1000 1000) = true ∧
      BankField.cv ∉ [BankField.slfPI, .slfPO, .dcf2Y, .dcf2R]) ∧
    hasValue (envFun tc tcTables Bank.zero 3200) = true ∧
    BankField.dcf2R ∉ [BankField.envS1, .envR1, .envS2, .envR2, .cv] := by decide

theorem witness_EnvelopeCommands : ready (run 3200 0) ∧ selects (run 3200 0) 1 .ch1 ∧
    hasValue (envFun tc tcTables Bank.zero 3200) = true ∧
    envFun tc wild Bank.zero 3200 = .error (.raise .overflow 0) ∧ (live tc).Inv ∧ ready (live tc) ∧
    selects (live tc) 1 .ch1 :=
  ⟨run_ready _ _, (run_selects _ _).1, by decide, by decide, live_inv tc_check, live_ready tc,
    ⟨rfl, show (1 : Nat) ≤ 2 by decide⟩⟩

theorem witness_SidePathCommands : ready (run 4000 0) ∧ selects (run 4000 0) 2 .ch2 ∧
    hasValue (spFun tc tcTables Bank.zero 4000) = true ∧
    spFun tc tcTables Bank.zero (2 ^ 63 - 1) = .error (.raise .overflow 0) ∧ (live tc).Inv ∧ ready (live tc) ∧
    selects (live tc) 2 .ch2 :=
  ⟨run_ready _ _, (run_selects _ _).2, by decide, by decide, live_inv tc_check, live_ready tc,
    ⟨rfl, show (2 : Nat) ≤ 2 by decide⟩⟩

/-- A scaled input that fits, one that does not, and a run of passes with a result. -/
theorem witness_PassTopology_output : 0 < tc.sidampM.toInt ∧ 0 < tc.cliplim.toInt ∧
    ({ tc with upall := true } : Cfg).upall = true ∧ tc.upall = false ∧
    (fits (4000 * tc.sidampV.toInt) ∧
      (repeatStage (spPass tc tcTables 1 ((4000 * tc.sidampV.toInt).tdiv tc.sidampM.toInt)) 1 Bank.zero).toBool =
        true) ∧
    ¬ fits ((2 ^ 63 - 1) * tc.sidampV.toInt) ∧ 1 ≤ 1 := by decide +kernel

theorem witness_PassTopology : ∀ v ∈ [1, 2, 3, 4], ({ tc with flt := v } : Cfg).flt = v := fun _ _ => rfl

/-- TC with the FET clamped to ground. -/
def tcGnd : Cfg := { tc with fetgnd := true }

theorem witness_SilenceStaysSilent :
    (0 < tc.cliplim.toInt ∧ (∀ q, envFields q = false → Bank.zero.read q = 0) ∧
      hasValue (spFun tcGnd tcTables Bank.zero 0) = true) ∧
    (live tcGnd).Inv ∧ ready (live tcGnd) ∧ selects (live tcGnd) 1 .ch1 ∧ (live tcGnd).opa = 0 ∧
    (live tcGnd).cfg.fetgnd = true ∧ (∀ q, envFields q = false → ((live tcGnd).chan .ch1).st.read q = 0) ∧
    ∀ t ∈ [TableId.att, .alpha, .oatt], interp tcGnd flat t 0 = .ok 512 :=
  ⟨⟨by decide, fun q _ => bank_zero_read q, by decide⟩, live_inv (by decide), live_ready tcGnd,
    ⟨rfl, show (1 : Nat) ≤ 2 by decide⟩, rfl, rfl, fun q _ => bank_zero_read q, by decide +kernel⟩

theorem witness_FetClamp : tcGnd.fetgnd = true ∧ tc.fetgnd = false ∧
    hasValue (spFun tcGnd tcTables Bank.zero 4000) = true ∧ envFields .cv = true ∧
    hasValue (spPass tc flat 1 4000 Bank.zero) = true := by decide +kernel

theorem witness_SidePathFields :
    (hasValue (spFun tc tcTables Bank.zero 4000) = true ∧ tc.flt ≠ 1 ∧ tc.flt ≠ 3) ∧
    (hasValue (spFun { tc with flt := 1 } flat Bank.zero 4000) = true ∧ (1 : Word) ≠ 2 ∧ (1 : Word) ≠ 4) ∧
    hasValue (spFun tcGnd tcTables Bank.zero 4000) = true ∧ tcGnd.fetgnd = true := by decide +kernel

theorem witness_UpsampleEverythingRepeatsPasses : 1 ≤ 2 ^ 64 - 2 ∧ 2 ^ 64 - 2 + 1 < 2 ^ 64 ∧
    ({ tc with upall := true } : Cfg).upall = true := by decide

theorem witness_CheckIsolation : isCheck (.spC 1) = true ∧ (nextOf (exec (.spC 1) (run 4000 0))).isSome = true := by
  decide

theorem witness_CheckThenUpdateIsCommit : selects (run 4000 0) 1 .ch1 ∧
    ((nextOf (exec (.spC 1) (run 4000 0))).map fun t => (t.stat.fault, (nextOf (exec (.spU 1) t)).isSome)) =
      some (false, true) ∧
    (nextOf (exec (.sp 1) (run 4000 0))).isSome = true := ⟨(run_selects _ _).1, by decide, by decide⟩

theorem witness_ChannelsDoNotInteract : chOf (.dcf 1 0) = some 1 ∧ (1 : BitVec 2).toNat ≠ Channel.ch2.num ∧
    (nextOf (exec (.dcf 1 0) (run 100 0))).isSome = true := by decide

theorem witness_RegisterWriters : (nextOf (exec .mix (run 1 2))).isSome = true ∧
    (run 1 2).stat.started = true := by decide

theorem witness_StepKeepsInvariant : (live tc).Inv ∧ step (live tc) = .next (live tc) :=
  ⟨live_inv tc_check, rfl⟩

theorem witness_NeverStuck : (live tc).Inv := live_inv tc_check

/-! ## The host (48_host_protocol.md) -/

/-- Host parameters for the witnesses: a large 16-bit scale, everything else 0 or 1. -/
def hostP : HostParams :=
  { pScale8 := 1, pScale16 := ⟨2 ^ 62, by decide⟩, pScale24 := 1, pTol := fun _ => 0, sidampM := 1, envgM := 1
    clipV := 1, vd := 0, calAmp := 0, calWarm := 0, calWin := 0, sidLo := 0, sidHi := 0, fetLo := 0, fetHi := 0
    fetK := 0, fetVp := 0, fetRmin := 0, fetRmax := 0, fetC := 0, potR := 0, rcMin := 0, e1Rlo := 0, e1Rhi := 0
    e1Is := 0, e1N := 0, vt := 0, e1Rs := 0, e1C := 0, e1Vd := fun _ _ => 0, e2Rc := fun _ => 0, e2Fmax := 0
    muxTop := 0, dcfRc := fun _ => 0, hpfRc := fun _ => 0, tblV0 := fun _ => 0, tblQ := fun _ => 1 }

/-- The key of the cache line below. -/
def hostKey : CalKey := (44100, 4, 0)

/-- Constants for the cache line below; SidAmp is -1.5. -/
def hostCal : Calibration := { sidAmp := 0xBFF8000000000000, fetSvt := w64 (-7) }

/-- The host in a session whose cache holds one line. -/
def hostWorld : HostWorld :=
  { block := live tc, session := HostSession.initial, cache := [cacheLine hostKey hostCal], cacheWrites := true }

/-- R333: 17 significant digits. The value of 0xBFF8000000000000 is -1.5, that of the least pattern 2^-1074. -/
theorem test_f64Text : f64Text 0xBFF8000000000000 = "-1.5000000000000000e0".toList ∧
    f64Text 1 = "4.9406564584124654e-324".toList := by decide +kernel

/-- R333: a text with other digits, and one that is no number. -/
theorem test_readF64 : readF64 "0.1".toList = some 0x3FB999999999999A ∧
    readF64 "12e1".toList = some 0x405E000000000000 ∧ readF64 "1.2.3".toList = none ∧
    readF64 "nan".toList = none := by decide +kernel

/-- R348: the string of a configuration error comes from FCAUSE and FDETAIL; STAT of 60_exceptions.md R360. -/
theorem test_faultText : faultText 0x00010602 = "configuration error: channel count must be 1 or 2" := by decide +kernel

/-- R317 and R319 at the end of int64 (00_scope.md R14): the width of the bracket overflows, and the call fails. -/
theorem test_bracket_overflow : ((Bracket.width ⟨-(2 ^ 62) - 1, 2 ^ 62⟩).run hostWorld).1 = .error .overflow := rfl

/-- R316 with R15 and R360: dg = 16, dh = 17, and the quotient of -2^63 by -1 overflows. -/
theorem test_secant_quotient_overflow :
    ((secant ⟨-(2 ^ 60), 2 ^ 60⟩ ⟨-32, -33 - 2 ^ 59⟩ ⟨-16, -16 - 2 ^ 59⟩).run hostWorld).1 = .error .overflow := rfl

theorem test_bracket_middle : ((Bracket.middle ⟨-5, 2⟩).run hostWorld).1 = .ok (-2) := rfl

/-- R345: 8-bit samples are re-centred by 128. -/
theorem test_inScale : ((inScale hostP 8 0).run hostWorld).1 = .ok (-128) := rfl

theorem witness_OutputSaturates :
    [(8, 127), (8, 128), (8, -129), (24, -8388608), (24, 8388608)].map (fun p => outScale hostP p.1 p.2) =
      [255, 255, 0, -8388608, 8388607] := by decide

theorem witness_CalibrationIdempotent : f64Value hostCal.sidAmp ≠ none ∧
    (obtainCalibration hostP ⟨44100, 2, 16, 4, 0, false⟩ 0).run hostWorld = (.ok hostCal, hostWorld) ∧
    hostWorld.cacheWrites = true := by
  have h : f64Value hostCal.sidAmp ≠ none := by decide +kernel
  refine ⟨h, ?_, rfl⟩
  have hit : cacheLookup hostKey hostWorld.cache = some hostCal := by
    show cacheLookup hostKey [cacheLine hostKey hostCal] = _
    rw [cacheLookup, parseLine_cacheLine hostKey h]
    rfl
  show (match cacheLookup hostKey hostWorld.cache with
    | some k => pure k
    | none => _ : HostM Calibration).run hostWorld = _
  rw [hit]
  rfl

theorem witness_FailedCallRestarts : hostWorld.block.Inv ∧ ready hostWorld.block ∧
    ((encodeCall hostP 16 [[2]]).run hostWorld).1 =
      { frames := [], error := some "arithmetic overflow in the host" } ∧
    ((encodeCall hostP 16 []).run hostWorld).1 = { frames := [], error := none } :=
  ⟨live_inv tc_check, live_ready tc, by decide +kernel, by decide +kernel⟩

end Sys2Proof.Tests
end

section
/-! PROOFS. What a stage may do to a bank: it writes only the fields it owns (43_filters.md R220, 44_envelope.md
R264, 45_sidepath.md R289) and leaves every remainder below its multiplier (43_filters.md R214). -/

namespace Sys2Proof.Machine

/-- `BankStep g own b b'`: from `b` to `b'` only fields in `own` changed, and remainders below their multipliers
stayed below them. -/
structure BankStep (g : Cfg) (own : BankField → Bool) (b b' : Bank) : Prop where
  frame : ∀ f, own f = false → b'.read f = b.read f
  remainders : remaindersOk g b → remaindersOk g b'

theorem BankStep.refl (g : Cfg) (own : BankField → Bool) (b : Bank) : BankStep g own b b :=
  ⟨fun _ _ => rfl, id⟩

theorem BankStep.trans {g : Cfg} {own : BankField → Bool} {b b' b'' : Bank} (h : BankStep g own b b')
    (h' : BankStep g own b' b'') : BankStep g own b b'' :=
  ⟨fun f hf => (h'.frame f hf).trans (h.frame f hf), h'.remainders ∘ h.remainders⟩

theorem BankStep.mono {g : Cfg} {own own' : BankField → Bool} {b b' : Bank} (h : BankStep g own b b')
    (hsub : ∀ f, own' f = false → own f = false) : BankStep g own' b b' :=
  ⟨fun f hf => h.frame f (hsub f hf), h.remainders⟩

/-! ## Remainders -/

/-- The remainder that a DC filter step stores is below the step's multiplier (R214). -/
theorem dcfStep_remainder_lt {y r x a m y' r' : Int} (hm : 0 < m) (h : dcfStep y r x a m = .ok (y', r')) :
    |(w64 r').toInt| < m := by
  obtain ⟨-, -, -, -, -, hfits, -, hr⟩ := dcfStep_eq_ok h
  rw [w64_toInt hfits, hr]
  exact abs_tmod_lt hm

theorem remaindersOk_iff {g : Cfg} {b : Bank} : remaindersOk g b ↔ (∀ k, |(b.dcf k).2| < (g.dcf k).m.toInt) ∧
    |b.envR1.toInt| < g.muxE1Alpha.toInt ∧ |b.envR2.toInt| < g.muxE2Alpha.toInt := by
  constructor
  · rintro ⟨h0, h1, h2, he⟩
    refine ⟨fun k => ?_, he⟩
    cases k
    · exact h0
    · exact h1
    · exact h2
  · rintro ⟨h, he⟩
    exact ⟨h .k0, h .k1, h .k2, he⟩

@[simp] theorem dcf_setDcf_same (b : Bank) (k : DcfId) (y r : Int) :
    (b.setDcf k y r).dcf k = ((w64 y).toInt, (w64 r).toInt) := by
  cases k <;> rfl

theorem dcf_setDcf_other (b : Bank) {j k : DcfId} (y r : Int) (h : j ≠ k) : (b.setDcf k y r).dcf j = b.dcf j := by
  cases j <;> cases k <;> first | rfl | exact absurd rfl h

@[simp] theorem setDcf_envR1 (b : Bank) (k : DcfId) (y r : Int) : (b.setDcf k y r).envR1 = b.envR1 := by
  cases k <;> rfl

@[simp] theorem setDcf_envR2 (b : Bank) (k : DcfId) (y r : Int) : (b.setDcf k y r).envR2 = b.envR2 := by
  cases k <;> rfl

/-- Storing a step of DC filter k keeps the remainders below their multipliers. -/
theorem remaindersOk_setDcf {g : Cfg} {b : Bank} {k : DcfId} {y r x a y' r' : Int} (hb : remaindersOk g b)
    (h : dcfStep y r x a (g.dcf k).m.toInt = .ok (y', r')) : remaindersOk g (b.setDcf k y' r') := by
  rw [remaindersOk_iff] at hb ⊢
  obtain ⟨hdcf, henv⟩ := hb
  refine ⟨fun j => ?_, by simpa using henv⟩
  by_cases hj : j = k
  · subst hj
    simpa using dcfStep_remainder_lt ((abs_nonneg _).trans_lt (hdcf j)) h
  · rw [dcf_setDcf_other _ _ _ hj]
    exact hdcf j

/-- Of the fields that a high-pass stage writes only its DC filter's matter for the remainders. -/
theorem remaindersOk_setHpf_iff {g : Cfg} {b : Bank} {k : HpfId} {f : HpfFields} :
    remaindersOk g (b.setHpf k f) ↔ remaindersOk g (b.setDcf k.dcf f.y f.r) := by
  cases k <;> rfl

theorem remaindersOk_setSlf_iff {g : Cfg} {b : Bank} {f : HpfFields} :
    remaindersOk g (b.setSlf f) ↔ remaindersOk g (b.setDcf .k2 f.y f.r) := Iff.rfl

/-! ## The fields a stage writes -/

theorem setDcf_read {k : DcfId} {f : BankField} (b : Bank) (y r : Int) (h : dcfFields k f = false) :
    (b.setDcf k y r).read f = b.read f := by
  cases k <;> cases f <;> first | rfl | cases h

theorem setHpf_read {k : HpfId} {f : BankField} (b : Bank) (x : HpfFields) (h : hpfFields k f = false) :
    (b.setHpf k x).read f = b.read f := by
  cases k <;> cases f <;> first | rfl | cases h

theorem setSlf_read {f : BankField} (b : Bank) (x : HpfFields) (h : slfFields f = false) :
    (b.setSlf x).read f = b.read f := by
  cases f <;> first | rfl | cases h

/-! ## Each stage -/

theorem fDcf_bankStep {g : Cfg} {b b' : Bank} {k : DcfId} {x y : Int} (h : fDcf g b k x = .ok (b', y)) :
    BankStep g (dcfFields k) b b' := by
  obtain ⟨r, hstep, rfl⟩ := fDcf_eq_ok h
  exact ⟨fun f hf => setDcf_read b y r hf, fun hb => remaindersOk_setDcf hb hstep⟩

theorem fHpf_bankStep {g : Cfg} {b b' : Bank} {k : HpfId} {x y : Int} (h : fHpf g b k x = .ok (b', y)) :
    BankStep g (hpfFields k) b b' := by
  obtain ⟨f, hstep, rfl⟩ := fHpf_eq_ok h
  obtain ⟨-, -, -, -, -, -, hdcf, -⟩ := hpfStep_eq_ok hstep
  exact ⟨fun _ hf => setHpf_read b f hf, fun hb => remaindersOk_setHpf_iff.mpr (remaindersOk_setDcf hb hdcf)⟩

theorem fSlf_bankStep {g : Cfg} {b b' : Bank} {u a y : Int} (h : fSlf g b u a = .ok (b', y)) :
    BankStep g slfFields b b' := by
  obtain ⟨f, hstep, rfl⟩ := fSlf_eq_ok h
  obtain ⟨-, -, -, -, -, -, hdcf, -⟩ := hpfStep_eq_ok hstep
  exact ⟨fun _ hf => setSlf_read b f hf,
    fun hb => remaindersOk_setSlf_iff.mpr (remaindersOk_setDcf (k := .k2) hb hdcf)⟩

/-- The diode floor keeps the remainder of stage two, or clears it (44_envelope.md R262). -/
theorem diodeFloor_remainder_lt {s2 r2 fl m : Int} (hm : 0 < m) (h : |(w64 r2).toInt| < m) :
    |(w64 (diodeFloor s2 r2 fl).2).toInt| < m := by
  rw [diodeFloor]
  split
  · simpa using hm
  · exact h

theorem envFun_bankStep {g : Cfg} {tb : Tables} {b b' : Bank} {e y : Int} (h : envFun g tb b e = .ok (b', y)) :
    BankStep g envFields b b' := by
  obtain ⟨_, _, _, _, _, _, _, _, _, -, -, -, -, hstep1, -, hstep2, -, -, rfl⟩ := envFun_eq_ok h
  refine ⟨fun f hf => ?_, fun hb => ?_⟩
  · cases f <;> first | rfl | cases hf
  · obtain ⟨h0, h1, h2, he1, he2⟩ := hb
    have hm1 := (abs_nonneg _).trans_lt he1
    have hm2 := (abs_nonneg _).trans_lt he2
    exact ⟨h0, h1, h2, dcfStep_remainder_lt hm1 hstep1,
      diodeFloor_remainder_lt hm2 (dcfStep_remainder_lt hm2 hstep2)⟩

/-! ## The side path, 45_sidepath.md R282 and R289 -/

theorem repeatStage_bankStep {g : Cfg} {own : BankField → Bool} {f : Bank → Except Stop (Bank × Int)}
    (hf : ∀ b b' y, f b = .ok (b', y) → BankStep g own b b') {n : Nat} {b b' : Bank} {y : Int}
    (h : repeatStage f n b = .ok (b', y)) : BankStep g own b b' :=
  (repeatStage_induction (P := BankStep g own b) (Q := fun _ => True)
    (fun _ _ _ hb hrun => ⟨hb.trans (hf _ _ _ hrun), trivial⟩) (BankStep.refl g own b) h).1

/-- A stage of the pass owns fields that the pass owns: the sliding filter and the detector always, HPF0 in variants
1 and 3, HPF1 in variants 2 and 4 (R289). -/
theorem spFields_eq_false {flt : Word} {f : BankField} (h : spFields flt f = false) :
    slfFields f = false ∧ envFields f = false ∧ (flt = 1 ∨ flt = 3 → hpfFields .h0 f = false) ∧
      (flt = 2 ∨ flt = 4 → hpfFields .h1 f = false) := by
  simp only [spFields, Bool.or_eq_false_iff] at h
  obtain ⟨⟨⟨hslf, henv⟩, h0⟩, h1⟩ := h
  refine ⟨hslf, henv, fun hv => ?_, fun hv => ?_⟩
  · rcases hv with rfl | rfl <;> simpa using h0
  · rcases hv with rfl | rfl <;> simpa using h1

theorem spInput_bankStep {g : Cfg} {b b' : Bank} {u0 u1 : Int} (h : spInput g b u0 = .ok (b', u1)) :
    BankStep g (spFields g.flt) b b' := by
  rcases spInput_eq_ok h with ⟨hv, h⟩ | ⟨-, rfl, -⟩
  · exact (fHpf_bankStep h).mono fun _ hf => (spFields_eq_false hf).2.2.1 hv
  · exact BankStep.refl g _ _

theorem spSliding_bankStep {g : Cfg} {b b' : Bank} {u1 att alpha hs tap : Int} {n : Nat}
    (h : spSliding g b u1 att alpha n = .ok (b', hs, tap)) : BankStep g (spFields g.flt) b b' := by
  have hslf : ∀ u b b' y, fSlf g b u alpha = .ok (b', y) → BankStep g (spFields g.flt) b b' :=
    fun _ _ _ _ hrun => (fSlf_bankStep hrun).mono fun _ hf => (spFields_eq_false hf).1
  rcases spSliding_eq_ok h with ⟨-, -, h⟩ | ⟨-, h, -, -⟩ <;> exact repeatStage_bankStep (hslf _) h

theorem spBranch2_bankStep {g : Cfg} {b b' : Bank} {tap br2 : Int} (h : spBranch2 g b tap = .ok (b', br2)) :
    BankStep g (spFields g.flt) b b' := by
  rcases spBranch2_eq_ok h with ⟨hv, h⟩ | ⟨-, rfl, -⟩
  · exact (fHpf_bankStep h).mono fun _ hf => (spFields_eq_false hf).2.2.2 hv
  · exact BankStep.refl g _ _

theorem spEnvelope_bankStep {g : Cfg} {tb : Tables} {b b' : Bank} {sum : Int}
    (h : spEnvelope g tb b sum = .ok b') : BankStep g (spFields g.flt) b b' := by
  rcases spEnvelope_eq_ok h with ⟨-, rfl⟩ | ⟨-, _, _, -, h⟩
  · exact BankStep.refl g _ _
  · exact (envFun_bankStep h).mono fun _ hf => (spFields_eq_false hf).2.1

theorem spPass_bankStep {g : Cfg} {tb : Tables} {n : Nat} {u0 sum : Int} {b b' : Bank}
    (h : spPass g tb n u0 b = .ok (b', sum)) : BankStep g (spFields g.flt) b b' := by
  obtain ⟨b1, b2, b3, _, _, _, _, _, _, _, _, _, hin, -, -, -, -, hslide, -, hbr, -, -, henv⟩ := spPass_eq_ok h
  exact (spInput_bankStep hin).trans <| (spSliding_bankStep hslide).trans <|
    (spBranch2_bankStep hbr).trans (spEnvelope_bankStep henv)

theorem spFun_bankStep {g : Cfg} {tb : Tables} {b b' : Bank} {x y : Int} {f : Bool}
    (h : spFun g tb b x = .ok (b', y, f)) : BankStep g (spFields g.flt) b b' := by
  obtain ⟨_, _, -, h, -, -⟩ := spFun_eq_ok h
  exact repeatStage_bankStep (fun _ _ _ => spPass_bankStep) h

end Sys2Proof.Machine
end

section
/-! PROOFS. What a command can do, said once for all 31 commands: `Effect s i t` lists the ways in which command `i`
takes state `s` to `t`, each with the conditions that the statements need, and `exec_effect` says that there are no
others. It sums up the lemmas of Laws/Exec.lean over the commands that work alike. -/

namespace Sys2Proof.Machine

/-- CLIPF after a command that completes: its old value, or, in a session and by a command that writes it, any
(41_mixer_clip.md R176). -/
def ClipAfter (s : State) (i : Instr) (f : Bool) : Prop :=
  f = s.stat.clipf ∨ (s.stat.started = true ∧ writesClip i = true)

/-- What command `i` can do in state `s`. -/
inductive Effect (s : State) : Instr → State → Prop where
  /-- NOP. -/
  | idle : Effect s .nop s
  /-- Any command: a fault is taken, or the command is inhibited (40_control.md R130, 60_exceptions.md R366). -/
  | fault (i : Instr) (c : Cause) (d : BitVec 16) : Effect s i (s.raise c d)
  /-- START whose checks fail (R367). -/
  | startFault (c : Cause) (d : BitVec 16) : Effect s .start (s.raiseStart c d)
  /-- START whose checks pass (R136). -/
  | started : s.cfg.check = .ok () → s.tables.check = .ok () → Effect s .start s.startSession
  /-- STOP (R137). -/
  | stopped : Effect s .stop
      { s with
        stat := { s.stat.clearFault with clipf := false, started := false }
        cfg := { s.cfg with upsEff := 0 }
        chan1 := Chan.zero
        chan2 := Chan.zero
        tables := Tables.empty }
  /-- CFGW (R132). -/
  | cfgWritten {n : BitVec 16} {r : CfgReg} : r.cls ≠ .readOnly → ¬ (r.cls = .session ∧ s.stat.started = true) →
      Effect s (.cfgw n) { s with cfg := s.cfg.write r s.opa }
  /-- TBLW (R134). -/
  | tableWritten {n : BitVec 3} {ix : BitVec 16} {tb : TableId} : ix.toNat < tb.size → s.stat.started = false →
      Effect s (.tblw n ix) { s with tables := s.tables.write tb ix.toNat s.opa }
  /-- RTOA (R142). -/
  | movedToOpa : Effect s .rtoa { s with opa := s.res }
  /-- RTOB (R143). -/
  | movedToOpb : Effect s .rtob { s with opb := s.res }
  /-- DISCARD (R140). -/
  | discarded {ch : BitVec 2} {c : Channel} : s.stat.started = true → selects s ch c →
      Effect s (.discard ch) (s.setChan c { s.chan c with pend := .none })
  /-- A command whose result goes to RES and, for CLIP, a flag to CLIPF. -/
  | result {i : Instr} {v : Word} {f : Bool} : writesRes i = true → isCheck i = false → ClipAfter s i f →
      Effect s i { s.setClip f with res := v }
  /-- The commit mode of the family with tag `p` (43_filters.md R210). -/
  | committed {i : Instr} {ch : BitVec 2} {c : Channel} {p : Pend} {b : Bank} {y : Int} {f : Bool} :
      chOf i = some ch → writesRes i = true → isCheck i = false → s.stat.started = true → selects s ch c →
      BankStep s.cfg (pendFields s.cfg.flt p) (s.chan c).st b → ClipAfter s i f →
      Effect s i ((s.commit c b y).setClip f)
  /-- The check mode of the family with tag `p` (R210). -/
  | checked {i : Instr} {ch : BitVec 2} {c : Channel} {p : Pend} {b : Bank} {y : Int} {f : Bool} :
      chOf i = some ch → writesRes i = true → isCheck i = true → s.stat.started = true → selects s ch c →
      BankStep s.cfg (pendFields s.cfg.flt p) (s.chan c).st b → ClipAfter s i f →
      Effect s i ((s.check c p b y).setClip f)
  /-- The update mode of a family (R210). -/
  | updated {i : Instr} {ch : BitVec 2} {c : Channel} :
      chOf i = some ch → writesRes i = true → isCheck i = false → s.stat.started = true → selects s ch c →
      Effect s i (s.promote c)

theorem setClip_of_eq {s : State} {f : Bool} (h : f = s.stat.clipf) : s.setClip f = s := by
  subst h
  rfl

/-- A command whose result goes to RES and that leaves CLIPF. -/
theorem effect_result {s : State} {i : Instr} (v : Word) (hres : writesRes i = true) (hchk : isCheck i = false) :
    Effect s i { s with res := v } :=
  .result (f := s.stat.clipf) hres hchk (.inl rfl)

/-- A commit by a family that leaves CLIPF. -/
theorem effect_commit {s : State} {i : Instr} {ch : BitVec 2} {c : Channel} {b : Bank} {y : Int} (p : Pend)
    (hch : chOf i = some ch) (hres : writesRes i = true) (hchk : isCheck i = false) (hr : ready s)
    (hc : selects s ch c) (hb : BankStep s.cfg (pendFields s.cfg.flt p) (s.chan c).st b) :
    Effect s i (s.commit c b y) := by
  rw [← setClip_of_eq (s := s.commit c b y) (f := s.stat.clipf) (by simp)]
  exact .committed hch hres hchk hr.1 hc hb (.inl rfl)

/-- A check by a family that leaves CLIPF. -/
theorem effect_check {s : State} {i : Instr} {ch : BitVec 2} {c : Channel} {p : Pend} {b : Bank} {y : Int}
    (hch : chOf i = some ch) (hres : writesRes i = true) (hchk : isCheck i = true) (hr : ready s)
    (hc : selects s ch c) (hb : BankStep s.cfg (pendFields s.cfg.flt p) (s.chan c).st b) :
    Effect s i (s.check c p b y) := by
  rw [← setClip_of_eq (s := s.check c p b y) (f := s.stat.clipf) (by simp)]
  exact .checked hch hres hchk hr.1 hc hb (.inl rfl)

theorem effect_of_fault_or {s t : State} {i : Instr} {P : Prop} (h : (∃ c d, t = s.raise c d) ∨ P)
    (hP : P → Effect s i t) : Effect s i t := by
  rcases h with ⟨c, d, rfl⟩ | h
  · exact .fault i c d
  · exact hP h

/-- A command that answers a next state has one of the effects of `Effect`. -/
theorem exec_effect {i : Instr} {s t : State} (h : exec i s = .next t) : Effect s i t := by
  cases i with
  | nop =>
    obtain rfl := execNop_eq_next h
    exact .idle
  | cfgw =>
    refine effect_of_fault_or (execCfgw_eq_next h) ?_
    rintro ⟨_, _, hcls, hlock, rfl⟩
    exact .cfgWritten hcls hlock
  | cfgr =>
    refine effect_of_fault_or (execCfgr_eq_next h) ?_
    rintro ⟨_, _, rfl⟩
    exact effect_result _ rfl rfl
  | tblw =>
    refine effect_of_fault_or (execTblw_eq_next h) ?_
    rintro ⟨_, _, hix, hs, rfl⟩
    exact .tableWritten hix hs
  | tblr =>
    refine effect_of_fault_or (execTblr_eq_next h) ?_
    rintro ⟨_, _, _, _, _, rfl⟩
    exact effect_result _ rfl rfl
  | start =>
    rcases execStart_eq_next h with ⟨c, d, rfl⟩ | ⟨hc, ht, rfl⟩
    · exact .startFault c d
    · exact .started hc ht
  | stop =>
    obtain rfl := execStop_eq_next h
    exact .stopped
  | rdst =>
    refine effect_of_fault_or (execRdst_eq_next h) ?_
    rintro ⟨_, _, _, _, _, rfl⟩
    exact effect_result _ rfl rfl
  | rdsh =>
    refine effect_of_fault_or (execRdsh_eq_next h) ?_
    rintro ⟨_, _, _, _, _, rfl⟩
    exact effect_result _ rfl rfl
  | discard =>
    refine effect_of_fault_or (execDiscard_eq_next h) ?_
    rintro ⟨_, hr, hc, rfl⟩
    exact .discarded hr.1 hc
  | rtoa =>
    refine effect_of_fault_or (execRtoa_eq_next h) ?_
    rintro ⟨_, rfl⟩
    exact .movedToOpa
  | rtob =>
    refine effect_of_fault_or (execRtob_eq_next h) ?_
    rintro ⟨_, rfl⟩
    exact .movedToOpb
  | mix =>
    refine effect_of_fault_or (execMix_eq_next h) ?_
    rintro ⟨_, _, rfl⟩
    exact effect_result _ rfl rfl
  | unmix =>
    refine effect_of_fault_or (execUnmix_eq_next h) ?_
    rintro ⟨_, _, rfl⟩
    exact effect_result _ rfl rfl
  | clip =>
    refine effect_of_fault_or (execClip_eq_next h) ?_
    rintro ⟨hr, rfl⟩
    exact .result rfl rfl (.inr ⟨hr.1, rfl⟩)
  | lut =>
    refine effect_of_fault_or (execLut_eq_next h) ?_
    rintro ⟨_, _, _, _, _, rfl⟩
    exact effect_result _ rfl rfl
  | dcf =>
    refine effect_of_fault_or (execDcf_eq_next h) ?_
    rintro ⟨j, _, _, _, hr, hc, _, hf, rfl⟩
    exact effect_commit (.dcf j) rfl rfl rfl hr hc (fDcf_bankStep hf)
  | dcfC =>
    refine effect_of_fault_or (execDcfC_eq_next h) ?_
    rintro ⟨_, _, _, _, hr, hc, _, hf, rfl⟩
    exact effect_check rfl rfl rfl hr hc (fDcf_bankStep hf)
  | dcfU =>
    refine effect_of_fault_or (execDcfU_eq_next h) ?_
    rintro ⟨_, _, hr, hc, _, _, rfl⟩
    exact .updated rfl rfl rfl hr.1 hc
  | hpf =>
    refine effect_of_fault_or (execHpf_eq_next h) ?_
    rintro ⟨j, _, _, _, hr, hc, _, hf, rfl⟩
    exact effect_commit (.hpf j) rfl rfl rfl hr hc (fHpf_bankStep hf)
  | hpfC =>
    refine effect_of_fault_or (execHpfC_eq_next h) ?_
    rintro ⟨_, _, _, _, hr, hc, _, hf, rfl⟩
    exact effect_check rfl rfl rfl hr hc (fHpf_bankStep hf)
  | hpfU =>
    refine effect_of_fault_or (execHpfU_eq_next h) ?_
    rintro ⟨_, _, hr, hc, _, _, rfl⟩
    exact .updated rfl rfl rfl hr.1 hc
  | slf =>
    refine effect_of_fault_or (execSlf_eq_next h) ?_
    rintro ⟨_, _, _, hr, hc, hf, rfl⟩
    exact effect_commit .slf rfl rfl rfl hr hc (fSlf_bankStep hf)
  | slfC =>
    refine effect_of_fault_or (execSlfC_eq_next h) ?_
    rintro ⟨_, _, _, hr, hc, hf, rfl⟩
    exact effect_check rfl rfl rfl hr hc (fSlf_bankStep hf)
  | slfU =>
    refine effect_of_fault_or (execSlfU_eq_next h) ?_
    rintro ⟨_, hr, hc, _, rfl⟩
    exact .updated rfl rfl rfl hr.1 hc
  | env =>
    refine effect_of_fault_or (execEnv_eq_next h) ?_
    rintro ⟨_, _, _, hr, hc, hf, rfl⟩
    exact effect_commit .env rfl rfl rfl hr hc (envFun_bankStep hf)
  | envC =>
    refine effect_of_fault_or (execEnvC_eq_next h) ?_
    rintro ⟨_, _, _, hr, hc, hf, rfl⟩
    exact effect_check rfl rfl rfl hr hc (envFun_bankStep hf)
  | envU =>
    refine effect_of_fault_or (execEnvU_eq_next h) ?_
    rintro ⟨_, hr, hc, _, rfl⟩
    exact .updated rfl rfl rfl hr.1 hc
  | sp =>
    refine effect_of_fault_or (execSp_eq_next h) ?_
    rintro ⟨_, _, _, _, hr, hc, hf, rfl⟩
    exact .committed (p := .sp) rfl rfl rfl hr.1 hc (spFun_bankStep hf) (.inr ⟨hr.1, rfl⟩)
  | spC =>
    refine effect_of_fault_or (execSpC_eq_next h) ?_
    rintro ⟨_, _, _, _, hr, hc, hf, rfl⟩
    exact .checked rfl rfl rfl hr.1 hc (spFun_bankStep hf) (.inr ⟨hr.1, rfl⟩)
  | spU =>
    refine effect_of_fault_or (execSpU_eq_next h) ?_
    rintro ⟨_, hr, hc, _, rfl⟩
    exact .updated rfl rfl rfl hr.1 hc

end Sys2Proof.Machine
end

section
/-! PROOFS. The configuration registers as a register file (10_state.md R35 to R45): reading after writing, and which
numbers are assigned. -/

namespace Sys2Proof.Machine

/-! ## Reading after writing -/

theorem flagWord_flagOf (v : Word) : flagWord (flagOf v) = v &&& 1 := by
  exact BitVec.and_one_eq_setWidth_ofBool_getLsbD.symm

theorem cfg_read_id (g : Cfg) : g.read .id = 0x534F584E47000701 := rfl

/-- A register other than ID reads as the written value, a one-bit register as its bit 0 (R36, R37, 40_control.md
R132). -/
theorem cfg_read_write_same (g : Cfg) {r : CfgReg} (v : Word) (h : r ≠ .id) :
    (g.write r v).read r = if r = .upall ∨ r = .fetgnd then v &&& 1 else v := by
  cases r with
  | id => exact absurd rfl h
  | upall | fetgnd => exact flagWord_flagOf v
  | dcfA k | dcfM k => cases k <;> rfl
  | hpfA k | hpfM k => cases k <;> rfl
  | tblV0 t | tblQ t => cases t <;> rfl
  | _ => rfl

/-- Every other register reads as before. -/
theorem cfg_read_write_other (g : Cfg) {r q : CfgReg} (v : Word) (h : q ≠ r) : (g.write r v).read q = g.read q := by
  cases r with
  | dcfA k | dcfM k | hpfA k | hpfM k | tblV0 k | tblQ k =>
    cases k <;> cases q with
    | dcfA j | dcfM j | hpfA j | hpfM j | tblV0 j | tblQ j => cases j <;> first | rfl | exact absurd rfl h
    | _ => rfl
  | _ =>
    cases q with
    | dcfA j | dcfM j | hpfA j | hpfM j | tblV0 j | tblQ j => cases j <;> rfl
    | _ => first | rfl | exact absurd rfl h

/-- Settles O20, by the two halves of the register file's law. -/
theorem cfgReadAfterWrite : Obligations.CfgReadAfterWrite := by
  intro g r q v
  split
  · next hid =>
    subst hid
    exact cfg_read_id _
  · next hid =>
    split
    · next hqr =>
      subst hqr
      exact cfg_read_write_same g v hid
    · next hqr => exact cfg_read_write_other g v hqr

/-! ## The assigned numbers -/

theorem cfgReg_ofNum_num (r : CfgReg) : CfgReg.ofNum r.num = some r := by
  cases r with
  | dcfA k | dcfM k => cases k <;> rfl
  | hpfA k | hpfM k => cases k <;> rfl
  | tblV0 t | tblQ t => cases t <;> rfl
  | _ => rfl

/-- From 0x34 on no number is assigned (R45). -/
theorem cfgReg_ofNum_of_ge {n : BitVec 16} (h : 0x34 ≤ n.toNat) : CfgReg.ofNum n = none := by
  unfold CfgReg.ofNum
  split <;> first | rfl | omega

/-- Below 0x34 the assigned numbers are those of R45. -/
theorem cfgReg_ofNum_isSome_below : ∀ m < 0x34, (CfgReg.ofNum (BitVec.ofNat 16 m)).isSome = true ↔
    m ≤ 0x15 ∨ (0x18 ≤ m ∧ m ≤ 0x1B) ∨ (0x20 ≤ m ∧ m ≤ 0x24) ∨ (0x28 ≤ m ∧ m ≤ 0x33) := by
  decide

theorem cfgReg_ofNum_isSome_iff (n : BitVec 16) : (CfgReg.ofNum n).isSome = true ↔
    n.toNat ≤ 0x15 ∨ (0x18 ≤ n.toNat ∧ n.toNat ≤ 0x1B) ∨ (0x20 ≤ n.toNat ∧ n.toNat ≤ 0x24) ∨
      (0x28 ≤ n.toNat ∧ n.toNat ≤ 0x33) := by
  rcases Nat.lt_or_ge n.toNat 0x34 with hlt | hge
  · simpa using cfgReg_ofNum_isSome_below n.toNat hlt
  · rw [cfgReg_ofNum_of_ge hge]
    simp only [Option.isSome_none, Bool.false_eq_true, false_iff]
    omega

/-- CFGW and CFGR of an unassigned number raise BAD_REG(n). -/
theorem exec_cfg_of_unassigned {n : BitVec 16} (s : State) (h : CfgReg.ofNum n = none) :
    exec (.cfgw n) s = .next (s.raise .badReg n) ∧ exec (.cfgr n) s = .next (s.raise .badReg n) := by
  simp [exec, execCfgw, execCfgr, h, needNum]

/-- Settles O21: 0x34 numbers are looked at one by one, the rest at once. -/
theorem assignedRegisterNumbers : Obligations.AssignedRegisterNumbers :=
  ⟨cfgReg_ofNum_isSome_iff, by decide, cfgReg_ofNum_num, fun s _ h => exec_cfg_of_unassigned s h⟩

end Sys2Proof.Machine
end

section
/-! PROOFS. STAT's word (10_state.md R33), the power-on values (R58), and what a step runs (10_state.md R34,
20_memory.md R84 to R89). -/

namespace Sys2Proof.Machine

/-! ## STAT -/

/-- Settles O9, bit by bit of each field. -/
theorem statLayout : Obligations.StatLayout := by
  intro st
  refine ⟨by simp [Stat.toWord], by simp [Stat.toWord], by simp [Stat.toWord], ?_, ?_, ?_⟩
  · ext k hk
    interval_cases k <;> simp [Stat.toWord]
  · ext k hk
    interval_cases k <;> simp [Stat.toWord]
  · ext k hk
    interval_cases k <;> simp [Stat.toWord]

/-! ## Power-on -/

/-- After power-on every CFG register reads 0 but FLT and ID. -/
theorem cfg_reset_read (r : CfgReg) :
    Cfg.reset.read r = if r = .flt then 4 else if r = .id then 0x534F584E47000701 else 0 := by
  cases r with
  | dcfA k | dcfM k => cases k <;> rfl
  | hpfA k | hpfM k => cases k <;> rfl
  | tblV0 t | tblQ t => cases t <;> rfl
  | _ => rfl

@[simp] theorem reset_chan (c : Channel) : State.reset.chan c = Chan.zero := by cases c <;> rfl

/-- Settles O10: each piece of state is looked up in the power-on state. -/
theorem powerOnValues : Obligations.PowerOnValues := by
  refine ⟨rfl, rfl, rfl, by decide, cfg_reset_read, fun c => ?_, tables_empty_read⟩
  rw [reset_chan]
  exact ⟨bank_zero_read, bank_zero_read, rfl, rfl⟩

/-! ## What a step runs -/

theorem decodeBytes_bytesLE (w : CmdWord) : decodeBytes (bytesLE 4 w.toNat) = decode w := by
  have hw : w.toNat % 256 ^ 4 = w.toNat := Nat.mod_eq_of_lt (by simpa using w.isLt)
  rw [decodeBytes, if_pos (bytesLE_length 4 _), valueLE_bytesLE, hw, BitVec.ofNat_toNat, BitVec.setWidth_eq]

theorem length_of_decodeBytes_ok {bytes : List Byte} {i : Instr} (h : decodeBytes bytes = .ok i) :
    bytes.length = 4 := by
  rw [decodeBytes] at h
  split at h
  · assumption
  · cases h

/-- A word that names no command is ILLEGAL with its OP (30_encoding.md R109). -/
theorem decode_of_no_command {w : CmdWord} (h : ∀ i, decode w ≠ .ok i) :
    decode w = .error (.illegal (opField w)) := by
  cases hr : opcodeRow (opField w) with
  | none => simp [decode, hr]
  | some row =>
    by_cases hz : row.1.unusedZero w = true
    · exact absurd (by simp [decode, hr, hz]) (h (row.2 (chField w) (instField w) (immField w)))
    · simp [decode, hr, hz]

/-- Four bytes written to CMD run as a command word (20_memory.md R87). -/
theorem step_of_cmd_write {s : State} {bytes : List Byte} {rest : List BusOp}
    (hb : s.bus = .write offCmd bytes :: rest) (hl : bytes.length = 4) :
    step s = runCommand bytes { s with bus := rest } := by
  simp only [step, hb, serve, servePort, portWidth, writePort, hl]
  rfl

theorem step_of_empty_bus {s : State} (h : s.bus = []) : step s = .next s := by
  simp only [step, h]

/-- Settles O6, by what four bytes written to CMD run. -/
theorem stepRunsDecoded : Obligations.StepRunsDecoded := by
  refine ⟨fun s bytes rest i hb hd => ?_, fun s w rest hb hd => ?_, fun s => step_of_empty_bus⟩
  · rw [step_of_cmd_write hb (length_of_decodeBytes_ok hd), runCommand, hd]
  · rw [step_of_cmd_write hb (bytesLE_length 4 _), runCommand, decodeBytes_bytesLE, decode_of_no_command hd]

/-- A port access that is served does what the access does. -/
theorem servePort_eq_next {off width : Nat} {act : Host.Outcome State Fault Refusal} {t : State}
    (h : servePort off width act = .next t) : act = .next t := by
  rw [servePort] at h
  split at h
  · cases h
  · split at h
    · exact h
    · cases h

/-- A port read changes at most the bytes the host has read (R88). -/
theorem readPort_eq_next {off width : Nat} {s t : State} (h : readPort off width s = .next t) :
    ∃ bs, t = { s with rdata := bs } := by
  unfold readPort at h
  split_ifs at h <;> cases h <;> exact ⟨_, rfl⟩

/-- What a write to CMD can do (30_encoding.md R109): a command ran, or ILLEGAL was raised. -/
theorem runCommand_eq_next {bytes : List Byte} {s t : State} (h : runCommand bytes s = .next t) :
    (∃ i, exec i s = .next t) ∨ ∃ c d, t = s.raise c d := by
  rw [runCommand] at h
  split at h
  · exact .inl ⟨_, h⟩
  · cases h
    exact .inr ⟨_, _, rfl⟩
  · cases h

/-- What a port write can do (20_memory.md R87). -/
theorem writePort_eq_next {off : Nat} {bytes : List Byte} {s t : State} (h : writePort off bytes s = .next t) :
    (∃ v, t = { s with opa := v }) ∨ (∃ v, t = { s with opb := v }) ∨ runCommand bytes s = .next t := by
  unfold writePort at h
  split_ifs at h
  · cases h
    exact .inl ⟨_, rfl⟩
  · cases h
    exact .inr (.inl ⟨_, rfl⟩)
  · exact .inr (.inr h)

/-- What a step can do to a state whose oldest event has been taken off the queue. -/
inductive Served (s : State) : State → Prop where
  /-- The power-on reset input (70_reset_and_hazards.md R400). -/
  | powerOn : Served s s.powerOn
  /-- A port read (20_memory.md R88). -/
  | read (bs : List Byte) : Served s { s with rdata := bs }
  /-- A write to OPA (R87). -/
  | wroteOpa (v : Word) : Served s { s with opa := v }
  /-- A write to OPB (R87). -/
  | wroteOpb (v : Word) : Served s { s with opb := v }
  /-- A write to CMD that ran a command (R89). -/
  | ran {i : Instr} {t : State} : Effect s i t → Served s t
  /-- A write to CMD that raised ILLEGAL (30_encoding.md R109). -/
  | illegal (c : Cause) (d : BitVec 16) : Served s (s.raise c d)

theorem serve_served {op : BusOp} {s t : State} (h : serve op s = .next t) : Served s t := by
  cases op with
  | powerOn =>
    cases h
    exact .powerOn
  | read off width =>
    obtain ⟨bs, rfl⟩ := readPort_eq_next (servePort_eq_next h)
    exact .read bs
  | write off bytes =>
    rcases writePort_eq_next (servePort_eq_next h) with ⟨v, rfl⟩ | ⟨v, rfl⟩ | h
    · exact .wroteOpa v
    · exact .wroteOpb v
    · rcases runCommand_eq_next h with ⟨i, h⟩ | ⟨c, d, rfl⟩
      · exact .ran (exec_effect h)
      · exact .illegal c d

/-- What a step can do: nothing, or serve the oldest event. -/
theorem step_eq_next {s t : State} (h : step s = .next t) :
    t = s ∨ ∃ rest, Served { s with bus := rest } t := by
  rw [step] at h
  split at h
  · cases h
    exact .inl rfl
  · exact .inr ⟨_, serve_served h⟩

end Sys2Proof.Machine
end

section
/-! PROOFS. Who writes what (10_state.md R31, R32, R46, R48, R55, R83; 41_mixer_clip.md R176), read off from the effects
of the commands. -/

namespace Sys2Proof.Machine

section

variable {i : Instr} {s t : State}

/-! ## Registers and flags -/

theorem effect_opa (h : Effect s i t) (hi : i ≠ .rtoa) : t.opa = s.opa := by
  cases h with
  | movedToOpa => exact absurd rfl hi
  | _ => simp

theorem effect_opb (h : Effect s i t) (hi : i ≠ .rtob) : t.opb = s.opb := by
  cases h with
  | movedToOpb => exact absurd rfl hi
  | _ => simp

theorem effect_bus (h : Effect s i t) : t.bus = s.bus := by
  cases h <;> simp

theorem effect_rdata (h : Effect s i t) : t.rdata = s.rdata := by
  cases h <;> simp

theorem effect_res (h : Effect s i t) (hi : writesRes i = false) : t.res = s.res := by
  cases h with
  | result hres => simp [hi] at hres
  | committed _ hres | checked _ hres | updated _ hres => simp [hi] at hres
  | _ => simp

theorem clipAfter_of_not_writesClip {f : Bool} (h : ClipAfter s i f) (hi : writesClip i = false) :
    f = s.stat.clipf := by
  rcases h with h | ⟨-, h⟩
  · exact h
  · simp [hi] at h

/-- CLIPF is written only by the commands that R176 names. -/
theorem effect_clipf (h : Effect s i t) (hi : writesClip i = false) : t.stat.clipf = s.stat.clipf := by
  cases h with
  | started | stopped => cases hi
  | result _ _ hf | committed _ _ _ _ _ _ hf | checked _ _ _ _ _ _ hf =>
    simpa using clipAfter_of_not_writesClip hf hi
  | _ => simp

theorem effect_started (h : Effect s i t) (hstart : i ≠ .start) (hstop : i ≠ .stop) :
    t.stat.started = s.stat.started := by
  cases h with
  | started => exact absurd rfl hstart
  | stopped => exact absurd rfl hstop
  | _ => simp

/-! ## The configuration and the tables -/

/-- In a session no command but STOP changes the tables (20_memory.md R83). -/
theorem effect_tables (h : Effect s i t) (hs : s.stat.started = true) (hi : i ≠ .stop) : t.tables = s.tables := by
  cases h with
  | stopped => exact absurd rfl hi
  | tableWritten _ hidle => simp [hs] at hidle
  | _ => simp

/-- In a session no command but STOP changes a session register (10_state.md R35). -/
theorem effect_session_register (h : Effect s i t) (hs : s.stat.started = true) (hi : i ≠ .stop) {q : CfgReg}
    (hq : q.cls = .session) : t.cfg.read q = s.cfg.read q := by
  cases h with
  | stopped => exact absurd rfl hi
  | started =>
    have hne : q ≠ .upsEff := by
      rintro rfl
      cases hq
    exact cfg_read_write_other s.cfg _ hne
  | @cfgWritten n r _ hlock =>
    have hne : q ≠ r := by
      rintro rfl
      exact hlock ⟨hq, hs⟩
    exact cfg_read_write_other s.cfg _ hne
  | _ => simp

/-! ## The channels -/

theorem chan_congr (h1 : t.chan1 = s.chan1) (h2 : t.chan2 = s.chan2) (d : Channel) : t.chan d = s.chan d := by
  cases d
  · exact h1
  · exact h2

/-- A command that names a channel changes at most the channel that its CH selects (10_state.md R48). -/
theorem effect_chan {ch : BitVec 2} {d : Channel} (h : Effect s i t) (hi : chOf i = some ch)
    (hd : ¬ selects s ch d) : t.chan d = s.chan d := by
  have hne : ∀ {ch' c}, chOf i = some ch' → selects s ch' c → d ≠ c := by
    rintro ch' c hch hc rfl
    exact hd (Option.some.inj (hi.symm.trans hch) ▸ hc)
  cases h with
  | started | stopped => cases hi
  | discarded _ hc => exact setChan_chan_other _ _ (hne rfl hc)
  | committed hch _ _ _ hc => rw [setClip_chan, commit_chan_other _ _ _ (hne hch hc)]
  | checked hch _ _ _ hc => rw [setClip_chan, check_chan_other _ _ _ _ (hne hch hc)]
  | updated hch _ _ _ hc => exact promote_chan_other _ (hne hch hc)
  | _ => exact chan_congr (by simp) (by simp) d

/-! ## Checks -/

/-- What a check can do: take a fault, or write the shadow side of one channel (R210). -/
theorem effect_check_cases (h : Effect s i t) (hi : isCheck i = true) :
    (∃ c d, t = s.raise c d) ∨ ∃ c p b y f, t = (s.check c p b y).setClip f := by
  cases h with
  | fault _ c d => exact .inl ⟨c, d, rfl⟩
  | @checked _ _ c p b y f => exact .inr ⟨c, p, b, y, f, rfl⟩
  | result _ hn | committed _ _ hn | updated _ _ hn => simp [hi] at hn
  | _ => cases hi

/-- A check changes nothing but the channels, RES and STAT, and no committed bank among the channels (R55). -/
theorem check_frame (h : Effect s i t) (hi : isCheck i = true) :
    (∀ d, (t.chan d).st = (s.chan d).st) ∧
      t = { s with chan1 := t.chan1, chan2 := t.chan2, res := t.res, stat := t.stat } := by
  rcases effect_check_cases h hi with ⟨c, d, rfl⟩ | ⟨c, p, b, y, f, rfl⟩
  · refine ⟨fun d => by simp, ?_⟩
    rw [State.raise]
    split <;> rfl
  · refine ⟨fun d => ?_, by cases c <;> rfl⟩
    by_cases hd : d = c
    · subst hd
      simp
    · rw [setClip_chan, check_chan_other _ _ _ _ hd]

/-- Of the checks only SP.C writes CLIPF. -/
theorem writesClip_of_check (hi : isCheck i = true) (hne : ∀ ch, i ≠ .spC ch) : writesClip i = false := by
  cases i with
  | spC ch => exact absurd rfl (hne ch)
  | clip | sp | start | stop => cases hi
  | _ => rfl

end

/-! ## The statements -/

/-- Settles O50, by the two things that a check can do. -/
theorem checkIsolation : Obligations.CheckIsolation := by
  intro i s t hi h
  have he := exec_effect h
  obtain ⟨hst, hframe⟩ := check_frame he hi
  exact ⟨hst, hframe, effect_started he (by rintro rfl; cases hi) (by rintro rfl; cases hi),
    fun hne => effect_clipf he (writesClip_of_check hi hne)⟩

/-- Settles O52: another channel than the one CH names is not the one CH selects. -/
theorem channelsDoNotInteract : Obligations.ChannelsDoNotInteract :=
  fun _ _ _ _ _ hi hne h => effect_chan (exec_effect h) hi fun hsel => hne hsel.1

/-- Settles O53, clause by clause from the effects of the commands. -/
theorem registerWriters : Obligations.RegisterWriters := by
  intro i s t h
  have he := exec_effect h
  exact ⟨effect_opa he, effect_opb he, effect_res he, effect_clipf he, effect_started he, effect_bus he,
    effect_rdata he, fun hs hi => ⟨effect_tables he hs hi, fun _ hr => effect_session_register he hs hi hr⟩⟩

end Sys2Proof.Machine
end

section
/-! PROOFS. The invariant of the block: in a session and without one it is a short list of conditions each, and every
effect of a step keeps the list (10_state.md R35, R43, R50, R51, R56, 20_memory.md R82, R83, 40_control.md R136,
43_filters.md R212, R214, 60_exceptions.md R360). -/

namespace Sys2Proof.Machine

/-! ## The invariant by parts -/

/-- What the invariant says of one channel of a session: a pending trial differs from the committed bank only in its
stage's fields (R212), and the remainders of both banks are below their multipliers (R214). -/
def ChanInv (g : Cfg) (x : Chan) : Prop :=
  (x.pend ≠ .none → ∀ f, pendFields g.flt x.pend f = false → x.sh.read f = x.st.read f) ∧
    remaindersOk g x.st ∧ remaindersOk g x.sh

/-- The invariant in a session. -/
theorem inv_iff_of_started {s : State} (hs : s.stat.started = true) :
    s.Inv ↔ s.tables.wf = true ∧ (s.cfg.check = .ok () ∧ s.tables.check = .ok () ∧
      s.cfg.upsEff = BitVec.ofNat 64 s.cfg.factor) ∧ recordInv s ∧ ∀ c, ChanInv s.cfg (s.chan c) := by
  constructor
  · rintro ⟨hwf, hses, -, hrec, hpend, hrem⟩
    exact ⟨hwf, hses hs, hrec, fun c => ⟨fun hp f => hpend c f hp, hrem hs c⟩⟩
  · rintro ⟨hwf, hses, hrec, hch⟩
    exact ⟨hwf, fun _ => hses, fun h => absurd (hs.symm.trans h) (by decide), hrec,
      fun c f hp => (hch c).1 hp f, fun _ c => (hch c).2⟩

/-- The invariant without a session. -/
theorem inv_iff_of_idle {s : State} (hs : s.stat.started = false) :
    s.Inv ↔ s.tables.wf = true ∧ (s.stat.clipf = false ∧ s.cfg.upsEff = 0 ∧ s.chan1 = Chan.zero ∧
      s.chan2 = Chan.zero) ∧ recordInv s := by
  constructor
  · rintro ⟨hwf, -, hidle, hrec, -, -⟩
    exact ⟨hwf, hidle hs, hrec⟩
  · rintro ⟨hwf, hidle, hrec⟩
    have hzero : ∀ c, (s.chan c).pend = .none := by
      intro c
      cases c
      · exact congrArg Chan.pend hidle.2.2.1
      · exact congrArg Chan.pend hidle.2.2.2
    exact ⟨hwf, fun h => absurd (hs.symm.trans h) (by decide), fun _ => hidle, hrec,
      fun c f hp => absurd (hzero c) hp, fun h => absurd (hs.symm.trans h) (by decide)⟩

/-- The invariant speaks of STAT, the configuration, the tables and the channels only. -/
theorem inv_congr {s t : State} (h : s.Inv) (hstat : t.stat = s.stat) (hcfg : t.cfg = s.cfg)
    (htab : t.tables = s.tables) (h1 : t.chan1 = s.chan1) (h2 : t.chan2 = s.chan2) : t.Inv := by
  cases s
  cases t
  subst hstat hcfg htab h1 h2
  exact h

/-! ## The fault record -/

theorem cause_code_range (c : Cause) : 1 ≤ c.code.toNat ∧ c.code.toNat ≤ 13 := by
  cases c <;> decide

/-- Taking a fault writes a legal record (60_exceptions.md R360, R366). -/
theorem inv_raiseStart {s : State} (h : s.Inv) (c : Cause) (d : BitVec 16) : (s.raiseStart c d).Inv := by
  obtain ⟨hwf, hses, hidle, -, hpend, hrem⟩ := h
  exact ⟨hwf, hses, hidle, cause_code_range c, hpend, hrem⟩

theorem inv_raise {s : State} (h : s.Inv) (c : Cause) (d : BitVec 16) : (s.raise c d).Inv := by
  rw [State.raise]
  split
  · exact h
  · exact inv_raiseStart h c d

/-! ## Channels -/

theorem chanInv_zero {g : Cfg} (h : g.check = .ok ()) : ChanInv g Chan.zero := by
  obtain ⟨-, -, hdcf, -, -, -, -, he1, he2⟩ := startCondition_of_check h 5
  have hz : remaindersOk g Bank.zero := ⟨hdcf .k0, hdcf .k1, hdcf .k2, he1, he2⟩
  exact ⟨fun hp => absurd rfl hp, hz, hz⟩

theorem chanInv_commit {g : Cfg} {x : Chan} {own : BankField → Bool} {b : Bank} (h : ChanInv g x)
    (hb : BankStep g own x.st b) : ChanInv g { x with st := b, pend := .none } :=
  ⟨fun hp => absurd rfl hp, hb.remainders h.2.1, h.2.2⟩

theorem chanInv_check {g : Cfg} {x : Chan} {p : Pend} {b : Bank} (v : Word) (h : ChanInv g x)
    (hb : BankStep g (pendFields g.flt p) x.st b) : ChanInv g { x with sh := b, tout := v, pend := p } :=
  ⟨fun _ f hf => hb.frame f hf, h.2.1, hb.remainders h.2.1⟩

theorem chanInv_promote {g : Cfg} {x : Chan} (h : ChanInv g x) : ChanInv g { x with st := x.sh, pend := .none } :=
  ⟨fun hp => absurd rfl hp, h.2.2, h.2.2⟩

theorem chanInv_discard {g : Cfg} {x : Chan} (h : ChanInv g x) : ChanInv g { x with pend := .none } :=
  ⟨fun hp => absurd rfl hp, h.2⟩

/-- In a session a command that changes one channel, RES and CLIPF keeps the invariant where it keeps that of the
channel. -/
theorem inv_of_chan_update {s t : State} {c : Channel} (h : s.Inv) (hs : s.stat.started = true)
    (hstat : t.stat = { s.stat with clipf := t.stat.clipf }) (hcfg : t.cfg = s.cfg) (htab : t.tables = s.tables)
    (hother : ∀ d, d ≠ c → t.chan d = s.chan d) (hc : ChanInv s.cfg (s.chan c) → ChanInv s.cfg (t.chan c)) :
    t.Inv := by
  have ht : t.stat.started = true := by rw [hstat, hs]
  obtain ⟨hwf, hses, hrec, hch⟩ := (inv_iff_of_started hs).mp h
  refine (inv_iff_of_started ht).mpr ⟨by rwa [htab], by rwa [hcfg, htab], ?_, fun d => ?_⟩
  · rw [recordInv, hstat]
    exact hrec
  · rw [hcfg]
    by_cases hd : d = c
    · subst hd
      exact hc (hch d)
    · rw [hother d hd]
      exact hch d

/-! ## Sessions -/

/-- A START whose checks pass begins a session with the invariant (40_control.md R136). -/
theorem inv_startSession {s : State} (h : s.Inv) (hcfg : s.cfg.check = .ok ()) (htab : s.tables.check = .ok ()) :
    s.startSession.Inv := by
  refine (inv_iff_of_started rfl).mpr ⟨h.1, ⟨hcfg, htab, rfl⟩, ⟨rfl, rfl⟩, fun c => ?_⟩
  rw [startSession_chan]
  exact chanInv_zero (g := s.startSession.cfg) hcfg

/-! ## The configuration registers -/

/-- A run register is one of FETGND, SIDAMP_V, ENVG_V and FETSVT (10_state.md R37), none of which START checks. -/
theorem cfg_write_run {g : Cfg} {r : CfgReg} (v : Word) (h : r.cls = .run) : ∃ a b c d,
    g.write r v = { g with fetgnd := a, sidampV := b, envgV := c, fetsvt := d } := by
  cases r with
  | fetgnd | sidampV | envgV | fetsvt => exact ⟨_, _, _, _, rfl⟩
  | _ => cases h

theorem cfg_write_upsEff (g : Cfg) {r : CfgReg} (v : Word) (h : r.cls ≠ .readOnly) :
    (g.write r v).upsEff = g.upsEff :=
  cfg_read_write_other g (q := .upsEff) v (by rintro rfl; exact h rfl)

/-- A CFGW that its checks let through keeps the invariant: in a session it writes a run register, which the invariant
does not speak of. -/
theorem inv_cfgWrite {s : State} {r : CfgReg} (h : s.Inv) (hcls : r.cls ≠ .readOnly)
    (hlock : ¬ (r.cls = .session ∧ s.stat.started = true)) (v : Word) :
    State.Inv { s with cfg := s.cfg.write r v } := by
  cases hs : s.stat.started with
  | true =>
    have hrun : r.cls = .run := by
      cases hr : r.cls with
      | run => rfl
      | session => exact absurd ⟨hr, hs⟩ hlock
      | readOnly => exact absurd hr hcls
    obtain ⟨_, _, _, _, hw⟩ := cfg_write_run (g := s.cfg) v hrun
    rw [hw]
    exact h
  | false =>
    obtain ⟨hwf, ⟨hclip, hups, hch⟩, hrec⟩ := (inv_iff_of_idle hs).mp h
    exact (inv_iff_of_idle (s := { s with cfg := s.cfg.write r v }) hs).mpr
      ⟨hwf, ⟨hclip, (cfg_write_upsEff s.cfg v hcls).trans hups, hch⟩, hrec⟩

/-! ## The tables -/

/-- A TBLW that its checks let through keeps the invariant: there is no session, and the tables stay canonical. -/
theorem inv_tableWrite {s : State} {tb : TableId} {k : Nat} (h : s.Inv) (hk : k < tb.size)
    (hs : s.stat.started = false) (v : Word) : State.Inv { s with tables := s.tables.write tb k v } := by
  obtain ⟨hwf, hidle, hrec⟩ := (inv_iff_of_idle hs).mp h
  exact (inv_iff_of_idle (s := { s with tables := s.tables.write tb k v }) hs).mpr
    ⟨tables_wf_write v hwf hk, hidle, hrec⟩

/-! ## Commands -/

/-- A CLIPF that a command may leave keeps the invariant: without a session only the old one can be left. -/
theorem inv_setClip {s : State} {i : Instr} {f : Bool} (h : s.Inv) (hf : ClipAfter s i f) : (s.setClip f).Inv := by
  rcases hf with hf | ⟨hs, -⟩
  · rwa [setClip_of_eq hf]
  · obtain ⟨hwf, hses, hrec, hch⟩ := (inv_iff_of_started hs).mp h
    refine (inv_iff_of_started (s := s.setClip f) hs).mpr ⟨hwf, hses, hrec, fun c => ?_⟩
    rw [setClip_chan]
    exact hch c

/-- Every command keeps the invariant. -/
theorem effect_keeps_inv {i : Instr} {s t : State} (h : s.Inv) (he : Effect s i t) : t.Inv := by
  cases he with
  | idle => exact h
  | fault _ c d => exact inv_raise h c d
  | startFault c d => exact inv_raiseStart h c d
  | started hcfg htab => exact inv_startSession h hcfg htab
  | stopped => exact (inv_iff_of_idle rfl).mpr ⟨tables_empty_wf, ⟨rfl, rfl, rfl, rfl⟩, rfl, rfl⟩
  | cfgWritten hcls hlock => exact inv_cfgWrite h hcls hlock _
  | tableWritten hix hs => exact inv_tableWrite h hix hs _
  | movedToOpa | movedToOpb => exact inv_congr h rfl rfl rfl rfl rfl
  | result _ _ hf => exact inv_congr (inv_setClip h hf) rfl rfl rfl rfl rfl
  | @discarded _ c hs _ =>
    exact inv_of_chan_update (c := c) h hs (by simp) (by simp) (by simp)
      (fun d hd => setChan_chan_other _ _ hd) fun hx => by simpa using chanInv_discard hx
  | @committed _ _ c p b y f _ _ _ hs _ hb _ =>
    exact inv_of_chan_update (c := c) h hs (by simp) (by simp) (by simp)
      (fun d hd => by rw [setClip_chan, commit_chan_other _ _ _ hd]) fun hx => by simpa using chanInv_commit hx hb
  | @checked _ _ c p b y f _ _ _ hs _ hb _ =>
    exact inv_of_chan_update (c := c) h hs (by simp) (by simp) (by simp)
      (fun d hd => by rw [setClip_chan, check_chan_other _ _ _ _ hd]) fun hx => by simpa using chanInv_check _ hx hb
  | @updated _ _ c _ _ _ hs _ =>
    exact inv_of_chan_update (c := c) h hs (by simp) (by simp) (by simp)
      (fun d hd => promote_chan_other _ hd) fun hx => by simpa using chanInv_promote hx

/-! ## Steps -/

/-- Settles O55: at power-on there is no session, and everything is clear. -/
theorem resetHasInvariant : Obligations.ResetHasInvariant :=
  (inv_iff_of_idle rfl).mpr ⟨tables_empty_wf, ⟨rfl, rfl, rfl, rfl⟩, rfl, rfl⟩

/-- Serving an event keeps the invariant. -/
theorem served_keeps_inv {s t : State} (h : s.Inv) (hv : Served s t) : t.Inv := by
  cases hv with
  | powerOn => exact inv_congr resetHasInvariant rfl rfl rfl rfl rfl
  | read | wroteOpa | wroteOpb => exact inv_congr h rfl rfl rfl rfl rfl
  | ran he => exact effect_keeps_inv h he
  | illegal c d => exact inv_raise h c d

/-- Settles O54: a step does nothing or serves an event, and neither breaks the invariant. -/
theorem stepKeepsInvariant : Obligations.StepKeepsInvariant := by
  intro s t h hstep
  rcases step_eq_next hstep with rfl | ⟨rest, hv⟩
  · exact h
  · have hrest : State.Inv { s with bus := rest } := inv_congr h rfl rfl rfl rfl rfl
    exact served_keeps_inv hrest hv

end Sys2Proof.Machine
end

section
/-! PROOFS. What the host port serves and what it refuses (20_memory.md R85 to R88): its map as a list, the accesses
that are served, and that no command word is refused. -/

namespace Sys2Proof.Machine

/-! ## The port's map -/

/-- R87's map: where each register begins and how wide it is. -/
theorem portWidth_eq_some_iff {off w : Nat} :
    portWidth off = some w ↔ (off, w) ∈ [(0x00, 8), (0x08, 8), (0x10, 8), (0x18, 4), (0x1C, 4)] := by
  simp only [List.mem_cons, Prod.mk.injEq, List.not_mem_nil, or_false]
  unfold portWidth offOpa offOpb offRes offStat offCmd
  split
  · simp only [Option.some.injEq]
    omega
  · split
    · simp only [Option.some.injEq]
      omega
    · simp only [reduceCtorEq, false_iff]
      omega

theorem servePort_of_width {off width : Nat} (h : portWidth off = some width)
    (act : Host.Outcome State Fault Refusal) : servePort off width act = act := by
  simp [servePort, h]

/-- R86: an access that is not of a register's own offset and width is refused, whatever it would do. -/
theorem servePort_refused {off width : Nat} (h : portWidth off ≠ some width)
    (act : Host.Outcome State Fault Refusal) : ∃ r, servePort off width act = .refused r := by
  cases hw : portWidth off with
  | none => exact ⟨_, by rw [servePort, hw]⟩
  | some w =>
    have hne : width ≠ w := fun heq => h (heq ▸ hw)
    exact ⟨.portWidth off width, by simp only [servePort, hw, if_neg hne]⟩

theorem step_of_bus {s : State} {op : BusOp} {rest : List BusOp} (h : s.bus = op :: rest) :
    step s = serve op { s with bus := rest } := by
  rw [step, h]

/-! ## Reads -/

/-- All bytes of a word are the word (R85). -/
theorem valueLE_bytesLE_toNat {k : Nat} (w : BitVec (8 * k)) : valueLE (bytesLE k w.toNat) = w.toNat := by
  have hlt : w.toNat < 256 ^ k := by simpa [pow_mul] using w.isLt
  rw [valueLE_bytesLE, Nat.mod_eq_of_lt hlt]

/-- The four readable registers: where each begins, its width, its value (R87). -/
def State.readable (s : State) : List (Nat × Nat × Nat) :=
  [(0x00, 8, s.opa.toNat), (0x08, 8, s.opb.toNat), (0x10, 8, s.res.toNat), (0x18, 4, s.stat.toWord.toNat)]

/-- A full-width read returns the register's bytes (R88). -/
theorem serve_read_of_readable {s : State} {off n v : Nat} (h : (off, n, v) ∈ s.readable) :
    serve (.read off n) s = .next { s with rdata := bytesLE n v } := by
  simp only [State.readable, List.mem_cons, Prod.mk.injEq, List.not_mem_nil, or_false] at h
  rcases h with ⟨rfl, rfl, rfl⟩ | ⟨rfl, rfl, rfl⟩ | ⟨rfl, rfl, rfl⟩ | ⟨rfl, rfl, rfl⟩ <;> rfl

/-- The bytes of a readable register are its value. -/
theorem valueLE_of_readable {s : State} {off n v : Nat} (h : (off, n, v) ∈ s.readable) :
    valueLE (bytesLE n v) = v := by
  simp only [State.readable, List.mem_cons, Prod.mk.injEq, List.not_mem_nil, or_false] at h
  rcases h with ⟨-, rfl, rfl⟩ | ⟨-, rfl, rfl⟩ | ⟨-, rfl, rfl⟩ | ⟨-, rfl, rfl⟩
  · exact valueLE_bytesLE_toNat (k := 8) s.opa
  · exact valueLE_bytesLE_toNat (k := 8) s.opb
  · exact valueLE_bytesLE_toNat (k := 8) s.res
  · exact valueLE_bytesLE_toNat (k := 4) s.stat.toWord

theorem exists_readable (s : State) {off n : Nat} (h : (off, n) ∈ [(0x00, 8), (0x08, 8), (0x10, 8), (0x18, 4)]) :
    ∃ v, (off, n, v) ∈ s.readable := by
  have hmap : s.readable.map (fun p => (p.1, p.2.1)) = [(0x00, 8), (0x08, 8), (0x10, 8), (0x18, 4)] := rfl
  rw [← hmap, List.mem_map] at h
  obtain ⟨⟨_, _, v⟩, hv, heq⟩ := h
  cases heq
  exact ⟨v, hv⟩

/-- Any other read is refused: at full width only that of CMD is left (R86, R87). -/
theorem serve_read_refused (s : State) {off n : Nat} (h : (off, n) ∉ [(0x00, 8), (0x08, 8), (0x10, 8), (0x18, 4)]) :
    ∃ r, serve (.read off n) s = .refused r := by
  by_cases hw : portWidth off = some n
  · have hcmd : off = offCmd := by
      have hmem := portWidth_eq_some_iff.mp hw
      simp only [List.mem_cons, Prod.mk.injEq, List.not_mem_nil, or_false, offCmd] at h hmem ⊢
      omega
    subst hcmd
    exact ⟨_, servePort_of_width hw _⟩
  · exact servePort_refused hw _

/-! ## Commands are not refused -/

theorem withInst_ne_refused {α : Type} {s : State} {of : BitVec 3 → Option α} {inst : BitVec 3}
    {body : α → Host.Outcome State Fault Refusal} {r : Refusal} (h : ∀ x, body x ≠ .refused r) :
    s.withInst of inst body ≠ .refused r := by
  rw [State.withInst]
  split
  · exact h _
  · nofun

theorem execStart_ne_refused (s : State) (r : Refusal) : execStart s ≠ .refused r := by
  rw [execStart]
  split <;> nofun

/-- No command is refused: each ends in a next state or in a fault of the model. -/
theorem exec_ne_refused (i : Instr) (s : State) (r : Refusal) : exec i s ≠ .refused r := by
  cases i with
  | nop | stop => nofun
  | start => exact execStart_ne_refused s r
  | cfgw | cfgr | rdst | rdsh => exact finish_ne_refused r
  | tblw | tblr => exact withInst_ne_refused fun _ => finish_ne_refused r
  | lut | dcf | dcfC | dcfU | hpf | hpfC | hpfU => exact withInst_ne_refused fun _ => finishUnlessFault_ne_refused r
  | _ => exact finishUnlessFault_ne_refused r

/-- Four bytes written to CMD are never refused: they run a command or raise ILLEGAL (30_encoding.md R109). -/
theorem runCommand_ne_refused {bytes : List Byte} (hl : bytes.length = 4) (s : State) (r : Refusal) :
    runCommand bytes s ≠ .refused r := by
  have hd : decodeBytes bytes = decode (BitVec.ofNat 32 (valueLE bytes)) := if_pos hl
  by_cases h : ∃ i, decodeBytes bytes = .ok i
  · obtain ⟨i, hi⟩ := h
    rw [runCommand, hi]
    exact exec_ne_refused i s r
  · rw [hd, not_exists] at h
    rw [runCommand, hd, decode_of_no_command h]
    nofun

/-! ## Writes -/

/-- The eight bytes of a value, written, are that value again (R85). -/
theorem ofNat_valueLE_bytesLE (v : Word) : BitVec.ofNat 64 (valueLE (bytesLE 8 v.toNat)) = v := by
  rw [valueLE_bytesLE_toNat (k := 8) v, BitVec.ofNat_toNat, BitVec.setWidth_eq]

theorem serve_write_opa (s : State) {bytes : List Byte} (hl : bytes.length = 8) :
    serve (.write 0x00 bytes) s = .next { s with opa := BitVec.ofNat 64 (valueLE bytes) } :=
  servePort_of_width (off := 0x00) (congrArg some hl.symm) _

theorem serve_write_opb (s : State) {bytes : List Byte} (hl : bytes.length = 8) :
    serve (.write 0x08 bytes) s = .next { s with opb := BitVec.ofNat 64 (valueLE bytes) } :=
  servePort_of_width (off := 0x08) (congrArg some hl.symm) _

theorem serve_write_cmd (s : State) {bytes : List Byte} (hl : bytes.length = 4) :
    serve (.write 0x1C bytes) s = runCommand bytes s :=
  servePort_of_width (off := 0x1C) (congrArg some hl.symm) _

/-- A full-width write to OPA, OPB or CMD is not refused (R87). -/
theorem serve_write_ne_refused (s : State) {off : Nat} {bytes : List Byte}
    (h : (off, bytes.length) ∈ [(0x00, 8), (0x08, 8), (0x1C, 4)]) (r : Refusal) :
    serve (.write off bytes) s ≠ .refused r := by
  simp only [List.mem_cons, Prod.mk.injEq, List.not_mem_nil, or_false] at h
  rcases h with ⟨rfl, hl⟩ | ⟨rfl, hl⟩ | ⟨rfl, hl⟩
  · rw [serve_write_opa s hl]
    nofun
  · rw [serve_write_opb s hl]
    nofun
  · rw [serve_write_cmd s hl]
    exact runCommand_ne_refused hl s r

/-- Any other write is refused: at full width only those to RES and STAT are left (R86, R87). -/
theorem serve_write_refused (s : State) {off : Nat} {bytes : List Byte}
    (h : (off, bytes.length) ∉ [(0x00, 8), (0x08, 8), (0x1C, 4)]) :
    ∃ r, serve (.write off bytes) s = .refused r := by
  by_cases hw : portWidth off = some bytes.length
  · have hserve : serve (.write off bytes) s = writePort off bytes s := servePort_of_width hw _
    have hro : off = offRes ∨ off = offStat := by
      have hmem := portWidth_eq_some_iff.mp hw
      simp only [List.mem_cons, Prod.mk.injEq, List.not_mem_nil, or_false, offRes, offStat] at h hmem ⊢
      omega
    rw [hserve]
    rcases hro with rfl | rfl <;> exact ⟨_, rfl⟩
  · exact servePort_refused hw _

/-! ## The statements -/

/-- Settles O7, register by register. -/
theorem portAccesses : Obligations.PortAccesses := by
  refine ⟨fun s v rest => ⟨fun hb => ?_, fun hb => ?_⟩, fun s rest off n v hmem hb => ?_⟩
  · rw [step_of_bus hb, serve_write_opa _ (bytesLE_length 8 _), ofNat_valueLE_bytesLE]
  · rw [step_of_bus hb, serve_write_opb _ (bytesLE_length 8 _), ofNat_valueLE_bytesLE]
  · have hread : (off, n, v) ∈ State.readable { s with bus := rest } := hmem
    refine ⟨bytesLE n v, bytesLE_length n v, valueLE_of_readable hread, ?_⟩
    rw [step_of_bus hb, serve_read_of_readable hread]

/-- Settles O8: each access is in the list of those served, or is refused. -/
theorem unsupportedAccessRefused : Obligations.UnsupportedAccessRefused := by
  refine ⟨fun s rest off n hb => ?_, fun s rest off bytes hb => ?_⟩
  · rw [step_of_bus hb]
    by_cases h : (off, n) ∈ [(0x00, 8), (0x08, 8), (0x10, 8), (0x18, 4)]
    · obtain ⟨v, hv⟩ := exists_readable { s with bus := rest } h
      simp [h, serve_read_of_readable hv]
    · obtain ⟨r, hr⟩ := serve_read_refused { s with bus := rest } h
      simp [h, hr]
  · rw [step_of_bus hb]
    exact ⟨serve_write_refused _, fun ⟨r, hr⟩ h => serve_write_ne_refused _ h r hr⟩

end Sys2Proof.Machine
end

section
/-! PROOFS. Decoding and encoding of command words (30_encoding.md R101 to R110, R114): the decoder inverts the
encoder, and a word spells a command exactly by its class mask. -/

namespace Sys2Proof.Machine

/-! ## A word and its fields, R101 -/

/-- Two words are equal exactly when their five fields are: the fields cover all 32 bits. -/
theorem word_eq_iff_fields {w v : CmdWord} : w = v ↔ opField w = opField v ∧ chField w = chField v ∧
    instField w = instField v ∧ rsvField w = rsvField v ∧ immField w = immField v := by
  refine ⟨fun h => h ▸ ⟨rfl, rfl, rfl, rfl, rfl⟩, fun h => BitVec.eq_of_toNat_eq ?_⟩
  simp only [opField, chField, instField, rsvField, immField, ← BitVec.toNat_inj, BitVec.extractLsb'_toNat,
    Nat.shiftRight_eq_div_pow] at h
  have hw := w.isLt
  have hv := v.isLt
  omega

theorem unusedZero_iff {f : Format} {w : CmdWord} : f.unusedZero w = true ↔ rsvField w = 0 ∧
    (f.usesCh = false → chField w = 0) ∧ (f.usesInst = false → instField w = 0) ∧
    (f.usesImm = false → immField w = 0) := by
  simp only [Format.unusedZero, Bool.and_eq_true, Bool.or_eq_true, beq_iff_eq, and_assoc, or_iff_not_imp_left,
    Bool.not_eq_true]

/-! ## The class masks, R108 -/

/-- A class mask covers OP and RSV, and exactly the fields that the class does not use. -/
theorem mask_fields (f : Format) : opField f.mask = BitVec.allOnes 8 ∧
    chField f.mask = (if f.usesCh then 0 else BitVec.allOnes 2) ∧
    instField f.mask = (if f.usesInst then 0 else BitVec.allOnes 3) ∧ rsvField f.mask = BitVec.allOnes 3 ∧
    immField f.mask = (if f.usesImm then 0 else BitVec.allOnes 16) := by
  cases f <;> decide

/-- An OP alone, as a word, has no other field. -/
theorem op_setWidth_fields (op : BitVec 8) : opField (op.setWidth 32) = op ∧ chField (op.setWidth 32) = 0 ∧
    instField (op.setWidth 32) = 0 ∧ rsvField (op.setWidth 32) = 0 ∧ immField (op.setWidth 32) = 0 := by
  have hpack : packWord op 0 0 0 = op.setWidth 32 := by simp [packWord]
  rw [← hpack]
  exact ⟨opField_packWord .., chField_packWord .., instField_packWord .., rsvField_packWord .., immField_packWord ..⟩

/-- Masking keeps the bits of each field that the mask covers. -/
theorem and_fields (w m : CmdWord) : opField (w &&& m) = opField w &&& opField m ∧
    chField (w &&& m) = chField w &&& chField m ∧ instField (w &&& m) = instField w &&& instField m ∧
    rsvField (w &&& m) = rsvField w &&& rsvField m ∧ immField (w &&& m) = immField w &&& immField m :=
  ⟨BitVec.extractLsb'_and, BitVec.extractLsb'_and, BitVec.extractLsb'_and, BitVec.extractLsb'_and,
    BitVec.extractLsb'_and⟩

/-- A field that the mask covers where it is unused is masked to zero exactly when it is zero or used. -/
theorem and_unused_eq_zero_iff {n : Nat} {used : Bool} {x : BitVec n} :
    x &&& (if used then 0 else BitVec.allOnes n) = 0 ↔ (used = false → x = 0) := by
  cases used <;> simp

/-- The mask test of R108 is the field test of R109. -/
theorem and_mask_eq_iff {f : Format} {op : BitVec 8} {w : CmdWord} :
    w &&& f.mask = op.setWidth 32 ↔ opField w = op ∧ f.unusedZero w = true := by
  obtain ⟨hop, hch, hinst, hrsv, himm⟩ := and_fields w f.mask
  obtain ⟨mop, mch, minst, mrsv, mimm⟩ := mask_fields f
  obtain ⟨oop, och, oinst, orsv, oimm⟩ := op_setWidth_fields op
  rw [word_eq_iff_fields, hop, hch, hinst, hrsv, himm, mop, mch, minst, mrsv, mimm, oop, och, oinst, orsv, oimm,
    and_unused_eq_zero_iff, and_unused_eq_zero_iff, and_unused_eq_zero_iff, BitVec.and_allOnes, BitVec.and_allOnes,
    unusedZero_iff]
  tauto

/-! ## The opcode map, R107 -/

/-- The row of a command's OP has the command's class, and builds the command from its fields. -/
theorem opcodeRow_opOf (i : Instr) : ∃ mk, opcodeRow (opOf i) = some (formatOf i, mk) ∧
    mk (fieldsOf i).1 (fieldsOf i).2.1 (fieldsOf i).2.2 = i := by
  cases i <;> exact ⟨_, rfl, rfl⟩

/-- A command that a row builds has the row's OP and class, and the fields that the class uses. -/
theorem opcodeRow_builds {op : BitVec 8} {f : Format} {mk : BitVec 2 → BitVec 3 → BitVec 16 → Instr}
    (h : opcodeRow op = some (f, mk)) (c : BitVec 2) (t : BitVec 3) (n : BitVec 16) :
    opOf (mk c t n) = op ∧ formatOf (mk c t n) = f ∧ fieldsOf (mk c t n) =
      (if f.usesCh then c else 0, if f.usesInst then t else 0, if f.usesImm then n else 0) := by
  unfold opcodeRow at h
  split at h <;> cases h
  all_goals
    next hop => exact ⟨BitVec.eq_of_toNat_eq hop.symm, rfl, rfl⟩

/-- Commands of one OP are of one class. -/
theorem formatOf_eq_of_opOf_eq {i j : Instr} (h : opOf i = opOf j) : formatOf i = formatOf j := by
  obtain ⟨mi, hi, -⟩ := opcodeRow_opOf i
  obtain ⟨mj, hj, -⟩ := opcodeRow_opOf j
  have hrow := hj.symm.trans (h ▸ hi)
  exact (congrArg Prod.fst (Option.some.inj hrow)).symm

/-- A command's word is zero in every field that its class does not use (R102). -/
theorem fieldsOf_unused (i : Instr) : ((formatOf i).usesCh = false → (fieldsOf i).1 = 0) ∧
    ((formatOf i).usesInst = false → (fieldsOf i).2.1 = 0) ∧ ((formatOf i).usesImm = false → (fieldsOf i).2.2 = 0) := by
  obtain ⟨mk, hrow, hmk⟩ := opcodeRow_opOf i
  have hf := (opcodeRow_builds hrow (fieldsOf i).1 (fieldsOf i).2.1 (fieldsOf i).2.2).2.2
  rw [hmk] at hf
  refine ⟨fun h => ?_, fun h => ?_, fun h => ?_⟩ <;> rw [hf, h] <;> rfl

/-- R108's match pattern: a command's word, masked with its class mask, is its OP. -/
theorem encode_and_mask (i : Instr) : encode i &&& (formatOf i).mask = (opOf i).setWidth 32 :=
  Laws.EncodeMatches.ofFields (fieldsOf_unused i)

/-! ## Decoding and encoding -/

/-- R109 for a word whose OP has a row and whose unused fields are zero. -/
theorem decode_of_row {w : CmdWord} {f : Format} {mk : BitVec 2 → BitVec 3 → BitVec 16 → Instr}
    (hrow : opcodeRow (opField w) = some (f, mk)) (hz : f.unusedZero w = true) :
    decode w = .ok (mk (chField w) (instField w) (immField w)) := by
  rw [decode, hrow]
  exact if_pos hz

/-- A word that names a command has a row of the opcode map, whose class leaves its other fields zero. -/
theorem row_of_decode_ok {w : CmdWord} {i : Instr} (h : decode w = .ok i) : ∃ f mk,
    opcodeRow (opField w) = some (f, mk) ∧ f.unusedZero w = true ∧
      i = mk (chField w) (instField w) (immField w) := by
  rw [decode] at h
  split at h
  · cases h
  · next f mk hrow =>
    split at h
    · next hz =>
      cases h
      exact ⟨f, mk, hrow, hz, rfl⟩
    · cases h

/-- What a command keeps of a field that is zero where it is unused is the field. -/
theorem used_or_zero {n : Nat} {used : Bool} {x : BitVec n} (h : used = false → x = 0) :
    (if used then x else 0) = x := by
  cases used with
  | false => exact (h rfl).symm
  | true => rfl

theorem decode_encode (i : Instr) : decode (encode i) = .ok i := by
  obtain ⟨mk, hrow, hmk⟩ := opcodeRow_opOf i
  obtain ⟨hop, hz⟩ := and_mask_eq_iff.mp (encode_and_mask i)
  rw [decode_of_row (hop ▸ hrow) hz, encode, chField_packWord, instField_packWord, immField_packWord, hmk]

theorem encode_of_decode {w : CmdWord} {i : Instr} (h : decode w = .ok i) : encode i = w := by
  obtain ⟨f, mk, hrow, hz, rfl⟩ := row_of_decode_ok h
  obtain ⟨hop, -, hfields⟩ := opcodeRow_builds hrow (chField w) (instField w) (immField w)
  obtain ⟨hrsv, hch, hinst, himm⟩ := unusedZero_iff.mp hz
  rw [encode, hop, hfields, used_or_zero hch, used_or_zero hinst, used_or_zero himm]
  exact packWord_fields hrsv

/-- The decoder is the inverse of the encoder. -/
theorem decode_eq_ok_iff {w : CmdWord} {i : Instr} : decode w = .ok i ↔ encode i = w :=
  ⟨encode_of_decode, fun h => h ▸ decode_encode i⟩

/-- R108: the words that a command's class mask reduces to its OP are those that decode to a command of this OP. -/
theorem and_mask_eq_opOf_iff {i : Instr} {w : CmdWord} :
    w &&& (formatOf i).mask = (opOf i).setWidth 32 ↔ ∃ j, decode w = .ok j ∧ opOf j = opOf i := by
  constructor
  · intro h
    obtain ⟨hop, hz⟩ := and_mask_eq_iff.mp h
    obtain ⟨mk, hrow, -⟩ := opcodeRow_opOf i
    exact ⟨_, decode_of_row (hop ▸ hrow) hz, (opcodeRow_builds hrow _ _ _).1⟩
  · rintro ⟨j, hj, hop⟩
    rw [← encode_of_decode hj, ← hop, ← formatOf_eq_of_opOf_eq hop]
    exact encode_and_mask j

/-! ## How many OP values are assigned, R110 -/

theorem assigned_count : ((List.range 256).filter fun n => (opcodeRow (BitVec.ofNat 8 n)).isSome).length = 31 := by
  decide

/-- The unassigned OP values are the rest of the 256. -/
theorem unassigned_count : ((List.range 256).filter fun n => (opcodeRow (BitVec.ofNat 8 n)).isNone).length = 225 := by
  have hsplit := List.length_eq_length_filter_add (l := List.range 256)
    fun n => (opcodeRow (BitVec.ofNat 8 n)).isSome
  simp only [assigned_count, List.length_range, Option.not_isSome] at hsplit
  omega

/-! ## Running a word, R109 and R110 -/

theorem decode_of_unassigned {w : CmdWord} (h : opcodeRow (opField w) = none) :
    decode w = .error (.illegal (opField w)) := by
  rw [decode, h]

theorem runCommand_of_decode_ok {w : CmdWord} {i : Instr} (h : decode w = .ok i) (s : State) :
    runCommand (bytesLE 4 w.toNat) s = exec i s := by
  rw [runCommand, decodeBytes_bytesLE, h]

theorem runCommand_of_illegal {w : CmdWord} {op : BitVec 8} (h : decode w = .error (.illegal op)) (s : State) :
    runCommand (bytesLE 4 w.toNat) s = .next (s.raise .illegal (op.setWidth 16)) := by
  rw [runCommand, decodeBytes_bytesLE, h]

/-- A word that its OP's class mask does not reduce to the OP names no command. -/
theorem decode_of_and_mask_ne {w : CmdWord} {i : Instr} (hop : opField w = opOf i)
    (h : w &&& (formatOf i).mask ≠ (opOf i).setWidth 32) : decode w = .error (.illegal (opField w)) := by
  refine decode_of_no_command fun j hj => h (and_mask_eq_opOf_iff.mpr ⟨j, hj, ?_⟩)
  rw [← hop, ← encode_of_decode hj, encode, opField_packWord]

/-! ## The statements -/

/-- Settles O1, by the row of the command's OP. -/
theorem decodeOfEncode : Obligations.DecodeOfEncode := decode_encode

/-- Settles O2: the row's class leaves no bit of the word unread. -/
theorem encodeOfDecode : Obligations.EncodeOfDecode := fun _ _ => encode_of_decode

/-- Settles O3: both tests of one word read the same OP field. -/
theorem wordSpellsByMask : Obligations.WordSpellsByMask := by
  refine ⟨by decide, fun i w => and_mask_eq_opOf_iff, fun i j w hi hj => ?_⟩
  exact (and_mask_eq_iff.mp hi).1.symm.trans (and_mask_eq_iff.mp hj).1

/-- Settles O4: the OP values are counted one by one; a word of an assigned OP is decided by its class mask. -/
theorem illegalWords : Obligations.IllegalWords := by
  refine ⟨assigned_count, unassigned_count, by decide, fun w s h => runCommand_of_illegal (decode_of_unassigned h) s,
    fun w s i hop => ⟨fun h => runCommand_of_illegal (decode_of_and_mask_ne hop h) s, fun h => ?_⟩⟩
  obtain ⟨j, hj, hji⟩ := and_mask_eq_opOf_iff.mp h
  exact ⟨j, hji, encode_of_decode hj, runCommand_of_decode_ok hj s⟩

/-- Settles O5: the nine decodings are encodings read backwards, and these are computed. -/
theorem specEncodingExamples : Obligations.SpecEncodingExamples := by
  unfold Obligations.SpecEncodingExamples
  simp only [decode_eq_ok_iff]
  decide

end Sys2Proof.Machine
end

section
/-! PROOFS. The faults that a field of the command word raises (30_encoding.md R104, R105): an instance or a channel
that the field does not name. -/

namespace Sys2Proof.Machine

/-! ## BAD_INSTANCE, R105 -/

theorem tableId_ofInst_isSome (t : BitVec 3) : (TableId.ofInst t).isSome = decide (t.toNat ≤ 5) := by
  revert t
  decide

theorem dcfId_ofInst_isSome (k : BitVec 3) : (DcfId.ofInst k).isSome = decide (k.toNat ≤ 2) := by
  revert k
  decide

theorem hpfId_ofInst_isSome (h : BitVec 3) : (HpfId.ofInst h).isSome = decide (h.toNat ≤ 1) := by
  revert h
  decide

/-- A command whose instance field names nothing raises BAD_INSTANCE. -/
theorem withInst_of_isSome_false {α : Type} {s : State} {of : BitVec 3 → Option α} {inst : BitVec 3}
    (h : (of inst).isSome = false) (body : α → Host.Outcome State Fault Refusal) :
    s.withInst of inst body = .next (s.raise .badInstance (inst.setWidth 16)) :=
  withInst_of_none (Option.not_isSome_iff_eq_none.mp (Bool.eq_false_iff.mp h)) body

/-- Settles O15: only the commands with an instance field can be ill-formed. -/
theorem badInstanceRaised : Obligations.BadInstanceRaised := by
  intro i s hwf
  cases i with
  | tblw t | tblr t | lut t => exact withInst_of_isSome_false ((tableId_ofInst_isSome t).trans hwf) _
  | dcf _ k | dcfC _ k | dcfU _ k => exact withInst_of_isSome_false ((dcfId_ofInst_isSome k).trans hwf) _
  | hpf _ h | hpfC _ h | hpfU _ h => exact withInst_of_isSome_false ((hpfId_ofInst_isSome h).trans hwf) _
  | _ => cases hwf

/-! ## BAD_CHANNEL, R104 -/

section
variable {s : State} {ch : BitVec 2}

/-- In a session, what follows the channel check does not run where CH names no channel. -/
theorem onChannel_of_none {α : Type} (hs : s.stat.started = true) (hch : ∀ c, ¬ selects s ch c) (op : BitVec 16)
    (body : Channel → Except Stop α) :
    (do s.needStarted op; let c ← s.needChannel ch; body c) = .error (.raise .badChannel (ch.setWidth 16)) := by
  rw [needStarted_of_started hs, needChannel_of_none hch]
  rfl

/-- An inhibitable command of a channel (10_state.md R48) raises BAD_CHANNEL where CH names none. -/
theorem finishUnlessFault_badChannel (hr : ready s) (hch : ∀ c, ¬ selects s ch c) (op : BitVec 16)
    (body : Channel → Except Stop State) :
    s.finishUnlessFault (do s.needStarted op; let c ← s.needChannel ch; body c) =
      .next (s.raise .badChannel (ch.setWidth 16)) := by
  rw [finishUnlessFault_of_no_fault hr.2, onChannel_of_none hr.1 hch, finish_raise]

/-- A command that reads a register of a channel (40_control.md R138, R139) raises BAD_CHANNEL where CH names none. -/
theorem finish_needNum_badChannel {α : Type} {r : Option α} (hnum : r.isSome = true) (hs : s.stat.started = true)
    (hch : ∀ c, ¬ selects s ch c) (n op : BitVec 16) (body : α → Channel → Except Stop State) :
    s.finish (do let x ← needNum r n; s.needStarted op; let c ← s.needChannel ch; body x c) =
      .next (s.raise .badChannel (ch.setWidth 16)) := by
  obtain ⟨x, rfl⟩ := Option.isSome_iff_exists.mp hnum
  exact congrArg s.finish (onChannel_of_none hs hch op (body x))

/-- A command whose instance field names something runs its body. -/
theorem withInst_eq_of_isSome {α : Type} {of : BitVec 3 → Option α} {inst : BitVec 3}
    {body : α → Host.Outcome State Fault Refusal} {o : Host.Outcome State Fault Refusal}
    (h : (of inst).isSome = true) (hbody : ∀ x, body x = o) : s.withInst of inst body = o := by
  obtain ⟨x, hx⟩ := Option.isSome_iff_exists.mp h
  rw [withInst_of_some hx, hbody]

end

/-- Settles O17: every per-channel command checks its channel as soon as its number, its instance and STARTED pass. -/
theorem badChannelRaised : Obligations.BadChannelRaised := by
  intro i s ch hi hwf hnum hr hch
  cases i with
  | rdst | rdsh =>
    cases hi
    exact finish_needNum_badChannel hnum hr.1 hch _ _ _
  | dcf _ k | dcfC _ k | dcfU _ k =>
    cases hi
    exact withInst_eq_of_isSome ((dcfId_ofInst_isSome k).trans hwf) fun _ => finishUnlessFault_badChannel hr hch _ _
  | hpf _ h | hpfC _ h | hpfU _ h =>
    cases hi
    exact withInst_eq_of_isSome ((hpfId_ofInst_isSome h).trans hwf) fun _ => finishUnlessFault_badChannel hr hch _ _
  | discard | slf | slfC | slfU | env | envC | envU | sp | spC | spU =>
    cases hi
    exact finishUnlessFault_badChannel hr hch _ _
  | _ => cases hi

end Sys2Proof.Machine
end

section
/-! PROOFS. START (40_control.md R136): its ten configuration checks as one numbered series, the first one that fails,
and the table check after them (20_memory.md R82). -/

namespace Sys2Proof.Machine

/-! ## A numbered series of checks -/

@[simp] theorem demand_true (c : Cause) (d : BitVec 16) : demand true c d = .ok () := rfl

@[simp] theorem demand_false (c : Cause) (d : BitVec 16) : demand false c d = .error (.raise c d) := rfl

/-- Check number `k` and the `n` checks after it, each raising `c` with its own number as detail. -/
def checksFrom (p : Nat → Bool) (c : Cause) : Nat → Nat → Except Stop Unit
  | k, 0 => demand (p k) c (BitVec.ofNat 16 k)
  | k, n + 1 => do
    demand (p k) c (BitVec.ofNat 16 k)
    checksFrom p c (k + 1) n

theorem checksFrom_of_true {p : Nat → Bool} (c : Cause) (n : Nat) :
    ∀ {k : Nat}, (∀ j, k ≤ j → p j = true) → checksFrom p c k n = .ok () := by
  induction n with
  | zero =>
    intro k hp
    rw [checksFrom, hp k le_rfl, demand_true]
  | succ n ih =>
    intro k hp
    rw [checksFrom, hp k le_rfl, demand_true, except_ok_bind, ih fun j hj => hp j (by omega)]

/-- The first check that fails raises its number. -/
theorem checksFrom_of_first_failure {p : Nat → Bool} (c : Cause) {m : Nat} (hfail : p m = false) (n : Nat) :
    ∀ {k : Nat}, k ≤ m → m ≤ k + n → (∀ j, k ≤ j → j < m → p j = true) →
      checksFrom p c k n = .error (.raise c (BitVec.ofNat 16 m)) := by
  induction n with
  | zero =>
    intro k hk hm hp
    obtain rfl : k = m := by omega
    rw [checksFrom, hfail, demand_false]
  | succ n ih =>
    intro k hk hm hp
    rcases hk.eq_or_lt with rfl | hlt
    · rw [checksFrom, hfail, demand_false, except_error_bind]
    · rw [checksFrom, hp k le_rfl hlt, demand_true, except_ok_bind,
        ih hlt (by omega) fun j hj => hp j (by omega)]

/-! ## The ten conditions -/

/-- What START's configuration check number `k` computes. -/
def Cfg.startCheck (g : Cfg) : Nat → Bool
  | 1 => g.nch == 1 || g.nch == 2
  | 2 => g.bits == 8 || g.bits == 16 || g.bits == 24
  | 3 => g.flt == 1 || g.flt == 2 || g.flt == 3 || g.flt == 4
  | 4 => g.sr != 0
  | 5 => g.multipliers.all fun m => decide (0 < m.toInt)
  | 6 => allTables.all fun t => decide (0 < (g.geom t).q.toInt)
  | 7 => decide (0 < g.cliplim.toInt)
  | 8 => decide (0 ≤ g.vd.toInt)
  | 9 => g.coefs.all Coef.inRange
  | 10 => allTables.all fun t => (g.geom t).inInt64 t.size
  | _ => true

theorem cfg_check_eq (g : Cfg) : g.check = checksFrom g.startCheck .badConfig 1 9 := rfl

theorem forall_dcfId {P : DcfId → Prop} : (∀ k, P k) ↔ P .k0 ∧ P .k1 ∧ P .k2 := by
  refine ⟨fun h => ⟨h _, h _, h _⟩, fun ⟨h0, h1, h2⟩ k => ?_⟩
  cases k <;> assumption

theorem forall_hpfId {P : HpfId → Prop} : (∀ h, P h) ↔ P .h0 ∧ P .h1 := by
  refine ⟨fun h => ⟨h _, h _⟩, fun ⟨h0, h1⟩ k => ?_⟩
  cases k <;> assumption

theorem allTables_all_iff {p : TableId → Bool} : allTables.all p = true ↔ ∀ t, p t = true := by
  rw [List.all_eq_true]
  exact ⟨fun h t => h t (mem_allTables t), fun h t _ => h t⟩

theorem geom_inInt64_iff {x : Geom} {size : Nat} : x.inInt64 size = true ↔
    fits (((size : Int) - 1) * x.q.toInt) ∧ fits (x.v0.toInt + ((size : Int) - 1) * x.q.toInt) := by
  simp only [Geom.inInt64, isInt64, Bool.and_eq_true, decide_eq_true_eq]
  rfl

/-- Each check computes what the rule demands. -/
theorem startCheck_iff (g : Cfg) (k : Nat) : g.startCheck k = true ↔ startCondition g k := by
  match k with
  | 0 => exact iff_of_true rfl trivial
  | 1 | 2 | 4 => simp [Cfg.startCheck, startCondition, ← BitVec.toNat_inj, or_assoc]
  | 3 =>
    simp only [Cfg.startCheck, startCondition, Bool.or_eq_true, beq_iff_eq, ← BitVec.toNat_inj,
      BitVec.ofNat_eq_ofNat, BitVec.toNat_ofNat]
    omega
  | 5 =>
    simp [Cfg.startCheck, startCondition, Cfg.multipliers, forall_dcfId, forall_hpfId, Cfg.dcf, Cfg.hpf, and_assoc]
  | 6 => simp only [Cfg.startCheck, startCondition, allTables_all_iff, decide_eq_true_eq]
  | 7 | 8 => exact decide_eq_true_iff
  | 9 =>
    simp [Cfg.startCheck, startCondition, Cfg.coefs, Coef.inRange, forall_dcfId, forall_hpfId, Cfg.dcf, Cfg.hpf,
      and_assoc]
  | 10 => simp only [Cfg.startCheck, startCondition, allTables_all_iff, geom_inInt64_iff]
  | _ + 11 => exact iff_of_true rfl trivial

theorem cfg_check_of_conditions {g : Cfg} (h : ∀ k, startCondition g k) : g.check = .ok () := by
  rw [cfg_check_eq]
  exact checksFrom_of_true _ _ fun k _ => (startCheck_iff g k).mpr (h k)

/-- The first condition that fails is the one BAD_CONFIG names (R136). -/
theorem cfg_check_of_first_failure {g : Cfg} {k : Nat} (h1 : 1 ≤ k) (h10 : k ≤ 10)
    (hbefore : ∀ j, j < k → startCondition g j) (hfail : ¬ startCondition g k) :
    g.check = .error (.raise .badConfig (BitVec.ofNat 16 k)) := by
  rw [cfg_check_eq]
  have hk : g.startCheck k = false := Bool.eq_false_iff.mpr fun h => hfail ((startCheck_iff g k).mp h)
  exact checksFrom_of_first_failure _ hk _ h1 h10 fun j _ hj => (startCheck_iff g j).mpr (hbefore j hj)

/-! ## The tables, R82 -/

/-- In canonical form a table's fullness is that every entry reads as a value. -/
theorem tables_full_iff {tb : Tables} (hwf : tb.wf = true) (t : TableId) :
    (tb.get t).full t.size = true ↔ ∀ i, i < t.size → ∃ v, tb.read t i = some v :=
  memory_full_iff ((tables_wf_iff tb).mp hwf t)

/-- The tables stand in the order of their numbers. -/
theorem allTables_split (t : TableId) : allTables = allTables.take t.num ++ t :: allTables.drop (t.num + 1) ∧
    ∀ u ∈ allTables.take t.num, u.num < t.num := by
  cases t <;> decide

/-- The lowest table with an unwritten entry is the one RESOURCE names. -/
theorem tables_check_of_first_incomplete {tb : Tables} {t : TableId} (ht : (tb.get t).full t.size = false)
    (hbelow : ∀ u : TableId, u.num < t.num → (tb.get u).full u.size = true) :
    tb.check = .error (.raise .resource (BitVec.ofNat 16 (t.num + 1))) := by
  obtain ⟨hsplit, hlow⟩ := allTables_split t
  have hfirst : tb.firstIncomplete = some t := by
    rw [Tables.firstIncomplete, List.find?_eq_some_iff_append]
    exact ⟨by simp [ht], _, _, hsplit, fun u hu => by simp [hbelow u (hlow u hu)]⟩
  rw [Tables.check, hfirst]

/-! ## START -/

theorem exec_start_of_checks {s : State} (hc : s.cfg.check = .ok ()) (ht : s.tables.check = .ok ()) :
    exec .start s = .next s.startSession := by
  rw [exec, execStart, hc, ht]
  rfl

theorem exec_start_of_cfg_error {s : State} {c : Cause} {d : BitVec 16} (h : s.cfg.check = .error (.raise c d)) :
    exec .start s = .next (s.raiseStart c d) := by
  rw [exec, execStart, h]
  rfl

theorem exec_start_of_tables_error {s : State} {c : Cause} {d : BitVec 16} (hc : s.cfg.check = .ok ())
    (ht : s.tables.check = .error (.raise c d)) : exec .start s = .next (s.raiseStart c d) := by
  rw [exec, execStart, hc, ht]
  rfl

/-- The factor in the registers' own numbers (70_reset_and_hazards.md R404). -/
theorem factor_eq (g : Cfg) : g.factor =
    if g.ups.toNat ≠ 0 then g.ups.toNat else max 1 ((200000 + g.sr.toNat - 1) / g.sr.toNat) := by
  have hups : g.ups ≠ 0 ↔ g.ups.toNat ≠ 0 := by simp [← BitVec.toNat_inj]
  simp only [Cfg.factor, hups, Config.autoRate]

/-- Settles O24: both of START's checks pass. -/
theorem startStartsSession : Obligations.StartStartsSession := by
  intro s hwf hcond hfull n
  have htables : s.tables.check = .ok () :=
    (tables_check_ok_iff _).mpr fun t => (tables_full_iff hwf t).mpr (hfull t)
  have hn : s.cfg.factor = n := factor_eq s.cfg
  rw [exec_start_of_checks (cfg_check_of_conditions hcond) htables, State.startSession, hn]
  rfl

/-- Settles O25, by the first check that fails in the series of the ten, or in the series of the six tables. -/
theorem startReportsFirstFailure : Obligations.StartReportsFirstFailure := by
  refine fun s hwf => ⟨fun k h1 h10 hbefore hfail => ?_, fun hcond t hmissing hbelow => ?_⟩
  · exact exec_start_of_cfg_error (cfg_check_of_first_failure h1 h10 hbefore hfail)
  · obtain ⟨i, hi, hnone⟩ := hmissing
    have ht : (s.tables.get t).full t.size = false := by
      refine Bool.eq_false_iff.mpr fun hfull => ?_
      obtain ⟨v, hv⟩ := (tables_full_iff hwf t).mp hfull i hi
      exact nomatch hnone.symm.trans hv
    exact exec_start_of_tables_error (cfg_check_of_conditions hcond)
      (tables_check_of_first_incomplete ht fun u hu => (tables_full_iff hwf u).mpr (hbelow u hu))

end Sys2Proof.Machine
end

section
/-! PROOFS. The control commands beside START (40_control.md R131 to R143): what each does in every state, by the checks
of 60_exceptions.md R370 in their order. -/

namespace Sys2Proof.Machine

/-! ## The checks that several commands share -/

@[simp] theorem needNum_some {α : Type} (x : α) (n : BitVec 16) : needNum (some x) n = .ok x := rfl

@[simp] theorem needNum_none {α : Type} (n : BitVec 16) :
    needNum (none : Option α) n = .error (.raise .badReg n) := rfl

theorem needIndex_of_lt {t : TableId} {i : BitVec 16} (h : i.toNat < t.size) : needIndex t i = .ok i.toNat :=
  needIndex_eq_ok_iff.mpr ⟨h, rfl⟩

theorem needIndex_of_size_le {t : TableId} {i : BitVec 16} (h : t.size ≤ i.toNat) :
    needIndex t i = .error (.raise .badIndex i) := by
  rw [needIndex, if_neg (by omega)]

/-- In a session, what follows the channel check runs with the channel that CH names. -/
theorem onChannel_of_selects {α : Type} {s : State} {ch : BitVec 2} {c : Channel} (hs : s.stat.started = true)
    (hc : selects s ch c) (op : BitVec 16) (body : Channel → Except Stop α) :
    (do s.needStarted op; let c ← s.needChannel ch; body c) = body c := by
  rw [needStarted_of_started hs, needChannel_eq_ok_iff.mpr hc]
  rfl

/-- The end of an inhibitable command that has no check of its own. -/
theorem finishUnlessFault_ok (s t : State) :
    s.finishUnlessFault (.ok t) = .next (if s.stat.fault = true then s else t) := by
  rw [State.finishUnlessFault, finish_ok]
  split <;> rfl

/-! ## NOT_STARTED, R130 -/

section
variable {s : State}

/-- Without a session an inhibitable command that needs one raises NOT_STARTED(OP), whatever follows the check. -/
theorem finishUnlessFault_notStarted (hs : s.stat.started = false) (hf : s.stat.fault = false) (op : BitVec 16)
    (body : Except Stop State) :
    s.finishUnlessFault (do s.needStarted op; body) = .next (s.raise .notStarted op) := by
  rw [finishUnlessFault_of_no_fault hf, needStarted_of_idle hs, except_error_bind, finish_raise]

/-- A command that reads a register of a channel (R138, R139) raises NOT_STARTED(OP) after its number check. -/
theorem finish_needNum_notStarted {α : Type} {r : Option α} (hnum : r.isSome = true) (hs : s.stat.started = false)
    (n op : BitVec 16) (body : α → Except Stop State) :
    s.finish (do let x ← needNum r n; s.needStarted op; body x) = .next (s.raise .notStarted op) := by
  obtain ⟨x, rfl⟩ := Option.isSome_iff_exists.mp hnum
  rw [needNum_some, except_ok_bind, needStarted_of_idle hs, except_error_bind, finish_raise]

end

/-- Settles O16: STARTED is the first check of every command that needs it, after the number and INST. -/
theorem notStartedRaised : Obligations.NotStartedRaised := by
  intro i s hi hwf hnum hs hf
  cases i with
  | rdst | rdsh => exact finish_needNum_notStarted hnum hs _ _ _
  | lut t =>
    exact withInst_eq_of_isSome ((tableId_ofInst_isSome t).trans hwf) fun _ => finishUnlessFault_notStarted hs hf _ _
  | dcf _ k | dcfC _ k | dcfU _ k =>
    exact withInst_eq_of_isSome ((dcfId_ofInst_isSome k).trans hwf) fun _ => finishUnlessFault_notStarted hs hf _ _
  | hpf _ h | hpfC _ h | hpfU _ h =>
    exact withInst_eq_of_isSome ((hpfId_ofInst_isSome h).trans hwf) fun _ => finishUnlessFault_notStarted hs hf _ _
  | discard | mix | unmix | clip | slf | slfC | slfU | env | envC | envU | sp | spC | spU =>
    exact finishUnlessFault_notStarted hs hf _ _
  | _ => cases hi

/-! ## NOP, R131 -/

/-- Settles O18: NOP's class mask covers the whole word. -/
theorem nopDoesNothing : Obligations.NopDoesNothing := by
  refine ⟨by decide, fun _ => rfl, fun w s hop hw => ?_⟩
  have hmask : w &&& (formatOf .nop).mask ≠ (opOf .nop).setWidth 32 := by
    rwa [show (formatOf .nop).mask = BitVec.allOnes 32 by decide, BitVec.and_allOnes]
  rw [runCommand_of_illegal (decode_of_and_mask_ne (i := .nop) hop hmask), hop]
  rfl

/-! ## CFGW and CFGR, R132 and R133 -/

/-- The read-only registers (10_state.md R43, R44). -/
theorem cls_eq_readOnly_iff {r : CfgReg} : r.cls = .readOnly ↔ r ∈ [CfgReg.upsEff, .id] := by
  cases r <;> simp [CfgReg.cls]

/-- The registers that only a stopped block lets the host write (10_state.md R35 to R42). -/
theorem cls_eq_session_iff {r : CfgReg} (h : r ∉ [CfgReg.upsEff, .id]) :
    r.cls = .session ↔ r ∉ [CfgReg.fetgnd, .sidampV, .envgV, .fetsvt] := by
  cases r <;> simp_all [CfgReg.cls]

/-- CFGW of an assigned number: the access class decides. -/
theorem exec_cfgw_of_assigned {n : BitVec 16} {r : CfgReg} (s : State) (h : CfgReg.ofNum n = some r) :
    exec (.cfgw n) s = .next (
      if r.cls = .readOnly then s.raise .readOnly n
      else if r.cls = .session ∧ s.stat.started = true then s.raise .cfgLocked n
      else { s with cfg := s.cfg.write r s.opa }) := by
  rw [exec, execCfgw, h, needNum_some, except_ok_bind]
  cases r.cls <;> cases s.stat.started <;> rfl

/-- Settles O19, number assigned or not, by the access classes. -/
theorem cfgwWrites : Obligations.CfgwWrites := by
  intro s n
  cases h : CfgReg.ofNum n with
  | none => exact (exec_cfg_of_unassigned s h).1
  | some r =>
    rw [exec_cfgw_of_assigned s h]
    by_cases hro : r ∈ [CfgReg.upsEff, .id]
    · simp only [cls_eq_readOnly_iff, if_pos hro]
    · simp only [cls_eq_readOnly_iff, if_neg hro, cls_eq_session_iff hro]

theorem exec_cfgr_of_assigned {n : BitVec 16} {r : CfgReg} (s : State) (h : CfgReg.ofNum n = some r) :
    exec (.cfgr n) s = .next { s with res := s.cfg.read r } := by
  rw [exec, execCfgr, h]
  rfl

theorem encode_cfgr (n : BitVec 16) : encode (.cfgr n) = n ++ 0x0002#16 := by
  rw [BitVec.append_def, BitVec.or_comm, BitVec.shiftLeftZeroExtend_eq]
  simp [encode, packWord, opOf, fieldsOf]

/-- Settles O22, number assigned or not; the two constants are looked up in the registers. -/
theorem cfgrReads : Obligations.CfgrReads := by
  refine ⟨encode_cfgr, fun s n => ?_, exec_cfgr_of_assigned (r := .upsEff) _ rfl,
    exec_cfgr_of_assigned (r := .flt) _ rfl, fun s => exec_cfgr_of_assigned (r := .id) s rfl⟩
  cases h : CfgReg.ofNum n with
  | none => exact (exec_cfg_of_unassigned s h).2
  | some r => exact exec_cfgr_of_assigned s h

/-! ## TBLW and TBLR, R134 and R135 -/

section
variable {t : BitVec 3} {tb : TableId} (s : State) (ht : t.toNat = tb.num) (i : BitVec 16)
include ht

theorem exec_tblw_of_num : exec (.tblw t i) s = .next (
    if tb.size ≤ i.toNat then s.raise .badIndex i
    else if s.stat.started = true then s.raise .cfgLocked (tblLockDetail t)
    else { s with tables := s.tables.write tb i.toNat s.opa }) := by
  rw [exec, execTblw, withInst_of_some (tableId_ofInst_eq_some_iff.mpr ht)]
  split
  · next hi => rw [needIndex_of_size_le hi, except_error_bind, finish_raise]
  · next hi =>
    rw [needIndex_of_lt (by omega), except_ok_bind]
    cases s.stat.started <;> rfl

theorem exec_tblr_of_num : exec (.tblr t i) s = .next (
    if tb.size ≤ i.toNat then s.raise .badIndex i
    else match s.tables.read tb i.toNat with
      | none => s.raise .unwritten i
      | some v => { s with res := v }) := by
  rw [exec, execTblr, withInst_of_some (tableId_ofInst_eq_some_iff.mpr ht)]
  split
  · next hi => rw [needIndex_of_size_le hi, except_error_bind, finish_raise]
  · next hi =>
    rw [needIndex_of_lt (by omega), except_ok_bind]
    cases s.tables.read tb i.toNat <;> rfl

end

/-- Settles O23, by the two commands' rules and the table memory's read-after-write law. -/
theorem tableAccess : Obligations.TableAccess :=
  ⟨by decide, fun s _ i tb ht => ⟨exec_tblw_of_num s ht i, exec_tblr_of_num s ht i, fun _ =>
    ⟨tables_read_write_same _ tb _ _, fun _ _ h => tables_read_write_other _ _ h⟩⟩⟩

/-! ## STOP, R137 -/

/-- Settles O27: STOP checks nothing, and it empties the tables. -/
theorem stopEndsSession : Obligations.StopEndsSession :=
  ⟨by decide, fun _ => ⟨_, rfl, rfl, tables_empty_read⟩⟩

/-! ## RDST and RDSH, R138 and R139 -/

/-- Above 16 no state number names a bank field (10_state.md R49). -/
theorem bankField_ofNum_of_gt {n : BitVec 16} (h : 16 < n.toNat) : BankField.ofNum n = none := by
  unfold BankField.ofNum
  split <;> first | rfl | omega

theorem bankField_ofNum_isSome_upTo : ∀ m ≤ 16, (BankField.ofNum (BitVec.ofNat 16 m)).isSome = true := by
  decide

theorem bankField_ofNum_isSome_iff (n : BitVec 16) : (BankField.ofNum n).isSome = true ↔ n.toNat ≤ 16 := by
  rcases Nat.lt_or_ge 16 n.toNat with hgt | hle
  · simp [bankField_ofNum_of_gt hgt, hgt]
  · exact iff_of_true (by simpa using bankField_ofNum_isSome_upTo _ hle) hle

theorem stateReg_ofNum_eq (n : BitVec 16) : StateReg.ofNum n =
    if n.toNat ≤ 16 then (BankField.ofNum n).map .field
    else if n.toNat = 0x20 then some .pend
    else if n.toNat = 0x21 then some .tout
    else none := by
  unfold StateReg.ofNum
  split
  · next h => simp [h]
  · next h => simp [h]
  · next hpend htout =>
    split
    · rfl
    · next hgt => rw [bankField_ofNum_of_gt (by omega), Option.map_none]

section
variable {s : State} {ch : BitVec 2} {c : Channel} {n : BitVec 16}

/-- What follows the number check of a command that reads a register of channel `c`. -/
theorem finish_read_of_selects (hc : selects s ch c) (op : BitVec 16) (read : Channel → State) :
    s.finish (do s.needStarted op; let c ← s.needChannel ch; .ok (read c)) =
      .next (if s.stat.started = false then s.raise .notStarted op else read c) := by
  cases hs : s.stat.started with
  | false => rw [needStarted_of_idle hs, except_error_bind, finish_raise, if_pos rfl]
  | true => rw [onChannel_of_selects hs hc, finish_ok, if_neg (by decide)]

theorem exec_rdst_of_assigned {r : StateReg} (hc : selects s ch c) (h : StateReg.ofNum n = some r) :
    exec (.rdst ch n) s = .next (
      if s.stat.started = false then s.raise .notStarted 0x07 else { s with res := (s.chan c).read r }) := by
  rw [exec, execRdst, h]
  exact finish_read_of_selects hc _ _

theorem exec_rdsh_of_assigned {f : BankField} (hc : selects s ch c) (h : BankField.ofNum n = some f) :
    exec (.rdsh ch n) s = .next (
      if s.stat.started = false then s.raise .notStarted 0x08 else { s with res := (s.chan c).sh.read f }) := by
  rw [exec, execRdsh, h]
  exact finish_read_of_selects hc _ _

theorem exec_rdst_of_unassigned (h : StateReg.ofNum n = none) :
    exec (.rdst ch n) s = .next (s.raise .badReg n) := by
  rw [exec, execRdst, h]
  rfl

theorem exec_rdsh_of_unassigned (h : BankField.ofNum n = none) :
    exec (.rdsh ch n) s = .next (s.raise .badReg n) := by
  rw [exec, execRdsh, h]
  rfl

end

/-- Settles O28: both commands check the number, then STARTED; the numbers and the tags' codes are looked up. -/
theorem bankReads : Obligations.BankReads := by
  refine ⟨fun s ch c n hc => ⟨?_, ?_⟩, bankField_ofNum_isSome_iff, stateReg_ofNum_eq, by decide, fun _ => rfl⟩
  · cases h : StateReg.ofNum n with
    | none => exact exec_rdst_of_unassigned h
    | some r =>
      rw [exec_rdst_of_assigned hc h]
      cases r <;> rfl
  · cases h : BankField.ofNum n with
    | none => exact exec_rdsh_of_unassigned h
    | some f => exact exec_rdsh_of_assigned hc h

/-! ## DISCARD, RTOA and RTOB, R140, R142 and R143 -/

/-- Settles O29: in a session without a fault no check stops DISCARD. -/
theorem discardDropsTrial : Obligations.DiscardDropsTrial := by
  intro s ch c hr hc
  rw [exec, execDiscard, finishUnlessFault_of_no_fault hr.2, onChannel_of_selects hr.1 hc, finish_ok]
  cases c <;> rfl

/-- Settles O30: FAULT is the only thing that RTOA and RTOB look at. -/
theorem movesCopyResult : Obligations.MovesCopyResult :=
  ⟨by decide, by decide, fun s => ⟨finishUnlessFault_ok s _, finishUnlessFault_ok s _⟩⟩

end Sys2Proof.Machine
end

section
/-! PROOFS. The mixer and the diode clip (41_mixer_clip.md): what MIX, UNMIX and CLIP do in every state, and that UNMIX
undoes MIX. -/

namespace Sys2Proof.Machine

/-! ## A datapath command with no field, R130 -/

/-- An inhibitable command whose first check is STARTED, given what it does in a session. -/
theorem finishUnlessFault_needStarted {s t : State} {body : Except Stop State} (h : s.finish body = .next t)
    (op : BitVec 16) : s.finishUnlessFault (do s.needStarted op; body) = .next (
      if s.stat.fault = true then s else if s.stat.started = false then s.raise .notStarted op else t) := by
  cases hf : s.stat.fault with
  | true => rw [finishUnlessFault_of_fault hf, if_pos rfl]
  | false =>
    rw [if_neg Bool.false_ne_true]
    cases hs : s.stat.started with
    | false => rw [finishUnlessFault_notStarted hs hf, if_pos rfl]
    | true => rw [finishUnlessFault_of_no_fault hf, needStarted_of_started hs, except_ok_bind, h, if_neg (by decide)]

/-- The end of a command that checks one value and writes it. -/
theorem finish_chk (s : State) (v : Int) (write : Int → State) :
    s.finish (do let y ← chk v; .ok (write y)) = .next (if fits v then write v else s.raise .overflow 0) := by
  by_cases hv : fits v
  · rw [chk_of_fits hv, except_ok_bind, finish_ok, if_pos hv]
  · rw [chk_of_not_fits hv, except_error_bind, finish_raise, if_neg hv]

/-! ## MIX and UNMIX, R171 and R172 -/

theorem exec_mix (s : State) : exec .mix s = .next (
    if s.stat.fault = true then s
    else if s.stat.started = false then s.raise .notStarted 0x10
    else if fits (s.opa.toInt + s.opb.toInt) then { s with res := w64 (s.opa.toInt + s.opb.toInt) }
    else s.raise .overflow 0) :=
  finishUnlessFault_needStarted (finish_chk s _ fun y => { s with res := w64 y }) 0x10

theorem exec_unmix (s : State) : exec .unmix s = .next (
    if s.stat.fault = true then s
    else if s.stat.started = false then s.raise .notStarted 0x11
    else if fits (s.opa.toInt - s.opb.toInt) then { s with res := w64 (s.opa.toInt - s.opb.toInt) }
    else s.raise .overflow 0) :=
  finishUnlessFault_needStarted (finish_chk s _ fun y => { s with res := w64 y }) 0x11

section
variable {s : State}

/-- In a session without a fault neither of the two checks stops the command. -/
theorem ite_of_ready {α : Type} (hr : ready s) (a b c : α) :
    (if s.stat.fault = true then a else if s.stat.started = false then b else c) = c := by
  obtain ⟨hs, hf⟩ := hr
  simp [hs, hf]

theorem exec_mix_of_fits (hr : ready s) (h : fits (s.opa.toInt + s.opb.toInt)) :
    exec .mix s = .next { s with res := w64 (s.opa.toInt + s.opb.toInt) } := by
  rw [exec_mix, ite_of_ready hr, if_pos h]

theorem exec_unmix_of_fits (hr : ready s) (h : fits (s.opa.toInt - s.opb.toInt)) :
    exec .unmix s = .next { s with res := w64 (s.opa.toInt - s.opb.toInt) } := by
  rw [exec_unmix, ite_of_ready hr, if_pos h]

theorem exec_rtoa_of_no_fault (h : s.stat.fault = false) : exec .rtoa s = .next { s with opa := s.res } := by
  rw [exec, execRtoa, finishUnlessFault_of_no_fault h, finish_ok]

/-- R170: where the sum does not overflow, the difference taken from it is the first operand, which fits. -/
theorem mix_rtoa_unmix (hr : ready s) (h : fits (s.opa.toInt + s.opb.toInt)) :
    ∃ t u v, exec .mix s = .next t ∧ exec .rtoa t = .next u ∧ exec .unmix u = .next v ∧ v.res = s.opa := by
  have hdiff : (w64 (s.opa.toInt + s.opb.toInt)).toInt - s.opb.toInt = s.opa.toInt := by
    rw [w64_toInt h, add_sub_cancel_right]
  have hfits : fits ((w64 (s.opa.toInt + s.opb.toInt)).toInt - s.opb.toInt) := by
    rw [hdiff]
    exact fits_toInt s.opa
  refine ⟨_, _, _, exec_mix_of_fits hr h, exec_rtoa_of_no_fault hr.2, exec_unmix_of_fits hr hfits, ?_⟩
  exact (congrArg w64 hdiff).trans (toInt_w64 s.opa)

end

/-- Settles O31, by the equations of the two commands and R170's inverse. -/
theorem mixerAddsAndSubtracts : Obligations.MixerAddsAndSubtracts :=
  ⟨by decide, by decide, fun s => ⟨exec_mix s, exec_unmix s⟩, fun _ => mix_rtoa_unmix⟩

/-! ## The diode clip, R173 -/

section
variable {limit x : Int}

theorem diodeclip_of_ge (hl : 0 < limit) (h : limit ≤ x) : diodeclip limit x = (limit, true) := by
  have hc : clamp x (-limit) limit = limit := by unfold clamp; omega
  simp [diodeclip, hc, h]

theorem diodeclip_of_le_neg (hl : 0 < limit) (h : x ≤ -limit) : diodeclip limit x = (-limit, true) := by
  have hc : clamp x (-limit) limit = -limit := by unfold clamp; omega
  simp [diodeclip, hc, h]

theorem diodeclip_of_inside (h1 : -limit < x) (h2 : x < limit) : diodeclip limit x = (x, false) := by
  simp [diodeclip, clamp_of_mem h1.le h2.le, h1, h2]

end

/-! ## CLIP, R175 -/

theorem exec_clip (s : State) : exec .clip s = .next (
    if s.stat.fault = true then s
    else if s.stat.started = false then s.raise .notStarted 0x12
    else { s.setClip (diodeclip s.cfg.cliplim.toInt s.opa.toInt).2 with
      res := w64 (diodeclip s.cfg.cliplim.toInt s.opa.toInt).1 }) :=
  finishUnlessFault_needStarted (finish_ok s _) 0x12

/-- Settles O32: above, below and inside the boundaries of the clip. -/
theorem clipClamps : Obligations.ClipClamps := by
  refine ⟨by decide, fun s hl => ?_⟩
  rw [exec_clip]
  split_ifs with hf hs hge hle
  · rfl
  · rfl
  · rw [diodeclip_of_ge hl hge, toInt_w64]
    rfl
  · rw [diodeclip_of_le_neg hl hle]
    rfl
  · rw [diodeclip_of_inside (by omega) (by omega), toInt_w64]
    rfl

end Sys2Proof.Machine
end

section
/-! PROOFS. The lookup-table interpolator (42_lut.md): its formula for every voltage, that of all its checks only the
difference of two entries and its product can fail in a started session, and what LUT makes of it. -/

namespace Sys2Proof.Machine

/-! ## Between two entries, R190 -/

/-- The fraction `f / q` of a distance lies between 0 and that distance, so a value moved by it stays between the two
ends: the interpolator's last sum never overflows. -/
theorem fits_add_fraction {a b f q : Int} (hf : 0 ≤ f) (hfq : f < q) (ha : fits a) (hb : fits b) :
    fits (a + ((b - a) * f).tdiv q) := by
  have fraction : ∀ {x : Int}, 0 ≤ x → 0 ≤ (x * f).tdiv q ∧ (x * f).tdiv q ≤ x := fun hx =>
    tdiv_index_le (by omega) (mul_nonneg hx hf) (mul_le_mul_of_nonneg_left hfq.le hx)
  obtain ⟨ha1, ha2⟩ := ha
  obtain ⟨hb1, hb2⟩ := hb
  rcases le_total a b with h | h
  · have := fraction (sub_nonneg.mpr h)
    constructor <;> omega
  · have := fraction (sub_nonneg.mpr h)
    rw [← neg_sub a b, neg_mul, Int.neg_tdiv]
    constructor <;> omega

/-- What the interpolator does with the two adjacent entries `a` and `b`, at distance `f` above the first. -/
def interpBetween (a b f q : Int) : Except Stop Int := do
  let diff ← chk (b - a)
  let p ← chk (diff * f)
  let e ← tdiv p q
  chk (a + e)

theorem interpBetween_eq {a b f q : Int} (hf : 0 ≤ f) (hfq : f < q) (ha : fits a) (hb : fits b) :
    interpBetween a b f q = if fits (b - a) ∧ fits ((b - a) * f) then .ok (a + ((b - a) * f).tdiv q)
      else .error (.raise .overflow 0) := by
  rw [interpBetween]
  by_cases hd : fits (b - a)
  · rw [chk_of_fits hd, except_ok_bind]
    by_cases hp : fits ((b - a) * f)
    · rw [chk_of_fits hp, except_ok_bind, tdiv_of_pos (by omega) hp, except_ok_bind,
        chk_of_fits (fits_add_fraction hf hfq ha hb), if_pos ⟨hd, hp⟩]
    · rw [chk_of_not_fits hp, except_error_bind, if_neg fun h => hp h.2]
  · rw [chk_of_not_fits hd, except_error_bind, if_neg fun h => hd h.1]

/-! ## The index and the fraction of a voltage, R190 -/

theorem entry_of_read {tb : Tables} {t : TableId} {i : Nat} {w : Word} (h : tb.read t i = some w) :
    tb.entry t i = .ok w.toInt := by
  rw [Tables.entry, h]

/-- Where the lower bound is not above the upper one, the order of the two bounds does not matter. -/
theorem clamp_eq_max_min {x lo hi : Int} (h : lo ≤ hi) : clamp x lo hi = max lo (min x hi) := by
  unfold clamp; omega

/-- With the step positive and the geometry within int64 none of the checks before the entries fails: the interpolator
takes the entry at the quotient of the offset into the domain by the step, and the remainder as the fraction. -/
theorem interp_eq {g : Cfg} {tb : Tables} {t : TableId} {v v0 q top d : Int} (hv0 : v0 = (g.geom t).v0.toInt)
    (hgq : q = (g.geom t).q.toInt) (htop : top = v0 + ((t.size : Int) - 1) * q)
    (hd : d = max v0 (min v top) - v0) (hq : 0 < q) (hspan : fits (((t.size : Int) - 1) * q)) (hfit : fits top) :
    interp g tb t v =
      if d / q = (t.size : Int) - 1 then tb.entry t (t.size - 1)
      else (do
        let a ← tb.entry t (d / q).toNat
        let b ← tb.entry t ((d / q).toNat + 1)
        interpBetween a b (d % q) q) := by
  have hsize : 1 ≤ t.size := by cases t <;> decide
  have hspan0 : 0 ≤ ((t.size : Int) - 1) * q := mul_nonneg (by omega) hq.le
  have hd0 : 0 ≤ d := by omega
  have hdfits : fits d := by
    obtain ⟨-, hs⟩ := hspan
    constructor <;> omega
  have hf0 : 0 ≤ d % q := Int.emod_nonneg d hq.ne'
  have hparts : d / q * q + d % q = d := Int.ediv_mul_add_emod d q
  have hiq0 : 0 ≤ d / q * q := mul_nonneg (Int.ediv_nonneg hd0 hq.le) hq.le
  have hiqfits : fits (d / q * q) := by constructor <;> omega
  have hffits : fits (d % q) := by constructor <;> omega
  have hclamp : clamp v v0 top - v0 = d := by rw [clamp_eq_max_min (by omega), hd]
  have hfrac : d - d / q * q = d % q := by omega
  unfold interp interpBetween
  simp only [← hv0, ← hgq, chk_of_fits hspan, except_ok_bind, ← htop, chk_of_fits hfit, hclamp, chk_of_fits hdfits,
    tdiv_of_pos hq hdfits, Int.tdiv_eq_ediv_of_nonneg hd0, chk_of_fits hiqfits, hfrac, chk_of_fits hffits]

/-- Settles O33: the two cases of the interpolator's equation, and between two entries the one sum that cannot
overflow. -/
theorem interpolatorFormula : Obligations.InterpolatorFormula := by
  intro g tb t v v0 q top i f hq hspan htop
  have heq := interp_eq (tb := tb) (v := v) rfl rfl rfl rfl hq hspan htop
  refine ⟨fun hi w hw => ?_, fun hi a b ha hb => ?_⟩
  · rw [heq, if_pos hi, entry_of_read hw]
  · rw [heq, if_neg hi.ne, entry_of_read ha, except_ok_bind, entry_of_read hb, except_ok_bind]
    exact interpBetween_eq (Int.emod_nonneg _ hq.ne') (Int.emod_lt_of_pos _ hq) (fits_toInt a) (fits_toInt b)

/-! ## LUT, R191 -/

/-- In a session without a fault, LUT of a table that exists is the interpolation and the write of its result. -/
theorem exec_lut_of_ready {s : State} {t : BitVec 3} {tb : TableId} (hr : ready s) (ht : t.toNat = tb.num) :
    exec (.lut t) s =
      s.finish (do let y ← interp s.cfg s.tables tb s.opa.toInt; .ok { s with res := w64 y }) := by
  rw [exec, execLut, withInst_of_some (tableId_ofInst_eq_some_iff.mpr ht), finishUnlessFault_of_no_fault hr.2,
    needStarted_of_started hr.1, except_ok_bind]

/-- In a session of a state with the invariant every table is full and every step positive, so that the interpolator
has a value or overflows. -/
theorem interp_value_or_overflow {s : State} (h : s.Inv) (hs : s.stat.started = true) (tb : TableId) (v : Int) :
    (∃ y, interp s.cfg s.tables tb v = .ok y) ∨ interp s.cfg s.tables tb v = .error (.raise .overflow 0) := by
  obtain ⟨sound, -⟩ := soundSession_of_inv h hs
  exact value_or_overflow (onlyOverflow_interp _ _ _ _) (notStuck_interp v (sound.step tb) (sound.full tb))

/-- Settles O34: the command's outcome follows the interpolator's, which the invariant keeps from being stuck. -/
theorem lutReturnsInterpolation : Obligations.LutReturnsInterpolation := by
  intro s t tb hr ht
  refine ⟨fun y hy => ?_, fun hy => ?_, fun h => interp_value_or_overflow h hr.1 tb _⟩
  · rw [exec_lut_of_ready hr ht, hy, except_ok_bind, finish_ok, w64]
  · rw [exec_lut_of_ready hr ht, hy, except_error_bind, finish_raise]

end Sys2Proof.Machine
end

section
/-! PROOFS. The DC filter and the high-pass step (43_filters.md R214 to R218): each returns its formula where every
intermediate is an int64 and OVERFLOW where one is not, and the DC filter reaches a constant input. -/

namespace Sys2Proof.Machine

/-! ## The division of the step, R214 -/

section
variable {a m : Int}

/-- The step's remainder, taken as a difference, is the remainder of the division. -/
theorem sub_tdiv_mul (a m : Int) : a - a.tdiv m * m = a.tmod m := by
  rw [Int.tmod_def, mul_comm]

/-- A remainder lies between 0 and the dividend. -/
theorem tmod_between (hm : 0 < m) :
    (0 ≤ a → 0 ≤ a.tmod m ∧ a.tmod m ≤ a) ∧ (a ≤ 0 → a ≤ a.tmod m ∧ a.tmod m ≤ 0) := by
  have hnonneg : ∀ {b : Int}, 0 ≤ b → 0 ≤ b.tmod m ∧ b.tmod m ≤ b := by
    intro b hb
    have hprod : 0 ≤ b.tdiv m * m := mul_nonneg (Int.tdiv_nonneg hb hm.le) hm.le
    have hsub := sub_tdiv_mul b m
    exact ⟨Int.tmod_nonneg m hb, by omega⟩
  refine ⟨hnonneg, fun ha => ?_⟩
  have hneg := hnonneg (neg_nonneg.mpr ha)
  rw [Int.neg_tmod] at hneg
  omega

theorem tdiv_eq_zero_of_abs_lt (h : |a| < m) : a.tdiv m = 0 := by
  rw [Int.abs_eq_natAbs] at h
  rw [← Int.natAbs_eq_zero, Int.natAbs_tdiv]
  exact Nat.div_eq_of_lt (by omega)

/-- Truncation keeps a quotient that is above -1 and below `n + 1` between 0 and `n`. -/
theorem tdiv_mem_of_lt {n : Int} (hm : 0 < m) (hlo : -m < a) (hhi : a < (n + 1) * m) (hn : 0 ≤ n) :
    0 ≤ a.tdiv m ∧ a.tdiv m ≤ n := by
  rcases le_total 0 a with ha | ha
  · refine ⟨Int.tdiv_nonneg ha hm.le, Int.lt_add_one_iff.mp ?_⟩
    rw [Int.tdiv_eq_ediv_of_nonneg ha]
    exact Int.ediv_lt_of_lt_mul hm hhi
  · rw [tdiv_eq_zero_of_abs_lt (abs_lt.mpr ⟨hlo, by omega⟩)]
    exact ⟨le_rfl, hn⟩

end

/-! ## The DC filter step, R214 -/

section
variable {y r x a m : Int}

/-- Where the accumulator is an int64, so are the product that the division takes off it and what is left. -/
theorem dcfStep_of_fits (h : dcfFits y r x a m) : dcfStep y r x a m = .ok (dcfY y r x a m, dcfR y r x a m) := by
  obtain ⟨hm, hdelta, hprod, hacc, hy⟩ := h
  have hsub := sub_tdiv_mul (accOf y r x a) m
  have hbetween := tmod_between (a := accOf y r x a) hm
  have htaken : fits ((accOf y r x a).tdiv m * m) := by
    obtain ⟨h1, h2⟩ := hacc
    constructor <;> omega
  have hrest : fits ((accOf y r x a).tmod m) := by
    obtain ⟨h1, h2⟩ := hacc
    constructor <;> omega
  have hdiv := tdiv_of_pos hm hacc
  unfold dcfY at hy
  unfold accOf at *
  simp only [dcfStep, chk_of_fits hdelta, except_ok_bind, chk_of_fits hprod, chk_of_fits hacc, hdiv,
    chk_of_fits htaken, hsub, chk_of_fits hrest, chk_of_fits hy, dcfY, dcfR, accOf]

theorem dcfFits_of_ok {p : Int × Int} (hm : 0 < m) (h : dcfStep y r x a m = .ok p) : dcfFits y r x a m := by
  obtain ⟨-, hdelta, hprod, hacc, hy, -, heq, -⟩ := dcfStep_eq_ok h
  exact ⟨hm, hdelta, hprod, hacc, heq ▸ hy⟩

theorem dcfStep_of_not_fits (hm : 0 < m) (h : ¬ dcfFits y r x a m) :
    dcfStep y r x a m = .error (.raise .overflow 0) := by
  rcases value_or_overflow (onlyOverflow_dcfStep y r x a m) (notStuck_dcfStep hm.ne') with ⟨p, hp⟩ | ho
  · exact absurd (dcfFits_of_ok hm hp) h
  · exact ho

end

/-- The DC stage stores what its step returns. -/
theorem fDcf_stores {g : Cfg} {b b' : Bank} {k : DcfId} {x out : Int} (h : fDcf g b k x = .ok (b', out)) :
    (b'.dcf k).1 = out ∧ dcfStep (b.dcf k).1 (b.dcf k).2 x (g.dcf k).a.toInt (g.dcf k).m.toInt = .ok (b'.dcf k) := by
  obtain ⟨r, hstep, rfl⟩ := fDcf_eq_ok h
  obtain ⟨-, -, -, -, hy, hr, -, -⟩ := dcfStep_eq_ok hstep
  rw [dcf_setDcf_same, w64_toInt hy, w64_toInt hr]
  exact ⟨rfl, hstep⟩

/-- Settles O35: the step's two outcomes, the bounds of a remainder, and what the stage stores. -/
theorem dcStepFormula : Obligations.DcStepFormula := by
  refine ⟨fun y r x a m hm => ?_, fun g b b' k x out => fDcf_stores⟩
  intro acc d
  have hsub : acc - d * m = acc.tmod m := sub_tdiv_mul acc m
  obtain ⟨hpos, hneg⟩ := tmod_between (a := acc) hm
  rw [hsub]
  exact ⟨dcfStep_of_fits, dcfStep_of_not_fits hm, rfl, abs_tmod_lt hm, fun h => (hpos h).1, fun h => (hneg h).2⟩

/-! ## Convergence of the DC filter, R216 -/

section
variable {y r x a m : Int}

/-- The step treats both directions alike. -/
theorem dcfY_neg (y r x a m : Int) : dcfY (-y) (-r) (-x) a m = -dcfY y r x a m := by
  have hacc : accOf (-y) (-r) (-x) a = -accOf y r x a := by
    unfold accOf
    ring
  rw [dcfY, dcfY, hacc, Int.neg_tdiv]
  ring

theorem dcfR_neg (y r x a m : Int) : dcfR (-y) (-r) (-x) a m = -dcfR y r x a m := by
  have hacc : accOf (-y) (-r) (-x) a = -accOf y r x a := by
    unfold accOf
    ring
  rw [dcfR, dcfR, hacc, Int.neg_tmod]

/-- From below, the output stays between itself and the input. -/
theorem dcfY_mem_of_le (ha : 0 < a) (ham : a ≤ m) (hr : |r| < m) (h : y ≤ x) :
    y ≤ dcfY y r x a m ∧ dcfY y r x a m ≤ x := by
  obtain ⟨hr1, hr2⟩ := abs_lt.mp hr
  have hlo : 0 ≤ (x - y) * a := mul_nonneg (by omega) ha.le
  have hhi : (x - y) * a ≤ (x - y) * m := mul_le_mul_of_nonneg_left ham (by omega)
  have hd : 0 ≤ (accOf y r x a).tdiv m ∧ (accOf y r x a).tdiv m ≤ x - y := by
    refine tdiv_mem_of_lt (by omega) ?_ ?_ (by omega)
    · unfold accOf
      omega
    · rw [accOf, add_mul]
      omega
  unfold dcfY
  omega

/-- From above likewise. -/
theorem dcfY_mem_of_ge (ha : 0 < a) (ham : a ≤ m) (hr : |r| < m) (h : x ≤ y) :
    x ≤ dcfY y r x a m ∧ dcfY y r x a m ≤ y := by
  have hneg := dcfY_mem_of_le (y := -y) (x := -x) ha ham (r := -r) (by rwa [abs_neg]) (by omega)
  rw [dcfY_neg] at hneg
  omega

/-- At the input the remainder is less than one step of the output, so output and remainder stay. -/
theorem dcfStep_at_input (hr : |r| < m) (hx : fits x) (hm : fits m) : dcfStep x r x a m = .ok (x, r) := by
  have hacc : accOf x r x a = r := by simp [accOf]
  have hd : r.tdiv m = 0 := tdiv_eq_zero_of_abs_lt hr
  have hy : dcfY x r x a m = x := by rw [dcfY, hacc, hd, add_zero]
  have hrest : dcfR x r x a m = r := by rw [dcfR, hacc, Int.tmod_def, hd, mul_zero, sub_zero]
  have hfits : dcfFits x r x a m := by
    obtain ⟨hr1, hr2⟩ := abs_lt.mp hr
    obtain ⟨-, hm2⟩ := hm
    rw [dcfFits, hy, hacc, sub_self, zero_mul]
    refine ⟨by omega, by decide, by decide, ⟨by omega, by omega⟩, hx⟩
  rw [dcfStep_of_fits hfits, hy, hrest]

/-- How far the output, with its remainder as a fraction, is from the input, in units of `1 / m`. -/
def dcfLag (y r x m : Int) : Int := (x - y) * m - r

/-- No part of the accumulator is lost: output and remainder together move by exactly `(x - y) * a` (R214). -/
theorem dcfLag_next (y r x a m : Int) :
    dcfLag (dcfY y r x a m) (dcfR y r x a m) x m = dcfLag y r x m - (x - y) * a := by
  have hsub := sub_tdiv_mul (accOf y r x a) m
  rw [dcfLag, dcfLag, dcfY, dcfR, ← hsub]
  unfold accOf
  ring

theorem dcfLag_pos (hr : |r| < m) (h : y < x) : 0 < dcfLag y r x m := by
  have hm : 0 < m := (abs_nonneg r).trans_lt hr
  have hstep : 1 * m ≤ (x - y) * m := mul_le_mul_of_nonneg_right (by omega) hm.le
  obtain ⟨-, hr2⟩ := abs_lt.mp hr
  unfold dcfLag
  omega

theorem dcfLag_neg (y r x m : Int) : dcfLag (-y) (-r) (-x) m = -dcfLag y r x m := by
  unfold dcfLag
  ring

/-- From below, a step that does not reach the input comes nearer. -/
theorem dcfLag_decreases_of_lt (ha : 0 < a) (ham : a ≤ m) (hr : |r| < m) (h : y < x)
    (hnot : dcfY y r x a m ≠ x) :
    |dcfLag (dcfY y r x a m) (dcfR y r x a m) x m| < |dcfLag y r x m| := by
  have hy := dcfY_mem_of_le ha ham hr h.le
  have hnext : 0 < dcfLag (dcfY y r x a m) (dcfR y r x a m) x m :=
    dcfLag_pos (abs_tmod_lt (by omega)) (by omega)
  have hmove : 0 < (x - y) * a := mul_pos (by omega) ha
  have hlag := dcfLag_next y r x a m
  rw [abs_of_pos hnext, abs_of_pos (dcfLag_pos hr h)]
  omega

theorem dcfLag_decreases (ha : 0 < a) (ham : a ≤ m) (hr : |r| < m) (h : y ≠ x) (hnot : dcfY y r x a m ≠ x) :
    |dcfLag (dcfY y r x a m) (dcfR y r x a m) x m| < |dcfLag y r x m| := by
  rcases h.lt_or_gt with hlt | hgt
  · exact dcfLag_decreases_of_lt ha ham hr hlt hnot
  · have hneg := dcfLag_decreases_of_lt (y := -y) (r := -r) (x := -x) ha ham (by rwa [abs_neg]) (by omega)
      (by rw [dcfY_neg]; omega)
    rwa [dcfY_neg, dcfR_neg, dcfLag_neg, dcfLag_neg, abs_neg, abs_neg] at hneg

/-- The state of a filter with a constant input: the remainder below the multiplier (R214), the output an int64, and
the distance to the input small enough that no accumulator overflows. -/
structure DcfInRange (y r x a m : Int) : Prop where
  remainder : |r| < m
  output : fits y
  accumulator : fits (|x - y| * a + m)

/-- In range, no intermediate of the step overflows. -/
theorem DcfInRange.step_fits (h : DcfInRange y r x a m) (ha : 0 < a) (ham : a ≤ m) (hx : fits x) :
    dcfFits y r x a m := by
  obtain ⟨hr, hy, hacc⟩ := h
  obtain ⟨hr1, hr2⟩ := abs_lt.mp hr
  have hdelta : |x - y| ≤ |x - y| * a := le_mul_of_one_le_right (abs_nonneg _) ha
  have hprod : |(x - y) * a| = |x - y| * a := by rw [abs_mul, abs_of_pos ha]
  obtain ⟨hprod1, hprod2⟩ := abs_le.mp hprod.le
  obtain ⟨hdelta1, hdelta2⟩ := abs_le.mp hdelta
  have hlow := dcfY_mem_of_le (x := x) (y := y) ha ham hr
  have hhigh := dcfY_mem_of_ge (x := x) (y := y) ha ham hr
  obtain ⟨-, hacc⟩ := hacc
  refine ⟨by omega, ⟨by omega, by omega⟩, ⟨by omega, by omega⟩, ?_, ?_⟩
  · unfold accOf
    constructor <;> omega
  · obtain ⟨hx1, hx2⟩ := hx
    obtain ⟨hy1, hy2⟩ := hy
    constructor <;> omega

/-- A step stays in range, since it does not leave the input further away. -/
theorem DcfInRange.next (h : DcfInRange y r x a m) (ha : 0 < a) (ham : a ≤ m) (hx : fits x) :
    DcfInRange (dcfY y r x a m) (dcfR y r x a m) x a m := by
  obtain ⟨-, -, -, -, hy⟩ := h.step_fits ha ham hx
  have hlow := dcfY_mem_of_le (x := x) (y := y) ha ham h.remainder
  have hhigh := dcfY_mem_of_ge (x := x) (y := y) ha ham h.remainder
  have hdist : |x - dcfY y r x a m| ≤ |x - y| := by
    rcases le_total y x with hle | hge
    · rw [abs_of_nonneg (by omega), abs_of_nonneg (by omega)]
      omega
    · rw [abs_of_nonpos (by omega), abs_of_nonpos (by omega)]
      omega
  have hprod : |x - dcfY y r x a m| * a ≤ |x - y| * a := mul_le_mul_of_nonneg_right hdist ha.le
  have hpos : 0 ≤ |x - dcfY y r x a m| * a := mul_nonneg (abs_nonneg _) ha.le
  obtain ⟨-, hacc⟩ := h.accumulator
  exact ⟨abs_tmod_lt (by omega), hy, by omega, by omega⟩

/-- One step on a constant input, faults passed on. -/
def dcfIterate (x a m : Int) (p : Except Stop (Int × Int)) : Except Stop (Int × Int) :=
  p.bind fun q => dcfStep q.1 q.2 x a m

theorem dcfIterate_ok_of_fits (h : dcfFits y r x a m) :
    dcfIterate x a m (.ok (y, r)) = .ok (dcfY y r x a m, dcfR y r x a m) := dcfStep_of_fits h

end

/-- By induction on the distance to the input: a step reaches it or comes nearer. -/
theorem dcfIterate_reaches_input {y r x a m : Int} (ha : 0 < a) (ham : a ≤ m) (hx : fits x) (h : DcfInRange y r x a m) :
    ∃ (n : Nat) (r' : Int), (dcfIterate x a m)^[n] (.ok (y, r)) = .ok (x, r') := by
  by_cases hyx : y = x
  · exact ⟨0, r, by rw [hyx]; rfl⟩
  have hstep := dcfIterate_ok_of_fits (h.step_fits ha ham hx)
  by_cases hreach : dcfY y r x a m = x
  · exact ⟨1, dcfR y r x a m, by rw [Function.iterate_one, hstep, hreach]⟩
  · have hcloser := dcfLag_decreases ha ham h.remainder hyx hreach
    obtain ⟨n, r', hn⟩ := dcfIterate_reaches_input ha ham hx (h.next ha ham hx)
    exact ⟨n + 1, r', by rw [Function.iterate_succ_apply, hstep, hn]⟩
termination_by (dcfLag y r x m).natAbs
decreasing_by
  rw [Int.abs_eq_natAbs, Int.abs_eq_natAbs] at hcloser
  omega

/-- Settles O36: no step passes the input, none leaves it, and each step before it comes nearer. -/
theorem dcFilterConverges : Obligations.DcFilterConverges := by
  refine fun x a m ha ham => ⟨fun y r y' r' hr hstep => ?_, fun r hr hx hm => dcfStep_at_input hr hx hm,
    fun y r hr hx hy hacc => dcfIterate_reaches_input ha ham hx ⟨hr, hy, hacc⟩⟩
  obtain ⟨-, -, -, -, -, -, rfl, -⟩ := dcfStep_eq_ok hstep
  exact ⟨dcfY_mem_of_le ha ham hr, dcfY_mem_of_ge ha ham hr⟩

/-! ## The high-pass step, R217 and R218 -/

section
variable {f : HpfFields} {x a m da dm : Int}

theorem hpfStep_of_fits (h : hpfFits f x a m da dm) :
    hpfStep f x a m da dm = .ok (hpfNext f x a m da dm, hpfOut f x a m) := by
  obtain ⟨hm, hsum, hdiff, hprod, hdcf, hpo⟩ := h
  have hdiv := tdiv_of_pos hm hprod
  have hstep := dcfStep_of_fits hdcf
  unfold hpfNext at hpo
  unfold hpfOut at *
  simp only [hpfStep, dcCorr, chk_of_fits hsum, except_ok_bind, chk_of_fits hdiff, chk_of_fits hprod, hdiv, hstep,
    chk_of_fits hpo, hpfNext, hpfOut]

theorem hpfFits_of_ok {p : HpfFields × Int} (hm : 0 < m) (hd : 0 < dm) (h : hpfStep f x a m da dm = .ok p) :
    hpfFits f x a m da dm := by
  obtain ⟨-, hsum, hdiff, hprod, -, hout, hstep, hpo, heq, -⟩ := hpfStep_eq_ok h
  obtain ⟨-, -, -, -, -, -, hy, -⟩ := dcfStep_eq_ok hstep
  rw [hout] at hstep heq hy
  rw [heq, hy] at hpo
  exact ⟨hm, hsum, hdiff, hprod, dcfFits_of_ok hd hstep, hpo⟩

theorem hpfStep_of_not_fits (hm : 0 < m) (hd : 0 < dm) (h : ¬ hpfFits f x a m da dm) :
    hpfStep f x a m da dm = .error (.raise .overflow 0) := by
  rcases value_or_overflow (onlyOverflow_hpfStep f x a m da dm) (notStuck_hpfStep hm.ne' hd.ne') with ⟨p, hp⟩ | ho
  · exact absurd (hpfFits_of_ok hm hd hp) h
  · exact ho

end

/-- Settles O37, by the step's two outcomes. -/
theorem highPassStepFormula : Obligations.HighPassStepFormula :=
  fun _ _ _ _ _ _ hm hd => ⟨hpfStep_of_fits, hpfStep_of_not_fits hm hd⟩

end Sys2Proof.Machine
end

section
/-! PROOFS. The commands of the three filter families (43_filters.md R221 to R243): each mode's whole next state, from
what the family's function on the committed bank answers. -/

namespace Sys2Proof.Machine

/-! ## The families' functions, R214 to R219 -/

section
variable {g : Cfg} {b : Bank} {x a : Int}

theorem fDcf_of_fits {k : DcfId}
    (h : dcfFits (b.dcf k).1 (b.dcf k).2 x (g.dcf k).a.toInt (g.dcf k).m.toInt) :
    fDcf g b k x = .ok
      (b.setDcf k (dcfY (b.dcf k).1 (b.dcf k).2 x (g.dcf k).a.toInt (g.dcf k).m.toInt)
        (dcfR (b.dcf k).1 (b.dcf k).2 x (g.dcf k).a.toInt (g.dcf k).m.toInt),
      dcfY (b.dcf k).1 (b.dcf k).2 x (g.dcf k).a.toInt (g.dcf k).m.toInt) := by
  rw [fDcf, dcfStep_of_fits h, except_ok_bind]

theorem fDcf_of_not_fits {k : DcfId} (hm : 0 < (g.dcf k).m.toInt)
    (h : ¬ dcfFits (b.dcf k).1 (b.dcf k).2 x (g.dcf k).a.toInt (g.dcf k).m.toInt) :
    fDcf g b k x = .error (.raise .overflow 0) := by
  rw [fDcf, dcfStep_of_not_fits hm h, except_error_bind]

theorem fHpf_of_fits {k : HpfId} (h : hpfFits (b.hpf k) x (g.hpf k).a.toInt (g.hpf k).m.toInt
      (g.dcf k.dcf).a.toInt (g.dcf k.dcf).m.toInt) :
    fHpf g b k x = .ok
      (b.setHpf k (hpfNext (b.hpf k) x (g.hpf k).a.toInt (g.hpf k).m.toInt (g.dcf k.dcf).a.toInt
        (g.dcf k.dcf).m.toInt),
      hpfOut (b.hpf k) x (g.hpf k).a.toInt (g.hpf k).m.toInt) := by
  rw [fHpf, hpfStep_of_fits h, except_ok_bind]

theorem fHpf_of_not_fits {k : HpfId} (hm : 0 < (g.hpf k).m.toInt) (hd : 0 < (g.dcf k.dcf).m.toInt)
    (h : ¬ hpfFits (b.hpf k) x (g.hpf k).a.toInt (g.hpf k).m.toInt (g.dcf k.dcf).a.toInt
      (g.dcf k.dcf).m.toInt) :
    fHpf g b k x = .error (.raise .overflow 0) := by
  rw [fHpf, hpfStep_of_not_fits hm hd h, except_error_bind]

theorem fSlf_of_fits (h : hpfFits b.slf x a g.muxAlpha.toInt g.dcf2.a.toInt g.dcf2.m.toInt) :
    fSlf g b x a = .ok
      (b.setSlf (hpfNext b.slf x a g.muxAlpha.toInt g.dcf2.a.toInt g.dcf2.m.toInt),
      hpfOut b.slf x a g.muxAlpha.toInt) := by
  rw [fSlf, slfStep, hpfStep_of_fits h, except_ok_bind]

theorem fSlf_of_not_fits (hm : 0 < g.muxAlpha.toInt) (hd : 0 < g.dcf2.m.toInt)
    (h : ¬ hpfFits b.slf x a g.muxAlpha.toInt g.dcf2.a.toInt g.dcf2.m.toInt) :
    fSlf g b x a = .error (.raise .overflow 0) := by
  rw [fSlf, slfStep, hpfStep_of_not_fits hm hd h, except_error_bind]

end

/-! ## The modes of a family, R210 -/

section
variable {s : State} {ch : BitVec 2} {c : Channel} {op opC : BitVec 16} {p : Pend}
  {f : Bank → Except Stop (Bank × Int)}

/-- Where the family's function has a value, the commit writes it to the committed bank and the check to the shadow
bank. -/
theorem commit_and_check_of_ok {b : Bank} {y : Int} (hr : ready s) (hc : selects s ch c)
    (h : f (s.chan c).st = .ok (b, y)) :
    s.runCommit op ch f = .next (s.commit c b y) ∧ s.runCheck opC ch p f = .next (s.check c p b y) := by
  rw [runCommit_of_ready hr hc, runCheck_of_ready hr hc, h]
  exact ⟨rfl, rfl⟩

/-- Where it overflows, both raise OVERFLOW. -/
theorem commit_and_check_of_overflow (hr : ready s) (hc : selects s ch c)
    (h : f (s.chan c).st = .error (.raise .overflow 0)) :
    s.runCommit op ch f = .next (s.raise .overflow 0) ∧ s.runCheck opC ch p f = .next (s.raise .overflow 0) := by
  rw [runCommit_of_ready hr hc, runCheck_of_ready hr hc, h]
  exact ⟨rfl, rfl⟩

end

/-! ## DCF, HPF and SLF -/

section
variable (s : State) (ch : BitVec 2)

/-- With an instance that names a DC filter, the three commands are the three modes of that filter. -/
theorem exec_dcf_family {k : BitVec 3} {j : DcfId} (h : k.toNat = j.num) :
    exec (.dcf ch k) s = s.runCommit 0x20 ch (fDcf s.cfg · j s.opa.toInt) ∧
    exec (.dcfC ch k) s = s.runCheck 0x21 ch (.dcf j) (fDcf s.cfg · j s.opa.toInt) ∧
    exec (.dcfU ch k) s = s.runUpdate 0x22 ch (.dcf j) := by
  have hj := dcfId_ofInst_eq_some_iff.mpr h
  exact ⟨withInst_of_some hj _, withInst_of_some hj _, withInst_of_some hj _⟩

/-- With an instance that names a high-pass filter likewise. -/
theorem exec_hpf_family {k : BitVec 3} {j : HpfId} (h : k.toNat = j.num) :
    exec (.hpf ch k) s = s.runCommit 0x24 ch (fHpf s.cfg · j s.opa.toInt) ∧
    exec (.hpfC ch k) s = s.runCheck 0x25 ch (.hpf j) (fHpf s.cfg · j s.opa.toInt) ∧
    exec (.hpfU ch k) s = s.runUpdate 0x26 ch (.hpf j) := by
  have hj := hpfId_ofInst_eq_some_iff.mpr h
  exact ⟨withInst_of_some hj _, withInst_of_some hj _, withInst_of_some hj _⟩

theorem exec_slf_family :
    exec (.slf ch) s = s.runCommit 0x28 ch (fSlf s.cfg · s.opa.toInt s.opb.toInt) ∧
    exec (.slfC ch) s = s.runCheck 0x29 ch .slf (fSlf s.cfg · s.opa.toInt s.opb.toInt) ∧
    exec (.slfU ch) s = s.runUpdate 0x2A ch .slf :=
  ⟨rfl, rfl, rfl⟩

end

/-- Settles O38: the modes of the family, given what the DC filter's step answers. -/
theorem dcFilterCommands : Obligations.DcFilterCommands := by
  intro s ch k c j hr hc hk
  obtain ⟨hcommit, hcheck, hupdate⟩ := exec_dcf_family s ch hk
  rw [hcommit, hcheck, hupdate]
  exact ⟨fun h => commit_and_check_of_ok hr hc (fDcf_of_fits h),
    fun hm h => commit_and_check_of_overflow hr hc (fDcf_of_not_fits hm h), runUpdate_of_ready hr hc _ _⟩

/-- Settles O39: the modes of the family, given what the high-pass step answers. -/
theorem highPassCommands : Obligations.HighPassCommands := by
  intro s ch k c j hr hc hk
  obtain ⟨hcommit, hcheck, hupdate⟩ := exec_hpf_family s ch hk
  rw [hcommit, hcheck, hupdate]
  exact ⟨fun h => commit_and_check_of_ok hr hc (fHpf_of_fits h),
    fun hm hd h => commit_and_check_of_overflow hr hc (fHpf_of_not_fits hm hd h), runUpdate_of_ready hr hc _ _⟩

/-- Settles O40: the high-pass step with OPB as coefficient, MUX_ALPHA as multiplier and DCF2 as correction. -/
theorem slidingFilterCommands : Obligations.SlidingFilterCommands := by
  intro s ch c hr hc
  obtain ⟨hcommit, hcheck, hupdate⟩ := exec_slf_family s ch
  rw [hcommit, hcheck, hupdate]
  exact ⟨fun h => commit_and_check_of_ok hr hc (fSlf_of_fits h),
    fun hm hd h => commit_and_check_of_overflow hr hc (fSlf_of_not_fits hm hd h), runUpdate_of_ready hr hc _ _⟩

end Sys2Proof.Machine
end

section
/-! PROOFS. What the stages have in common: a check followed by its update is the commit, but for the shadow bank and the
trial output (43_filters.md R213), and each stage writes only its own fields (R220, 44_envelope.md R264). -/

namespace Sys2Proof.Machine

/-- `t` is `s` but for the shadow bank and the trial output of channel `c` (R213). -/
def SameButTrial (c : Channel) (t s : State) : Prop :=
  t = s.setChan c { s.chan c with sh := (t.chan c).sh, tout := (t.chan c).tout }

/-- Promoting a trial just stored does what storing it in the committed bank would have done, under either CLIPF. -/
theorem promote_check_sameButTrial (s : State) (c : Channel) (p : Pend) (b : Bank) (y : Int) (f : Bool) :
    SameButTrial c (((s.check c p b y).setClip f).promote c) ((s.commit c b y).setClip f) := by
  cases c <;> rfl

section
variable {s t u v : State} {ch : BitVec 2} {c : Channel} {p : Pend}

/-- The update of a trial that is pending promotes it. -/
theorem runUpdate_of_pending {op : BitVec 16} (hr : ready t) (hc : selects t ch c) (hp : (t.chan c).pend = p) :
    t.runUpdate op ch p = .next (t.promote c) := by
  rw [runUpdate_of_ready hr hc, if_pos hp]

/-- After a check under any CLIPF its update promotes the trial. -/
theorem runUpdate_after_check {op : BitVec 16} {b : Bank} {y : Int} {f : Bool} (hr : ready s)
    (hc : selects s ch c) :
    ((s.check c p b y).setClip f).runUpdate op ch p = .next (((s.check c p b y).setClip f).promote c) := by
  obtain ⟨hstarted, hfault⟩ := hr
  obtain ⟨hnum, hnch⟩ := hc
  exact runUpdate_of_pending ⟨by simpa using hstarted, by simpa using hfault⟩ ⟨hnum, by simpa using hnch⟩ (by simp)

/-- R213 for a check and a commit whose outcomes are known, both leaving the same CLIPF. -/
theorem sameButTrial_of_outcomes {op : BitVec 16} {b : Bank} {y : Int} {f : Bool} (hr : ready s)
    (hc : selects s ch c) (ht : t = (s.check c p b y).setClip f) (hu : t.runUpdate op ch p = .next u)
    (hv : v = (s.commit c b y).setClip f) : SameButTrial c u v := by
  subst ht hv
  rw [runUpdate_after_check hr hc] at hu
  cases hu
  exact promote_check_sameButTrial s c p b y f

/-- A command whose end left no fault took none. -/
theorem outcome_of_no_fault {P : Prop} (hf : t.stat.fault = false) (h : (∃ c d, t = s.raise c d) ∨ P) : P := by
  rcases h with ⟨c, d, rfl⟩ | h
  · simp at hf
  · exact h

/-- R213 for a family of the three modes. -/
theorem sameButTrial_of_modes {op opC opU : BitVec 16} {f : Bank → Except Stop (Bank × Int)}
    (hc : selects s ch c) (ht : s.runCheck opC ch p f = .next t) (hf : t.stat.fault = false)
    (hu : t.runUpdate opU ch p = .next u) (hv : s.runCommit op ch f = .next v) : SameButTrial c u v := by
  obtain ⟨c', b, y, hr, hc', hval, ht⟩ := outcome_of_no_fault hf (runCheck_eq_next ht)
  obtain rfl := selects_unique hc hc'
  rw [(commit_and_check_of_ok (opC := opC) (p := p) hr hc hval).1] at hv
  cases hv
  exact sameButTrial_of_outcomes hr hc (ht.trans (setClip_of_eq (by simp)).symm) hu
    (setClip_of_eq (f := s.stat.clipf) (by simp)).symm

/-- R213 for a family with instances: with the instance it names, or, where it names none, not without a fault. -/
theorem sameButTrial_of_instance {α : Type} {of : BitVec 3 → Option α} {k : BitVec 3} {op opC opU : BitVec 16}
    {tag : α → Pend} {f : α → Bank → Except Stop (Bank × Int)} (hc : selects s ch c)
    (ht : (s.withInst of k fun j => s.runCheck opC ch (tag j) (f j)) = .next t) (hf : t.stat.fault = false)
    (hu : (t.withInst of k fun j => t.runUpdate opU ch (tag j)) = .next u)
    (hv : (s.withInst of k fun j => s.runCommit op ch (f j)) = .next v) : SameButTrial c u v := by
  obtain ⟨j, hj, ht⟩ := outcome_of_no_fault hf (withInst_eq_next ht)
  rw [withInst_of_some hj] at hu hv
  exact sameButTrial_of_modes hc ht hf hu hv

theorem exec_sp_of_ok {b : Bank} {y : Int} {f : Bool} (hr : ready s) (hc : selects s ch c)
    (h : spFun s.cfg s.tables (s.chan c).st s.opa.toInt = .ok (b, y, f)) :
    exec (.sp ch) s = .next ((s.commit c b y).setClip f) := by
  rw [exec, execSp, finishUnlessFault_of_no_fault hr.2, onChannel_of_selects hr.1 hc, h, except_ok_bind, finish_ok]

/-- R213 for the side path, whose check and commit also leave the same CLIPF. -/
theorem sameButTrial_of_sp (hc : selects s ch c) (ht : exec (.spC ch) s = .next t) (hf : t.stat.fault = false)
    (hu : exec (.spU ch) t = .next u) (hv : exec (.sp ch) s = .next v) : SameButTrial c u v := by
  obtain ⟨c', b, y, f, hr, hc', hval, ht⟩ := outcome_of_no_fault hf (execSpC_eq_next ht)
  obtain rfl := selects_unique hc hc'
  rw [exec_sp_of_ok hr hc hval] at hv
  cases hv
  exact sameButTrial_of_outcomes hr hc ht hu rfl

end

/-- Settles O51: a check keeps the committed banks, and each of the five families has the three modes. -/
theorem checkThenUpdateIsCommit : Obligations.CheckThenUpdateIsCommit := by
  rintro s t u v commit check update c ⟨ch, k, hc, hmem⟩ ht hf hu hv
  simp only [List.mem_cons, Prod.mk.injEq, List.not_mem_nil, or_false] at hmem
  have hcheck : isCheck check = true := by
    rcases hmem with ⟨-, rfl, -⟩ | ⟨-, rfl, -⟩ | ⟨-, rfl, -⟩ | ⟨-, rfl, -⟩ | ⟨-, rfl, -⟩ <;> rfl
  refine ⟨(check_frame (exec_effect ht) hcheck).1, ?_⟩
  rcases hmem with ⟨rfl, rfl, rfl⟩ | ⟨rfl, rfl, rfl⟩ | ⟨rfl, rfl, rfl⟩ | ⟨rfl, rfl, rfl⟩ | ⟨rfl, rfl, rfl⟩
  · rw [exec, execSlfC] at ht
    exact sameButTrial_of_modes hc ht hf hu hv
  · rw [exec, execEnvC] at ht
    exact sameButTrial_of_modes hc ht hf hu hv
  · exact sameButTrial_of_sp hc ht hf hu hv
  · exact sameButTrial_of_instance hc ht hf hu hv
  · exact sameButTrial_of_instance hc ht hf hu hv

/-! ## The fields a stage owns, R220 and R264 -/

/-- The interpolator reads only the geometry of its table, not FETGND. -/
theorem interp_fetgnd (g : Cfg) (tb : Tables) (t : TableId) (v : Int) (f : Bool) :
    interp { g with fetgnd := f } tb t v = interp g tb t v := by
  cases t <;> rfl

theorem envFun_fetgnd (g : Cfg) (tb : Tables) (b : Bank) (e : Int) (f : Bool) :
    envFun { g with fetgnd := f } tb b e = envFun g tb b e := by
  simp only [envFun, interp_fetgnd]

/-- Settles O41: each stage's frame, with the fields it owns listed. -/
theorem stagesOwnTheirFields : Obligations.StagesOwnTheirFields := by
  refine ⟨fun g b b' k x y q h hq => (fDcf_bankStep h).frame q ?_,
    fun g b b' k x y q h hq => (fHpf_bankStep h).frame q ?_,
    fun g b b' u a y q h hq => (fSlf_bankStep h).frame q ?_,
    fun g tb b b' e y q h hq => (envFun_bankStep h).frame q ?_, envFun_fetgnd⟩
  · cases k <;> simpa [dcfFields] using hq
  · cases k <;> simpa [hpfFields, dcfFields, and_assoc] using hq
  · simpa [slfFields, dcfFields, and_assoc] using hq
  · simpa [envFields, and_assoc] using hq

end Sys2Proof.Machine
end

section
/-! PROOFS. The envelope detector (44_envelope.md): its formula with the diode floor where no check of it fails, that it
has a value or overflows in a started session, and the three modes of its family. -/

namespace Sys2Proof.Machine

/-! ## The diode floor, R262 -/

section
variable {s2 r2 fl : Int}

theorem diodeFloor_of_lt (h : s2 < fl) : diodeFloor s2 r2 fl = (fl, 0) := if_pos h

theorem diodeFloor_of_not_lt (h : ¬ s2 < fl) : diodeFloor s2 r2 fl = (s2, r2) := if_neg h

end

/-! ## The detector, R261 -/

/-- Where the two bounds, the attenuated value, both filter steps and the floor pass their checks, the detector stores
stage one as it is and stage two as the diode floor leaves it. -/
theorem envFun_of_steps {g : Cfg} {tb : Tables} {b : Bank} {e ec att1 al1 a1 s1 r1 al2 s2 r2 s2' r2' : Int}
    (hec : ec = clamp e g.geomE1Att.v0.toInt (g.geomE1Att.v0.toInt + 975 * g.geomE1Att.q.toInt))
    (hspan : fits (975 * g.geomE1Att.q.toInt)) (hhi : fits (g.geomE1Att.v0.toInt + 975 * g.geomE1Att.q.toInt))
    (hatt1 : interp g tb .e1Att ec = .ok att1) (hal1 : interp g tb .e1Alpha ec = .ok al1)
    (ha1 : fxmul ec att1 g.muxE1Att.toInt = .ok a1)
    (hstep1 : dcfStep b.envS1.toInt b.envR1.toInt a1 al1 g.muxE1Alpha.toInt = .ok (s1, r1))
    (hal2 : interp g tb .e2Alpha s1 = .ok al2)
    (hstep2 : dcfStep b.envS2.toInt b.envR2.toInt s1 al2 g.muxE2Alpha.toInt = .ok (s2, r2))
    (hfl : fits (s1 - g.vd.toInt)) (hfloor : diodeFloor s2 r2 (s1 - g.vd.toInt) = (s2', r2')) :
    envFun g tb b e = .ok (
      { b with envS1 := w64 s1, envR1 := w64 r1, envS2 := w64 s2', envR2 := w64 r2', cv := w64 s2' }, s2') := by
  have htop : (Config.env1Steps : Int) - 1 = 975 := by decide
  simp only [envFun, htop, chk_of_fits hspan, chk_of_fits hhi, ← hec, hatt1, hal1, ha1, hstep1, hal2, hstep2,
    chk_of_fits hfl, except_ok_bind, hfloor]

/-- Settles O42: the checked steps return their formulas, and the two cases are those of the diode floor. -/
theorem envelopeFormula : Obligations.EnvelopeFormula := by
  intro g tb b e att1 al1 al2 lo hi ec a1 s1 r1 s2 r2 fl hspan hhi hatt1 hal1 hprod hmux hfits1 hal2 hfits2 hfl
  have hrun {s2' r2' : Int} (hfloor : diodeFloor s2 r2 fl = (s2', r2')) :=
    envFun_of_steps rfl hspan hhi hatt1 hal1 (fxmul_of_fits hmux hprod) (dcfStep_of_fits hfits1) hal2
      (dcfStep_of_fits hfits2) hfl hfloor
  split
  case isTrue h => exact hrun (diodeFloor_of_lt h)
  case isFalse h => exact hrun (diodeFloor_of_not_lt h)

/-! ## ENV, ENV.C and ENV.U, R265 to R267 -/

theorem exec_env_family (s : State) (ch : BitVec 2) :
    exec (.env ch) s = s.runCommit 0x2C ch (envFun s.cfg s.tables · s.opa.toInt) ∧
    exec (.envC ch) s = s.runCheck 0x2D ch .env (envFun s.cfg s.tables · s.opa.toInt) ∧
    exec (.envU ch) s = s.runUpdate 0x2E ch .env :=
  ⟨rfl, rfl, rfl⟩

/-- In a session of a state with the invariant the detector's multipliers and steps are positive and its tables full, so
that it has a value or overflows. -/
theorem envFun_value_or_overflow {s : State} (h : s.Inv) (hs : s.stat.started = true) (b : Bank) (e : Int) :
    (∃ b' y, envFun s.cfg s.tables b e = .ok (b', y)) ∨ envFun s.cfg s.tables b e = .error (.raise .overflow 0) := by
  obtain ⟨sound, -⟩ := soundSession_of_inv h hs
  rcases value_or_overflow (onlyOverflow_envFun _ _ b e) (notStuck_envFun_of_sound sound b e) with ⟨⟨b', y⟩, hval⟩ | ho
  · exact .inl ⟨b', y, hval⟩
  · exact .inr ho

/-- Settles O43: the modes of the family, given what the detector answers, which the invariant keeps from being
stuck. -/
theorem envelopeCommands : Obligations.EnvelopeCommands := by
  intro s ch c hr hc
  obtain ⟨hcommit, hcheck, hupdate⟩ := exec_env_family s ch
  rw [hcommit, hcheck, hupdate]
  exact ⟨fun _ _ h => commit_and_check_of_ok hr hc h, fun h => commit_and_check_of_overflow hr hc h,
    fun h => envFun_value_or_overflow h hr.1 _ _, runUpdate_of_ready hr hc _ _⟩

end Sys2Proof.Machine
end

section
/-! PROOFS. The side path (45_sidepath.md): what its factor repeats, which bank fields a pass leaves before its envelope
feed, and the three modes of its family. -/

namespace Sys2Proof.Machine

/-! ## SP, SP.C and SP.U, R290 to R292 -/

/-- In a session without a fault, on a selected channel, SP and SP.C are the commit and the check of what the side path
returns, with its flag written to CLIPF. -/
theorem exec_sp_of_ready {s : State} {ch : BitVec 2} {c : Channel} (hr : ready s) (hc : selects s ch c) :
    exec (.sp ch) s = s.finish (do
      let (b, y, f) ← spFun s.cfg s.tables (s.chan c).st s.opa.toInt
      .ok ((s.commit c b y).setClip f)) ∧
    exec (.spC ch) s = s.finish (do
      let (b, y, f) ← spFun s.cfg s.tables (s.chan c).st s.opa.toInt
      .ok ((s.check c .sp b y).setClip f)) := by
  rw [exec, execSp, exec, execSpC, finishUnlessFault_of_no_fault hr.2, finishUnlessFault_of_no_fault hr.2,
    onChannel_of_selects hr.1 hc, onChannel_of_selects hr.1 hc]
  exact ⟨rfl, rfl⟩

theorem setClip_commit (s : State) (c : Channel) (b : Bank) (y : Int) (f : Bool) :
    (s.commit c b y).setClip f = { s.setChan c { s.chan c with st := b, pend := .none } with
      res := w64 y, stat := { s.stat with clipf := f } } := by
  cases c <;> rfl

theorem setClip_check (s : State) (c : Channel) (p : Pend) (b : Bank) (y : Int) (f : Bool) :
    (s.check c p b y).setClip f = { s.setChan c { s.chan c with sh := b, tout := w64 y, pend := p } with
      res := w64 y, stat := { s.stat with clipf := f } } := by
  cases c <;> rfl

/-- In a session of a state with the invariant the multipliers, the steps and the factor are positive and the tables
full, so that the side path has a value or overflows. -/
theorem spFun_value_or_overflow {s : State} (h : s.Inv) (hs : s.stat.started = true) (b : Bank) (x : Int) :
    (∃ b' y f, spFun s.cfg s.tables b x = .ok (b', y, f)) ∨
      spFun s.cfg s.tables b x = .error (.raise .overflow 0) := by
  obtain ⟨sound, hn⟩ := soundSession_of_inv h hs
  rcases value_or_overflow (onlyOverflow_spFun _ _ b x) (notStuck_spFun sound hn b x) with ⟨p, hval⟩ | ho
  · exact .inl ⟨p.1, p.2.1, p.2.2, hval⟩
  · exact .inr ho

/-- Settles O44: the modes of the family, given what the side path answers, which the invariant keeps from being
stuck. -/
theorem sidePathCommands : Obligations.SidePathCommands := by
  intro s ch c hr hc
  obtain ⟨hcommit, hcheck⟩ := exec_sp_of_ready hr hc
  rw [hcommit, hcheck]
  refine ⟨fun b y f h => ?_, fun h => ?_, fun h => spFun_value_or_overflow h hr.1 _ _, runUpdate_of_ready hr hc _ _⟩
  · rw [h, except_ok_bind, except_ok_bind, finish_ok, finish_ok, setClip_commit, setClip_check]
    exact ⟨rfl, rfl⟩
  · rw [h, except_error_bind, except_error_bind, finish_raise]
    exact ⟨rfl, rfl⟩

/-! ## The stages before the envelope feed, R286 and R289 -/

/-- `f` is a bank field of neither the detector nor CV: the stages before the envelope feed write no others. -/
def signalFields (f : BankField) : Bool := !envFields f

theorem signalFields_eq_false_iff {f : BankField} : signalFields f = false ↔ envFields f = true := by
  rw [signalFields, Bool.not_eq_false']

theorem hpfFields_of_not_signal {h : HpfId} {f : BankField} (hf : signalFields f = false) : hpfFields h f = false := by
  simp only [signalFields_eq_false_iff, envFields, Bool.or_eq_true, beq_iff_eq] at hf
  rcases hf with (((rfl | rfl) | rfl) | rfl) | rfl <;> cases h <;> rfl

theorem slfFields_of_not_signal {f : BankField} (hf : signalFields f = false) : slfFields f = false := by
  simp only [signalFields_eq_false_iff, envFields, Bool.or_eq_true, beq_iff_eq] at hf
  rcases hf with (((rfl | rfl) | rfl) | rfl) | rfl <;> rfl

section
variable {g : Cfg} {b b' : Bank}

theorem spInput_signal {u0 u1 : Int} (h : spInput g b u0 = .ok (b', u1)) : BankStep g signalFields b b' := by
  rcases spInput_eq_ok h with ⟨-, h⟩ | ⟨-, rfl, -⟩
  · exact (fHpf_bankStep h).mono fun _ => hpfFields_of_not_signal
  · exact BankStep.refl g _ _

theorem spSliding_signal {u1 att alpha hs tap : Int} {n : Nat} (h : spSliding g b u1 att alpha n = .ok (b', hs, tap)) :
    BankStep g signalFields b b' := by
  have hslf : ∀ u b b' y, fSlf g b u alpha = .ok (b', y) → BankStep g signalFields b b' :=
    fun _ _ _ _ hrun => (fSlf_bankStep hrun).mono fun _ => slfFields_of_not_signal
  rcases spSliding_eq_ok h with ⟨-, -, h⟩ | ⟨-, h, -, -⟩ <;> exact repeatStage_bankStep (hslf _) h

theorem spBranch2_signal {tap br2 : Int} (h : spBranch2 g b tap = .ok (b', br2)) : BankStep g signalFields b b' := by
  rcases spBranch2_eq_ok h with ⟨-, h⟩ | ⟨-, rfl, -⟩
  · exact (fHpf_bankStep h).mono fun _ => hpfFields_of_not_signal
  · exact BankStep.refl g _ _

/-- A pass ends with the envelope feed on its sum, in a bank whose detector fields and CV the pass has not touched. -/
theorem spPass_feeds_detector {tb : Tables} {n : Nat} {u0 sum : Int} (h : spPass g tb n u0 b = .ok (b', sum)) :
    ∃ b3, BankStep g signalFields b b3 ∧ spEnvelope g tb b3 sum = .ok b' := by
  obtain ⟨_, _, b3, _, _, _, _, _, _, _, _, _, hin, -, -, -, -, hslide, -, hbr, -, -, henv⟩ := spPass_eq_ok h
  exact ⟨b3, (spInput_signal hin).trans <| (spSliding_signal hslide).trans (spBranch2_signal hbr), henv⟩

/-- With the FET clamped to ground the envelope feed is skipped, so that a pass leaves the detector's fields. -/
theorem spPass_signal_of_clamped {tb : Tables} {n : Nat} {u0 sum : Int} (hg : g.fetgnd = true)
    (h : spPass g tb n u0 b = .ok (b', sum)) : BankStep g signalFields b b' := by
  obtain ⟨b3, hstep, henv⟩ := spPass_feeds_detector h
  rcases spEnvelope_eq_ok henv with ⟨-, rfl⟩ | ⟨hopen, -⟩
  · exact hstep
  · exact absurd hg (by simp [hopen])

theorem spFun_signal_of_clamped {tb : Tables} {x y : Int} {f : Bool} (hg : g.fetgnd = true)
    (h : spFun g tb b x = .ok (b', y, f)) : BankStep g signalFields b b' := by
  obtain ⟨_, _, -, h, -, -⟩ := spFun_eq_ok h
  exact repeatStage_bankStep (fun _ _ _ => spPass_signal_of_clamped hg) h

/-- While the FET is clamped to ground the detector's fields and CV keep their values (R286). -/
theorem spFun_detector_of_clamped {tb : Tables} {x y : Int} {f : Bool} (hg : g.fetgnd = true)
    (h : spFun g tb b x = .ok (b', y, f)) {q : BankField} (hq : envFields q = true) : b'.read q = b.read q :=
  (spFun_signal_of_clamped hg h).frame q (signalFields_eq_false_iff.mpr hq)

/-- With the FET open a pass runs the detector on the scaled sum, and its result is the new CV (R286). -/
theorem spPass_detector_of_open {tb : Tables} {n : Nat} {u0 sum : Int} (hg : g.fetgnd = false)
    (h : spPass g tb n u0 b = .ok (b', sum)) : ∃ b3 y, (∀ q, envFields q = true → b3.read q = b.read q) ∧
      envFun g tb b3 ((sum * g.envgV.toInt).tdiv g.envgM.toInt) = .ok (b', y) ∧ b'.cv = w64 y := by
  obtain ⟨b3, hstep, henv⟩ := spPass_feeds_detector h
  rcases spEnvelope_eq_ok henv with ⟨hclamped, -⟩ | ⟨-, e, y, hscale, hdet⟩
  · exact absurd hclamped (by simp [hg])
  · obtain ⟨-, -, -, rfl⟩ := fxmul_eq_ok hscale
    obtain ⟨_, _, _, _, _, _, _, _, _, -, -, -, -, -, -, -, -, -, hb'⟩ := envFun_eq_ok hdet
    exact ⟨b3, y, fun q hq => hstep.frame q (signalFields_eq_false_iff.mpr hq), hdet, by rw [hb']⟩

theorem tableVoltage_of_clamped (hg : g.fetgnd = true) : tableVoltage g b = .ok 0 := by
  rw [tableVoltage, if_pos hg]

theorem tableVoltage_of_open (hg : g.fetgnd = false) : tableVoltage g b = chk (g.fetsvt.toInt + b.cv.toInt) := by
  rw [tableVoltage, if_neg (by simp [hg])]

/-- The bank fields of a high-pass filter are what its four state numbers read as. -/
theorem hpf_eq_of_read {j : HpfId} (h : ∀ f, hpfFields j f = true → b'.read f = b.read f) : b'.hpf j = b.hpf j := by
  cases j with
  | h0 =>
    have hpi : b'.hpf0PI = b.hpf0PI := h .hpf0PI rfl
    have hpo : b'.hpf0PO = b.hpf0PO := h .hpf0PO rfl
    have hy : b'.dcf0Y = b.dcf0Y := h .dcf0Y rfl
    have hr : b'.dcf0R = b.dcf0R := h .dcf0R rfl
    simp only [Bank.hpf, hpi, hpo, hy, hr]
  | h1 =>
    have hpi : b'.hpf1PI = b.hpf1PI := h .hpf1PI rfl
    have hpo : b'.hpf1PO = b.hpf1PO := h .hpf1PO rfl
    have hy : b'.dcf1Y = b.dcf1Y := h .dcf1Y rfl
    have hr : b'.dcf1R = b.dcf1R := h .dcf1R rfl
    simp only [Bank.hpf, hpi, hpo, hy, hr]

end

/-- No side path owns HPF0 outside variants 1 and 3 (R289). -/
theorem spFields_of_hpf0 {flt : Word} (h1 : flt ≠ 1) (h3 : flt ≠ 3) {f : BankField} (hf : hpfFields .h0 f = true) :
    spFields flt f = false := by
  have hv : (flt == 1 || flt == 3) = false := by
    rw [beq_eq_false_iff_ne.mpr h1, beq_eq_false_iff_ne.mpr h3, Bool.or_false]
  rw [spFields, hv]
  simp only [hpfFields, dcfFields, Bool.or_eq_true, beq_iff_eq] at hf
  rcases hf with (rfl | rfl) | rfl | rfl <;> simp [slfFields, envFields, hpfFields, dcfFields]

/-- No side path owns HPF1 outside variants 2 and 4 (R289). -/
theorem spFields_of_hpf1 {flt : Word} (h2 : flt ≠ 2) (h4 : flt ≠ 4) {f : BankField} (hf : hpfFields .h1 f = true) :
    spFields flt f = false := by
  have hv : (flt == 2 || flt == 4) = false := by
    rw [beq_eq_false_iff_ne.mpr h2, beq_eq_false_iff_ne.mpr h4, Bool.or_false]
  rw [spFields, hv]
  simp only [hpfFields, dcfFields, Bool.or_eq_true, beq_iff_eq] at hf
  rcases hf with (rfl | rfl) | rfl | rfl <;> simp [slfFields, envFields, hpfFields, dcfFields]

/-- Settles O47: the table voltage, and the feed at the end of each pass, skipped while the FET is clamped. -/
theorem fetClamp : Obligations.FetClamp :=
  ⟨fun _ _ => tableVoltage_of_clamped,
    fun _ _ hg => (tableVoltage_of_open hg).trans (chk_eq _),
    fun _ _ _ _ _ _ _ hg h _ => spFun_detector_of_clamped hg h,
    fun _ _ _ _ _ _ _ hg h => spPass_detector_of_open hg h⟩

/-- Settles O48: the frame of the side path, for the variant and for the clamped FET. -/
theorem sidePathFields : Obligations.SidePathFields := by
  intro g tb b b' x y f h
  have hframe := (spFun_bankStep h).frame
  refine ⟨fun h1 h3 => hpf_eq_of_read fun q hq => hframe q (spFields_of_hpf0 h1 h3 hq),
    fun h2 h4 => hpf_eq_of_read fun q hq => hframe q (spFields_of_hpf1 h2 h4 hq), fun hg => ?_⟩
  have hkeep {q : BankField} : envFields q = true → b'.read q = b.read q := spFun_detector_of_clamped hg h
  exact ⟨hkeep (q := .envS1) rfl, hkeep (q := .envR1) rfl, hkeep (q := .envS2) rfl, hkeep (q := .envR2) rfl,
    hkeep (q := .cv) rfl⟩

/-! ## What the factor repeats, R281 -/

section
variable (f : Bank → Except Stop (Bank × Int)) (b : Bank)

/-- A repetition begins with one run of its stage. -/
theorem repeatStage_succ {n : Nat} (hn : 1 ≤ n) :
    repeatStage f (n + 1) b = (do let (b1, _) ← f b; repeatStage f n b1) := by
  obtain ⟨m, rfl⟩ := Nat.exists_eq_add_of_le' hn
  rfl

/-- It also ends with one run of its stage, whose output it keeps. -/
theorem repeatStage_succ_last {n : Nat} (hn : 1 ≤ n) :
    repeatStage f (n + 1) b = (do let (b1, _) ← repeatStage f n b; f b1) := by
  induction n, hn using Nat.le_induction generalizing b with
  | base => rfl
  | succ n hn ih =>
    rw [repeatStage_succ f b (by omega), repeatStage_succ f b hn, bind_assoc]
    exact bind_congr fun p => ih p.1

end

/-- The passes of a side path on its scaled input: as many as the factor says with "upsample everything", otherwise one
that runs the sliding filter that often. -/
def spPasses (g : Cfg) (tb : Tables) (u0 : Int) (b : Bank) : Except Stop (Bank × Int) :=
  if g.upall then repeatStage (spPass g tb 1 u0) g.upsEff.toNat b
  else repeatStage (spPass g tb g.upsEff.toNat u0) 1 b

theorem spFun_eq_clipped_passes (g : Cfg) (tb : Tables) (b : Bank) (x : Int) : spFun g tb b x = (do
    let u0 ← fxmul x g.sidampV.toInt g.sidampM.toInt
    let p ← spPasses g tb u0 b
    .ok (p.1, diodeclip g.cliplim.toInt p.2)) := by
  unfold spFun spPasses
  cases g.upall <;> rfl

/-- A pass does not read UPS_EFF. -/
theorem spPass_upsEff (g : Cfg) (tb : Tables) (n : Nat) (u0 : Int) (w : Word) :
    spPass { g with upsEff := w } tb n u0 = spPass g tb n u0 := rfl

/-- With "upsample everything" and the factor `n` in UPS_EFF, the passes are `n` single ones. -/
theorem spPasses_of_upall {g : Cfg} (hg : g.upall = true) (tb : Tables) (u0 : Int) (b : Bank) {n : Nat} {w : Word}
    (hw : w.toNat = n) : spPasses { g with upsEff := w } tb u0 b = repeatStage (spPass g tb 1 u0) n b := by
  rw [spPasses, if_pos hg, spPass_upsEff, hw]

theorem upsEff_toNat {n : Nat} (h : n < 2 ^ 64) : (BitVec.ofNat 64 n).toNat = n := by
  rw [BitVec.toNat_ofNat, Nat.mod_eq_of_lt h]

/-- Settles O49: on the same scaled input the repetition's last pass splits off, and the clip of the sum before it is
not stored. -/
theorem upsampleEverythingRepeatsPasses : Obligations.UpsampleEverythingRepeatsPasses := by
  intro g tb b x n hn hlt hg
  simp only [spFun_eq_clipped_passes, spPasses_of_upall hg _ _ _ (upsEff_toNat hlt),
    spPasses_of_upall hg _ _ _ (upsEff_toNat (Nat.lt_of_succ_lt hlt)),
    spPasses_of_upall hg _ _ _ (show (1 : Word).toNat = 1 from rfl), repeatStage_succ_last _ _ hn]
  cases fxmul x g.sidampV.toInt g.sidampM.toInt with
  | error e => rfl
  | ok u0 =>
    simp only [except_ok_bind, bind_assoc]
    rfl

/-! ## The stages of a pass in each variant, R282, R284 and R285 -/

section
variable {g : Cfg} (b : Bank)

theorem spInput_of_hpf (h : g.flt = 1 ∨ g.flt = 3) (u0 : Int) : spInput g b u0 = fHpf g b .h0 u0 := if_pos h

theorem spInput_of_direct (h : ¬ (g.flt = 1 ∨ g.flt = 3)) (u0 : Int) : spInput g b u0 = .ok (b, u0) := if_neg h

theorem spBranch2_of_hpf (h : g.flt = 2 ∨ g.flt = 4) (tap : Int) : spBranch2 g b tap = fHpf g b .h1 tap := if_pos h

theorem spBranch2_of_direct (h : ¬ (g.flt = 2 ∨ g.flt = 4)) (tap : Int) : spBranch2 g b tap = .ok (b, tap) := if_neg h

theorem spSliding_of_attenuated (h : g.flt = 1 ∨ g.flt = 2) (u1 att alpha : Int) (n : Nat) :
    spSliding g b u1 att alpha n = (do
      let tap ← fxmul u1 att g.muxAtt.toInt
      let (b', hs) ← repeatStage (fun b => fSlf g b tap alpha) n b
      .ok (b', hs, tap)) := if_pos h

theorem spSliding_of_filtered (h : ¬ (g.flt = 1 ∨ g.flt = 2)) (u1 att alpha : Int) (n : Nat) :
    spSliding g b u1 att alpha n = (do
      let (b', hs) ← repeatStage (fun b => fSlf g b u1 alpha) n b
      let df ← chk (u1 - hs)
      let tap ← fxmul df att g.muxAtt.toInt
      .ok (b', hs, tap)) := if_neg h

end

/-- Where the scaled input is an int64, the side path fails as its passes do, and otherwise clips their sum. -/
theorem spFun_of_scaled {g : Cfg} {x : Int} (hm : 0 < g.sidampM.toInt) (h : fits (x * g.sidampV.toInt)) (tb : Tables)
    (b : Bank) : spFun g tb b x = (do
      let p ← spPasses g tb ((x * g.sidampV.toInt).tdiv g.sidampM.toInt) b
      .ok (p.1, diodeclip g.cliplim.toInt p.2)) := by
  rw [spFun_eq_clipped_passes, fxmul_of_fits hm h, except_ok_bind]

theorem diodeclip_eq {limit : Int} (hl : 0 < limit) (x : Int) : diodeclip limit x =
    if limit ≤ x then (limit, true) else if x ≤ -limit then (-limit, true) else (x, false) := by
  split_ifs with hge hle
  · exact diodeclip_of_ge hl hge
  · exact diodeclip_of_le_neg hl hle
  · exact diodeclip_of_inside (by omega) (by omega)

/-- Settles O45: the scaling, the passes and the clip; the repetition's own equation; and the pass with its stages
chosen by the variant. -/
theorem passTopology : Obligations.PassTopology := by
  refine ⟨fun g tb b x hm hl => ⟨fun hfit => ?_, fun hfit => ?_⟩,
    fun f b => ⟨rfl, fun n hn => repeatStage_succ f b hn⟩,
    fun g tb n u0 b => ⟨fun hv => ?_, fun hv => ?_, fun hv => ?_, fun hv => ?_⟩⟩
  · rw [spFun_of_scaled hm hfit]
    refine ⟨fun b' sum hrun => ?_, fun e hrun => ?_⟩
    · rw [spPasses, hrun, except_ok_bind, diodeclip_eq hl]
      split_ifs <;> rfl
    · rw [spPasses, hrun, except_error_bind]
  · rw [spFun_eq_clipped_passes, fxmul_of_not_fits hfit, except_error_bind]
  · have hbranch : ¬ (g.flt = 2 ∨ g.flt = 4) := by rw [hv]; decide
    simp only [spPass, spInput_of_hpf _ (.inl hv), spSliding_of_attenuated _ (.inl hv), spBranch2_of_direct _ hbranch,
      bind_assoc, except_ok_bind] <;> rfl
  · have hinput : ¬ (g.flt = 1 ∨ g.flt = 3) := by rw [hv]; decide
    simp only [spPass, spInput_of_direct _ hinput, spSliding_of_attenuated _ (.inr hv), spBranch2_of_hpf _ (.inl hv),
      bind_assoc, except_ok_bind] <;> rfl
  · have hslide : ¬ (g.flt = 1 ∨ g.flt = 2) := by rw [hv]; decide
    have hbranch : ¬ (g.flt = 2 ∨ g.flt = 4) := by rw [hv]; decide
    simp only [spPass, spInput_of_hpf _ (.inr hv), spSliding_of_filtered _ hslide, spBranch2_of_direct _ hbranch,
      bind_assoc, except_ok_bind] <;> rfl
  · have hinput : ¬ (g.flt = 1 ∨ g.flt = 3) := by rw [hv]; decide
    have hslide : ¬ (g.flt = 1 ∨ g.flt = 2) := by rw [hv]; decide
    simp only [spPass, spInput_of_direct _ hinput, spSliding_of_filtered _ hslide, spBranch2_of_hpf _ (.inr hv),
      bind_assoc, except_ok_bind] <;> rfl

end Sys2Proof.Machine
end

section
/-! PROOFS. What a host procedure keeps and how it can fail (48_host_protocol.md R348, R349): one rule for each way in
which the procedures are put together, and the rules for the host's arithmetic and its port accesses. -/

namespace Sys2Proof.Machine

/-! ## Endings of a procedure -/

/-- How a procedure ends: with a value and a world that satisfy `Q`, or with a failure and a world that satisfy `E`. -/
def EndsIn {α : Type} (Q : α → HostWorld → Prop) (E : HostFail → HostWorld → Prop) :
    Except HostFail α × HostWorld → Prop
  | (.ok a, w) => Q a w
  | (.error e, w) => E e w

/-- From every world with `P` the procedure ends in `Q`, or fails in `E`. -/
def Ensures {α : Type} (P : HostWorld → Prop) (m : HostM α) (Q : α → HostWorld → Prop)
    (E : HostFail → HostWorld → Prop) : Prop :=
  ∀ w, P w → EndsIn Q E (m.run w)

/-- The procedure keeps the condition `I` on the world, its value satisfies `R` and its failure `F`. -/
def Keeps {α : Type} (I : HostWorld → Prop) (F : HostFail → Prop) (m : HostM α) (R : α → Prop) : Prop :=
  Ensures I m (fun a w => I w ∧ R a) fun e w => I w ∧ F e

/-- Arithmetic of the host: it keeps every condition on the world, its value satisfies `R`, and it does not fail by
running out of a bound. -/
def Computes {α : Type} (m : HostM α) (R : α → Prop) : Prop :=
  ∀ I, Keeps I (· ≠ .noFuel) m R

section

variable {α β : Type} {P I : HostWorld → Prop} {F : HostFail → Prop} {E : HostFail → HostWorld → Prop}
  {Q Q' : α → HostWorld → Prop} {R R' : α → Prop}

theorem run_bind (m : HostM α) (f : α → HostM β) (w : HostWorld) : (m >>= f).run w =
    match m.run w with
    | (.ok a, w') => (f a).run w'
    | (.error e, w') => (.error e, w') := by
  change StateT.bind m.run (ExceptT.bindCont f) w = _
  rw [StateT.bind]
  rcases (m.run w : Except HostFail α × HostWorld) with ⟨_ | _, _⟩ <;> rfl

theorem ensures_bind {m : HostM α} {f : α → HostM β} {S : β → HostWorld → Prop} (hm : Ensures P m Q E)
    (hf : ∀ a, Ensures (Q a) (f a) S E) : Ensures P (m >>= f) S E := by
  intro w hw
  rw [run_bind]
  match m.run w, hm w hw with
  | (.ok a, w'), h => exact hf a w' h
  | (.error _, _), h => exact h

theorem ensures_mono {E' : HostFail → HostWorld → Prop} {m : HostM α} (h : Ensures P m Q E)
    (hQ : ∀ a w, Q a w → Q' a w) (hE : ∀ e w, E e w → E' e w) : Ensures P m Q' E' := by
  intro w hw
  match m.run w, h w hw with
  | (.ok a, w'), h => exact hQ a w' h
  | (.error e, w'), h => exact hE e w' h

theorem keeps_bind {m : HostM α} {f : α → HostM β} {S : β → Prop} (hm : Keeps I F m R)
    (hf : ∀ a, R a → Keeps I F (f a) S) : Keeps I F (m >>= f) S :=
  ensures_bind hm fun a w hw => hf a hw.2 w hw.1

theorem keeps_pure {a : α} (h : R a) : Keeps I F (pure a) R := fun _ hw => ⟨hw, h⟩

theorem keeps_throw {e : HostFail} (h : F e) : Keeps I F (throw e : HostM α) R := fun _ hw => ⟨hw, h⟩

theorem keeps_get (I : HostWorld → Prop) (F : HostFail → Prop) : Keeps I F get fun _ => True :=
  fun _ hw => ⟨hw, trivial⟩

theorem keeps_mono {F' : HostFail → Prop} {m : HostM α} (h : Keeps I F m R) (hR : ∀ a, R a → R' a)
    (hF : ∀ e, F e → F' e) : Keeps I F' m R' :=
  ensures_mono h (fun a _ hw => ⟨hw.1, hR a hw.2⟩) fun e _ hw => ⟨hw.1, hF e hw.2⟩

/-- What a procedure that does not fail leaves. -/
theorem keeps_ok {m : HostM α} {w w' : HostWorld} {a : α} (h : Keeps I F m R) (hw : I w)
    (hrun : m.run w = (.ok a, w')) : I w' ∧ R a := by
  have hend := h w hw
  rw [hrun] at hend
  exact hend

/-- What the failure of a procedure satisfies. -/
theorem keeps_error {m : HostM α} {w : HostWorld} {e : HostFail} (h : Keeps I F m R) (hw : I w)
    (he : (m.run w).1 = .error e) : F e := by
  have hend := h w hw
  rw [show m.run w = (.error e, (m.run w).2) from Prod.ext he rfl] at hend
  exact hend.2

/-! ## Arithmetic -/

theorem computes_pure {a : α} (h : R a) : Computes (pure a) R := fun _ => keeps_pure h

theorem computes_throw {e : HostFail} (h : e ≠ .noFuel) : Computes (throw e : HostM α) R := fun _ => keeps_throw h

theorem computes_bind {m : HostM α} {f : α → HostM β} {S : β → Prop} (hm : Computes m R)
    (hf : ∀ a, R a → Computes (f a) S) : Computes (m >>= f) S :=
  fun I => keeps_bind (hm I) fun a ha => hf a ha I

theorem computes_mono {m : HostM α} (h : Computes m R) (hR : ∀ a, R a → R' a) : Computes m R' :=
  fun I => keeps_mono (h I) hR fun _ => id

end

/-- `chk` of the host answers the value itself (00_scope.md R14). -/
theorem hostChk_computes (v : Int) : Computes (hostChk v) (· = v) := by
  rw [hostChk]
  split
  · exact computes_pure rfl
  · exact computes_throw nofun

theorem hostTdiv_computes (a b : Int) : Computes (hostTdiv a b) (· = a.tdiv b) := by
  rw [hostTdiv]
  split
  · exact computes_throw nofun
  · exact hostChk_computes _

/-- Only a number is rounded: an infinity or a NaN fails (log entry 18). -/
theorem hostRound_computes (q : Option Rat) : Computes (hostRound q) fun _ => q ≠ none := by
  cases q with
  | none => exact computes_throw nofun
  | some q => exact computes_mono (hostChk_computes _) fun _ _ => nofun

/-! ## Port accesses -/

section

variable {I : HostWorld → Prop} {F : HostFail → Prop}

/-- An access is the block serving it at once (20_memory.md R84). -/
theorem issue_eq_serve (s : State) (op : BusOp) : s.issue op = serve op s := rfl

theorem run_access (op : BusOp) (w : HostWorld) : (access op).run w =
    match serve op w.block with
    | .next s => (.ok (), { w with block := s })
    | .fault f => (.error (.stuck f), w)
    | .refused r => (.error (.refused r), w) := by
  rw [← issue_eq_serve, access, run_bind]
  change ExceptT.run (match w.block.issue op with
    | .next s => set { w with block := s }
    | .fault f => throw (.stuck f)
    | .refused r => throw (.refused r) : HostM Unit) w = _
  cases w.block.issue op <;> rfl

theorem access_keeps {op : BusOp} (h : ∀ w s, I w → serve op w.block = .next s → I { w with block := s }) :
    Keeps I (· ≠ .noFuel) (access op) fun _ => True := by
  intro w hw
  rw [run_access]
  match hs : serve op w.block with
  | .next s => exact ⟨h w s hw hs, trivial⟩
  | .fault f => exact ⟨hw, nofun⟩
  | .refused r => exact ⟨hw, nofun⟩

theorem accesses_keeps {ops : List BusOp} (h : ∀ op ∈ ops, Keeps I F (access op) fun _ => True) :
    Keeps I F (accesses ops) fun _ => True := by
  induction ops with
  | nil => exact keeps_pure trivial
  | cons op ops ih =>
    exact keeps_bind (h op List.mem_cons_self) fun _ _ => ih fun o ho => h o (List.mem_cons_of_mem _ ho)

theorem readRes_keeps (h : Keeps I F (access rdRes) fun _ => True) : Keeps I F readRes fun _ => True :=
  keeps_bind h fun _ _ => keeps_bind (keeps_get I F) fun _ _ => keeps_pure trivial

theorem readStat_keeps (h : Keeps I F (access rdStat) fun _ => True) : Keeps I F readStat fun _ => True :=
  keeps_bind h fun _ _ => keeps_bind (keeps_get I F) fun _ _ => keeps_pure trivial

theorem failOnFault_keeps (hF : ∀ st, F (.blockFault st)) (h : Keeps I F (access rdStat) fun _ => True) :
    Keeps I F failOnFault fun _ => True := by
  refine keeps_bind (readStat_keeps h) fun st _ => ?_
  split
  · exact keeps_throw (hF st)
  · exact keeps_pure trivial

end

end Sys2Proof.Machine
end

section
/-! PROOFS. The output conversion (48_host_protocol.md R346): each format's output is a clamp to its range. -/

namespace Sys2Proof.Machine

/-- Where the range of a format is split in three, the clamp is the value or the nearer extreme (00_scope.md R17). -/
theorem clamp_cases {q lo hi : Int} (h : lo ≤ hi) :
    (lo ≤ q → q ≤ hi → clamp q lo hi = q) ∧ (q < lo → clamp q lo hi = lo) ∧ (hi < q → clamp q lo hi = hi) := by
  unfold clamp
  omega

theorem outScale_8 (P : HostParams) (v : Int) :
    outScale P 8 v = clamp (v.tdiv (P.pScale8 : Nat)) (-128) 127 + 128 := rfl

theorem outScale_16 (P : HostParams) (v : Int) :
    outScale P 16 v = clamp (v.tdiv (P.pScale16 : Nat)) (-32768) 32767 + 0 := rfl

theorem outScale_24 (P : HostParams) (v : Int) :
    outScale P 24 v = clamp (v.tdiv (P.pScale24 : Nat)) (-8388608) 8388607 + 0 := rfl

/-- The row of a format: its output is the clamped quotient, re-centred. -/
theorem outScale_eq_clamp (P : HostParams) (v : Int) {bits : Nat} {scale : ℕ+} {lo hi c : Int}
    (h : (bits, scale, lo, hi, c) ∈ [(8, P.pScale8, -128, 127, 128), (16, P.pScale16, -32768, 32767, 0),
      (24, P.pScale24, -8388608, 8388607, 0)]) :
    lo ≤ hi ∧ outScale P bits v = clamp (v.tdiv scale) lo hi + c := by
  simp only [List.mem_cons, Prod.mk.injEq, List.not_mem_nil, or_false] at h
  rcases h with ⟨rfl, rfl, rfl, rfl, rfl⟩ | ⟨rfl, rfl, rfl, rfl, rfl⟩ | ⟨rfl, rfl, rfl, rfl, rfl⟩
  · exact ⟨by decide, outScale_8 P v⟩
  · exact ⟨by decide, outScale_16 P v⟩
  · exact ⟨by decide, outScale_24 P v⟩

/-- Settles O58, by the clamp of the format's row. -/
theorem outputSaturates : Obligations.OutputSaturates := by
  intro P v
  refine ⟨fun bits scale lo hi c hrow => ?_, ?_, ?_, ?_⟩
  · obtain ⟨hle, heq⟩ := outScale_eq_clamp P v hrow
    obtain ⟨hin, hbelow, habove⟩ := clamp_cases (q := v.tdiv scale) hle
    rw [heq]
    exact ⟨fun h1 h2 => by rw [hin h1 h2], fun h => by rw [hbelow h], fun h => by rw [habove h]⟩
  · rw [outScale_8]
    have := clamp_mem (x := v.tdiv (P.pScale8 : Nat)) (lo := -128) (hi := 127) (by decide)
    omega
  · rw [outScale_16, add_zero]
    exact clamp_mem (by decide)
  · rw [outScale_24, add_zero]
    exact clamp_mem (by decide)

end Sys2Proof.Machine
end

section
/-! PROOFS. The decoder's search (48_host_protocol.md R314 to R321): the host's arithmetic in it, how each kept trial
narrows the bracket, and that the bound on the trials is not reached. -/

namespace Sys2Proof.Machine

/-! ## The arithmetic of a search -/

theorem inScale_computes (P : HostParams) (bits : Nat) (p : Int) : Computes (inScale P bits p) fun _ => True :=
  computes_bind (hostChk_computes _) fun _ _ => computes_mono (hostChk_computes _) fun _ _ => trivial

theorem yMax_computes (P : HostParams) (bits : Nat) (cliplim : Int) : Computes (yMax P bits cliplim) fun _ => True :=
  computes_bind (hostChk_computes _) fun _ _ => computes_mono (hostChk_computes _) fun _ _ => trivial

theorem initial_computes (ymax : Int) : Computes (Bracket.initial ymax) (· = ⟨-ymax - 1, ymax + 1⟩) := by
  refine computes_bind (hostChk_computes _) fun n hn => computes_bind (hostChk_computes _) fun lo hlo =>
    computes_bind (hostChk_computes _) fun hi hhi => computes_pure ?_
  rw [hlo, hhi, hn]

theorem width_computes (b : Bracket) : Computes b.width (· = b.hi - b.lo) := hostChk_computes _

theorem clampIn_computes (b : Bracket) (g : Int) :
    Computes (b.clampIn g) (· = clamp g (b.lo + 1) (b.hi - 1)) := by
  refine computes_bind (hostChk_computes _) fun lo hlo => computes_bind (hostChk_computes _) fun hi hhi =>
    computes_pure ?_
  rw [hlo, hhi]

theorem middle_computes (b : Bracket) : Computes b.middle fun _ => True :=
  computes_bind (width_computes b) fun _ _ => computes_bind (hostTdiv_computes _ _) fun _ _ =>
    computes_mono (hostChk_computes _) fun _ _ => trivial

/-- Narrowing replaces one end by the trial's guess and may only draw the other one in (R315). -/
theorem narrow_computes (b : Bracket) (g h : Int) : Computes (b.narrow g h) fun b' =>
    (b'.lo = g ∧ b'.hi ≤ b.hi) ∨ (b'.hi = g ∧ b.lo ≤ b'.lo) := by
  rw [Bracket.narrow]
  split
  · split
    · refine computes_bind (hostChk_computes _) fun hi hhi => computes_pure (.inl ⟨rfl, ?_⟩)
      exact hhi.trans_le (by omega)
    · exact computes_pure (.inl ⟨rfl, le_rfl⟩)
  · split
    · refine computes_bind (hostChk_computes _) fun lo hlo => computes_pure (.inr ⟨rfl, ?_⟩)
      exact (show b.lo ≤ h - 1 by omega).trans_eq hlo.symm
    · exact computes_pure (.inr ⟨rfl, le_rfl⟩)

theorem secantSlope_computes (p1 p2 : TrialPair) : Computes (secantSlope p1 p2) fun _ => True := by
  refine computes_bind (hostChk_computes _) fun dg _ => computes_bind (hostChk_computes _) fun dh _ => ?_
  split
  · exact computes_bind (hostChk_computes _) fun _ _ => computes_bind (hostChk_computes _) fun _ _ =>
      computes_pure trivial
  · exact computes_pure trivial

theorem slopeUsable_computes (dg dh : Int) : Computes (slopeUsable dg dh) fun _ => True := by
  rw [slopeUsable]
  split
  · exact computes_pure trivial
  · refine computes_bind (hostChk_computes _) fun _ _ => computes_bind (hostChk_computes _) fun _ _ => ?_
    split
    · exact computes_pure trivial
    · exact computes_bind (hostChk_computes _) fun _ _ => computes_bind (hostChk_computes _) fun _ _ =>
        computes_bind (hostChk_computes _) fun _ _ => computes_pure trivial

theorem secant_computes (b : Bracket) (p1 p2 : TrialPair) : Computes (secant b p1 p2) fun _ => True := by
  refine computes_bind (secantSlope_computes p1 p2) fun _ _ => computes_bind (slopeUsable_computes _ _) fun _ _ => ?_
  split
  · exact computes_bind (hostChk_computes _) fun _ _ => computes_bind (hostChk_computes _) fun _ _ =>
      computes_bind (hostChk_computes _) fun _ _ => computes_bind (hostTdiv_computes _ _) fun _ _ =>
        computes_bind (hostChk_computes _) fun _ _ => computes_pure trivial
  · exact computes_pure trivial

/-- The next guess leaves the bracket and the end of the discarding as they are (R320). -/
theorem nextSearch_computes (s : Search) :
    Computes (nextSearch s) fun s' => s'.bracket = s.bracket ∧ s'.first = s.first := by
  rw [nextSearch]
  split
  · split
    · refine computes_bind (secant_computes _ _ _) fun cand _ => ?_
      split
      · exact computes_pure ⟨rfl, rfl⟩
      · exact computes_bind (middle_computes _) fun _ _ => computes_pure ⟨rfl, rfl⟩
    · exact computes_bind (middle_computes _) fun _ _ => computes_pure ⟨rfl, rfl⟩
  · exact computes_bind (middle_computes _) fun _ _ => computes_pure ⟨rfl, rfl⟩

/-! ## How many trials a search takes -/

/-- `High − Low`. -/
def Search.width (s : Search) : Int := s.bracket.hi - s.bracket.lo

/-- Trials enough for a search: those that bring the width down to the tolerance one by one, at least one of them, and
the one that is discarded (R320, R321). -/
def Search.trialsLeft (s : Search) (tol : Int) : Int := max 1 (s.width - tol) + if s.first then 1 else 0

/-- A kept trial brings the width down by one or more, if it was at least 2 (R315, R317). -/
theorem narrow_width_le {b b' : Bracket} {g guess : Int} (hg : g = clamp guess (b.lo + 1) (b.hi - 1))
    (h : (b'.lo = g ∧ b'.hi ≤ b.hi) ∨ (b'.hi = g ∧ b.lo ≤ b'.lo)) :
    b'.hi - b'.lo ≤ max 1 (b.hi - b.lo - 1) := by
  unfold clamp at hg
  omega

/-- The tolerance is at least `P_TOL`'s floor (R318). -/
theorem one_le_tolerance (P : HostParams) (accDb : Rat) : 1 ≤ tolerance P accDb :=
  le_trans (by decide) (le_max_left Config.tolFloor _)

/-! ## The block's accesses in a sample -/

/-- The port accesses of a sample's procedures (R313, R314, R320): OPA is written, a register is read, or a command
runs that is neither START nor STOP. -/
inductive SampleOp : BusOp → Prop where
  | lda (v : Int) : SampleOp (lda v)
  | read (off width : Nat) : SampleOp (.read off width)
  | cmd {i : Instr} : i ≠ .start → i ≠ .stop → SampleOp (cmd i)

theorem trialOps_sampleOp {ch : BitVec 2} {g r : Int} : ∀ op ∈ lda g :: trialOps ch r, SampleOp op := by
  simp only [trialOps, List.forall_mem_cons, List.not_mem_nil, IsEmpty.forall_iff, implies_true, and_true]
  exact ⟨.lda g, .cmd nofun nofun, .cmd nofun nofun, .lda r, .cmd nofun nofun⟩

theorem commitOps_sampleOp {ch : BitVec 2} : ∀ op ∈ commitOps ch, SampleOp op := by
  simp only [commitOps, List.forall_mem_cons, List.not_mem_nil, IsEmpty.forall_iff, implies_true, and_true]
  exact .cmd nofun nofun

theorem encOps_sampleOp {ch : BitVec 2} {x : Int} : ∀ op ∈ lda x :: encOps ch, SampleOp op := by
  simp only [encOps, List.forall_mem_cons, List.not_mem_nil, IsEmpty.forall_iff, implies_true, and_true]
  exact ⟨.lda x, .cmd nofun nofun, .cmd nofun nofun, .cmd nofun nofun⟩

/-! ## DECODE, R320 -/

/-- DECODE up to the end of its search. -/
def decodeSearch (P : HostParams) (bits : Nat) (cliplim : Int) (c : Channel) (r : Int) : HostM Int := do
  let w ← get
  let hist := w.session.hist c
  let tol := tolerance P w.session.accDb
  let ymax ← yMax P bits cliplim
  let b ← Bracket.initial ymax
  let step ← hostChk (r - hist.prevIn)
  let g ← hostChk (hist.prevOut + step)
  decodeLoop c r tol (decodeFuel ymax tol) { bracket := b, guess := g, pairs := [], attempts := 0, first := true }

/-- The commit of DECODE's final trial. -/
def commitTrial (c : Channel) : HostM Unit := do
  accesses (commitOps c.ch)
  failOnFault

/-- The pair that DECODE keeps for the next sample. -/
def rememberPair (c : Channel) (r y : Int) : HostM Unit :=
  modify fun w => { w with session := w.session.setHist c ⟨r, y⟩ }

theorem decodeSample_eq (P : HostParams) (bits : Nat) (cliplim : Int) (c : Channel) (r : Int) :
    decodeSample P bits cliplim c r = (do
      let y ← decodeSearch P bits cliplim c r
      commitTrial c
      rememberPair c r y
      pure y) := by
  simp only [decodeSample, decodeSearch, commitTrial, rememberPair, bind_assoc]

theorem rememberPair_keeps {I : HostWorld → Prop} {F : HostFail → Prop}
    (hsession : ∀ w h, I w → I { w with session := h }) (c : Channel) (r y : Int) :
    Keeps I F (rememberPair c r y) fun _ => True :=
  fun w hw => ⟨hsession w _ hw, trivial⟩

section

/-- The accesses of a sample keep the condition `I` on the world. -/
def KeptBySamples (I : HostWorld → Prop) : Prop :=
  ∀ op, SampleOp op → Keeps I (· ≠ .noFuel) (access op) fun _ => True

variable {I : HostWorld → Prop} (hI : KeptBySamples I)

include hI

theorem sampleOps_keeps {ops : List BusOp} (h : ∀ op ∈ ops, SampleOp op) :
    Keeps I (· ≠ .noFuel) (accesses ops) fun _ => True :=
  accesses_keeps fun op hop => hI op (h op hop)

theorem sample_readRes_keeps : Keeps I (· ≠ .noFuel) readRes fun _ => True := readRes_keeps (hI _ (.read _ _))

theorem sample_failOnFault_keeps : Keeps I (· ≠ .noFuel) failOnFault fun _ => True :=
  failOnFault_keeps (fun _ => nofun) (hI _ (.read _ _))

theorem trial_keeps (c : Channel) (g r : Int) : Keeps I (· ≠ .noFuel) (trial c g r) fun _ => True :=
  keeps_bind (sampleOps_keeps hI trialOps_sampleOp) fun _ _ => keeps_bind (sample_failOnFault_keeps hI) fun _ _ =>
    keeps_bind (sample_readRes_keeps hI) fun _ _ => keeps_bind (readStat_keeps (hI _ (.read _ _))) fun _ _ =>
      keeps_pure trivial

/-- With trials enough the search does not run out of them: a discarded trial is the first one, and a kept one that does
not end the search narrows the bracket (R320, R321). -/
theorem decodeLoop_keeps (c : Channel) (r : Int) {tol : Int} (htol : 1 ≤ tol) (n : Nat) (s : Search)
    (hn : s.trialsLeft tol ≤ n) : Keeps I (· ≠ .noFuel) (decodeLoop c r tol n s) fun _ => True := by
  induction n generalizing s with
  | zero =>
    unfold Search.trialsLeft at hn
    split at hn <;> omega
  | succ n ih =>
    refine keeps_bind (clampIn_computes _ _ I) fun g hg => keeps_bind (trial_keeps hI c g r) fun ⟨h, clip⟩ _ => ?_
    dsimp only
    split
    next hdiscard =>
      refine ih _ ?_
      have hfirst : s.first = true := (Bool.and_eq_true_iff.mp hdiscard).1
      simp only [Search.trialsLeft, Search.width, hfirst, if_true, Bool.false_eq_true, if_false] at hn ⊢
      omega
    next =>
      refine keeps_bind (narrow_computes _ _ _ I) fun b hb => keeps_bind (width_computes b I) fun w hw => ?_
      split
      next => exact keeps_pure trivial
      next hlt =>
        refine keeps_bind (nextSearch_computes _ I) fun s' ⟨hbracket, hfirst⟩ => ih s' ?_
        have hnarrow := narrow_width_le hg hb
        have hkept : s.width - tol ≤ n + 1 := by
          unfold Search.trialsLeft at hn
          split at hn <;> omega
        simp only [Search.trialsLeft, Search.width, hbracket, hfirst, Bool.false_eq_true, if_false] at hkept ⊢
        omega

theorem decodeSearch_keeps (P : HostParams) (bits : Nat) (cliplim : Int) (c : Channel) (r : Int) :
    Keeps I (· ≠ .noFuel) (decodeSearch P bits cliplim c r) fun _ => True := by
  refine keeps_bind (keeps_get I _) fun w _ => keeps_bind (yMax_computes _ _ _ I) fun ymax _ =>
    keeps_bind (initial_computes _ I) fun b hb => keeps_bind (hostChk_computes _ I) fun _ _ =>
      keeps_bind (hostChk_computes _ I) fun _ _ => decodeLoop_keeps hI c r (one_le_tolerance _ _) _ _ ?_
  simp only [Search.trialsLeft, Search.width, decodeFuel, hb, if_true]
  omega

theorem commitTrial_keeps (c : Channel) : Keeps I (· ≠ .noFuel) (commitTrial c) fun _ => True :=
  keeps_bind (sampleOps_keeps hI commitOps_sampleOp) fun _ _ => sample_failOnFault_keeps hI

end

/-- Settles O57: DECODE begins with trials enough for its bracket, and nothing else has a bound. -/
theorem decodeTerminates : Obligations.DecodeTerminates := by
  intro P bits cliplim c r w
  have hI : KeptBySamples fun _ => True := fun _ _ => access_keeps fun _ _ _ _ => trivial
  have hkeeps : Keeps (fun _ => True) (· ≠ .noFuel) (decodeSample P bits cliplim c r) fun _ => True := by
    rw [decodeSample_eq]
    exact keeps_bind (decodeSearch_keeps hI P bits cliplim c r) fun y _ =>
      keeps_bind (commitTrial_keeps hI c) fun _ _ =>
        keeps_bind (rememberPair_keeps (fun _ _ => id) c r y) fun _ _ => keeps_pure trivial
  exact fun hout => keeps_error hkeeps trivial hout rfl

end Sys2Proof.Machine
end

section
/-! PROOFS. Calls over frames (48_host_protocol.md R313, R323, R348): a session lives through a call whatever fails in
it, a call that does not fail leaves no fault, and START after a failure begins a fresh session. -/

namespace Sys2Proof.Machine

/-! ## A session through a call -/

/-- The block has the invariant and a session runs, with or without a fault. -/
def InSession (w : HostWorld) : Prop := w.block.Inv ∧ w.block.stat.started = true

/-- The block has the invariant, a session runs and no fault is recorded. -/
def ReadyWorld (w : HostWorld) : Prop := w.block.Inv ∧ ready w.block

theorem ReadyWorld.inSession {w : HostWorld} (h : ReadyWorld w) : InSession w := ⟨h.1, h.2.1⟩

/-- From a world with `P` the procedure leaves a ready block, and a session where it fails. -/
abbrev EndsReady {α : Type} (P : HostWorld → Prop) (m : HostM α) : Prop :=
  Ensures P m (fun _ => ReadyWorld) fun _ => InSession

/-- A command that the host issues runs (30_encoding.md R109). -/
theorem serve_cmd (i : Instr) (s : State) : serve (cmd i) s = exec i s := by
  have hserve := serve_write_cmd s (bytesLE_length 4 (encode i).toNat)
  rw [runCommand, decodeBytes_bytesLE, decode_encode] at hserve
  exact hserve

/-- A read leaves all but the bytes that the host has read (20_memory.md R88). -/
theorem serve_read_eq_next {off width : Nat} {s t : State} (h : serve (.read off width) s = .next t) :
    ∃ bs, t = { s with rdata := bs } :=
  readPort_eq_next (servePort_eq_next h)

theorem sampleOp_keeps_started {op : BusOp} {s t : State} (hop : SampleOp op) (h : serve op s = .next t) :
    t.stat.started = s.stat.started := by
  cases hop with
  | lda v =>
    rw [lda, offOpa, serve_write_opa s (bytesLE_length 8 _)] at h
    rw [← Host.Outcome.next.inj h]
  | read off width =>
    obtain ⟨bs, rfl⟩ := serve_read_eq_next h
    rfl
  | cmd hstart hstop =>
    rw [serve_cmd] at h
    exact effect_started (exec_effect h) hstart hstop

theorem inSession_keptBySamples : KeptBySamples InSession := fun _ hop =>
  access_keeps fun _ _ ⟨hinv, hstarted⟩ h =>
    ⟨served_keeps_inv hinv (serve_served h), (sampleOp_keeps_started hop h).trans hstarted⟩

/-- A read keeps a ready block ready. -/
theorem access_read_keeps_ready (off width : Nat) :
    Keeps ReadyWorld (· ≠ .noFuel) (access (.read off width)) fun _ => True := by
  refine access_keeps fun w s ⟨hinv, hready⟩ h => ?_
  obtain ⟨bs, rfl⟩ := serve_read_eq_next h
  exact ⟨inv_congr hinv rfl rfl rfl rfl rfl, hready⟩

/-- What the host reads from STAT, and what it leaves. -/
theorem readStat_inSession : Ensures InSession readStat
    (fun st w => InSession w ∧ st = w.block.stat.toWord) fun _ => InSession := by
  intro w ⟨hinv, hstarted⟩
  have hserve : serve rdStat w.block = .next { w.block with rdata := bytesLE 4 w.block.stat.toWord.toNat } := rfl
  rw [readStat, run_bind, run_access, hserve]
  refine ⟨⟨inv_congr hinv rfl rfl rfl rfl rfl, hstarted⟩, ?_⟩
  dsimp only
  rw [valueLE_bytesLE_toNat (k := 4) w.block.stat.toWord, BitVec.ofNat_toNat, BitVec.setWidth_eq]

/-- After STAT was read without FAULT, the block is ready (R313, R348). -/
theorem failOnFault_endsReady : EndsReady InSession failOnFault := by
  refine ensures_bind readStat_inSession fun st w ⟨⟨hinv, hstarted⟩, hst⟩ => ?_
  obtain ⟨-, hbit, -⟩ := statLayout w.block.stat
  rw [hst, hbit]
  split
  next => exact ⟨hinv, hstarted⟩
  next hfault => exact ⟨hinv, hstarted, Bool.eq_false_iff.mpr hfault⟩

/-! ## One sample -/

section

variable {α β : Type} {I : HostWorld → Prop} {F : HostFail → Prop} {Q : β → HostWorld → Prop}

/-- Sequencing after a procedure that keeps a session. -/
theorem ensures_bind_keeps {m : HostM α} {f : α → HostM β} {R : α → Prop} (hm : Keeps I F m R)
    (hf : ∀ a, Ensures I (f a) Q fun _ => I) : Ensures I (m >>= f) Q fun _ => I :=
  ensures_bind (ensures_mono hm (fun _ _ h => h.1) fun _ _ h => h.1) hf

/-- What keeps a ready block ready ends with one. -/
theorem endsReady_of_keeps {m : HostM α} {R : α → Prop} (h : Keeps ReadyWorld F m R) :
    EndsReady ReadyWorld m :=
  ensures_mono h (fun _ _ h => h.1) fun _ _ h => h.1.inSession

theorem endsReady_pure (a : α) : EndsReady ReadyWorld (pure a) := fun _ hw => hw

end

/-- One sample of an encode call (R313). -/
theorem encodeSample_endsReady (c : Channel) (x : Int) : EndsReady InSession (encodeSample c x) :=
  ensures_bind_keeps (sampleOps_keeps inSession_keptBySamples encOps_sampleOp) fun _ =>
    ensures_bind failOnFault_endsReady fun _ => endsReady_of_keeps (readRes_keeps (access_read_keeps_ready _ _))

theorem commitTrial_endsReady (c : Channel) : EndsReady InSession (commitTrial c) :=
  ensures_bind_keeps (sampleOps_keeps inSession_keptBySamples commitOps_sampleOp) fun _ => failOnFault_endsReady

/-- One sample of a decode call (R320). -/
theorem decodeSample_endsReady (P : HostParams) (bits : Nat) (cliplim : Int) (c : Channel) (r : Int) :
    EndsReady InSession (decodeSample P bits cliplim c r) := by
  rw [decodeSample_eq]
  exact ensures_bind_keeps (decodeSearch_keeps inSession_keptBySamples P bits cliplim c r) fun y =>
    ensures_bind (commitTrial_endsReady c) fun _ =>
      ensures_bind (endsReady_of_keeps (rememberPair_keeps (F := fun _ => True) (fun _ _ => id) c r y)) fun _ =>
        endsReady_pure y

/-! ## Frames -/

/-- A sample's conversion leaves a ready block ready, and a session where it fails. -/
def SampleOk (f : Channel → Int → HostM Int) : Prop :=
  ∀ c p, EndsReady ReadyWorld (f c p)

theorem sampleOk_of_scaled (P : HostParams) (bits : Nat) {g : Channel → Int → HostM Int}
    (hg : ∀ c x, EndsReady InSession (g c x)) :
    SampleOk fun c p => (do
      let x ← inScale P bits p
      let y ← g c x
      pure (outScale P bits y)) := by
  intro c p
  exact ensures_bind (endsReady_of_keeps (inScale_computes P bits p ReadyWorld)) fun x =>
    ensures_bind (fun w hw => hg c x w hw.inSession) fun y => endsReady_pure _

theorem overFrame_endsReady {f : Channel → Int → HostM Int} (hf : SampleOk f) (fr : List Int) :
    EndsReady ReadyWorld (overFrame f fr) := by
  match fr with
  | [] => exact endsReady_pure []
  | [p] => exact ensures_bind (hf .ch1 p) fun y => endsReady_pure [y]
  | p :: q :: _ => exact ensures_bind (hf .ch1 p) fun y => ensures_bind (hf .ch2 q) fun z => endsReady_pure [y, z]

theorem run_recover (w : HostWorld) : recover.run w = ((), ((access (cmd .start)).run w).2) := rfl

/-- In a session START's checks pass. -/
theorem checks_of_inSession {w : HostWorld} (h : InSession w) :
    w.block.cfg.check = .ok () ∧ w.block.tables.check = .ok () := by
  obtain ⟨-, ⟨hcfg, htables, -⟩, -⟩ := (inv_iff_of_started h.2).mp h.1
  exact ⟨hcfg, htables⟩

/-- In a session START leaves a fresh session (40_control.md R136, 48_host_protocol.md R348). -/
theorem run_recover_of_inSession {w : HostWorld} (h : InSession w) :
    recover.run w = ((), { w with block := w.block.startSession }) := by
  obtain ⟨hcfg, htables⟩ := checks_of_inSession h
  rw [run_recover, run_access, serve_cmd, exec_start_of_checks hcfg htables]

/-- What a call leaves (R348): a ready block; all frames, or the first ones, a string and a fresh session. -/
structure CallEnds (frames : List (List Int)) (r : CallResult) (w : HostWorld) : Prop where
  ready : ReadyWorld w
  complete : r.error = none → r.frames.length = frames.length
  failed : r.error ≠ none →
    r.frames.length < frames.length ∧ w.block.chan1 = Chan.zero ∧ w.block.chan2 = Chan.zero

theorem callEnds_of_failure {w : HostWorld} (h : InSession w) (e : String) (fr : List Int) (frs : List (List Int)) :
    CallEnds (fr :: frs) { frames := [], error := some e } { w with block := w.block.startSession } := by
  obtain ⟨hcfg, htables⟩ := checks_of_inSession h
  exact ⟨⟨inv_startSession h.1 hcfg htables, rfl, rfl⟩, nofun, fun _ => ⟨by simp, rfl, rfl⟩⟩

/-- Another frame before a call's frames. -/
theorem CallEnds.cons {frs : List (List Int)} {r : CallResult} {w : HostWorld} (h : CallEnds frs r w)
    (y fr : List Int) : CallEnds (fr :: frs) { r with frames := y :: r.frames } w :=
  ⟨h.ready, fun he => by simpa using h.complete he, fun he => by simpa using h.failed he⟩

theorem overFrames_run_nil (f : Channel → Int → HostM Int) (w : HostWorld) :
    (overFrames f []).run w = ({ frames := [], error := none }, w) := rfl

theorem overFrames_run_cons (f : Channel → Int → HostM Int) (fr : List Int) (frs : List (List Int)) (w : HostWorld) :
    (overFrames f (fr :: frs)).run w =
      match (overFrame f fr).run w with
      | (.ok y, w') => match (overFrames f frs).run w' with
        | (r, w'') => ({ r with frames := y :: r.frames }, w'')
      | (.error e, w') => ({ frames := [], error := some e.text }, (recover.run w').2) := by
  rw [overFrames, StateT.run_bind, StateT.run]
  rcases ((overFrame f fr).run w : Except HostFail (List Int) × HostWorld) with ⟨_ | _, _⟩ <;> rfl


theorem overFrames_ends {f : Channel → Int → HostM Int} (hf : SampleOk f) (frames : List (List Int)) (w : HostWorld)
    (hw : ReadyWorld w) : CallEnds frames ((overFrames f frames).run w).1 ((overFrames f frames).run w).2 := by
  induction frames generalizing w with
  | nil => exact ⟨hw, fun _ => rfl, fun h => absurd rfl h⟩
  | cons fr frs ih =>
    rw [overFrames_run_cons]
    match (overFrame f fr).run w, overFrame_endsReady hf fr w hw with
    | (.ok y, w'), hready => exact (ih w' hready).cons y fr
    | (.error e, w'), hsession =>
      dsimp only
      rw [run_recover_of_inSession hsession]
      exact callEnds_of_failure hsession _ _ _

theorem encodeCall_ends (P : HostParams) (bits : Nat) (frames : List (List Int)) {w : HostWorld} (hw : ReadyWorld w) :
    CallEnds frames ((encodeCall P bits frames).run w).1 ((encodeCall P bits frames).run w).2 :=
  overFrames_ends (sampleOk_of_scaled P bits encodeSample_endsReady) frames w hw

theorem decodeCall_ends (P : HostParams) (bits : Nat) (cliplim : Int) (frames : List (List Int)) {w : HostWorld}
    (hw : ReadyWorld w) :
    CallEnds frames ((decodeCall P bits cliplim frames).run w).1 ((decodeCall P bits cliplim frames).run w).2 :=
  overFrames_ends (sampleOk_of_scaled P bits (decodeSample_endsReady P bits cliplim)) frames w hw

/-- Settles O60: both calls are calls over frames whose samples keep the session. -/
theorem failedCallRestarts : Obligations.FailedCallRestarts := by
  intro P bits cliplim frames w w' r hinv hready hrun
  have hends : CallEnds frames r w' := by
    rcases hrun with hrun | hrun
    · have h := encodeCall_ends P bits frames ⟨hinv, hready⟩
      rwa [hrun] at h
    · have h := decodeCall_ends P bits cliplim frames ⟨hinv, hready⟩
      rwa [hrun] at h
  exact ⟨hends.ready.1, hends.ready.2, hends.complete, hends.failed⟩

end Sys2Proof.Machine
end

section
/-! PROOFS. Calibration and its cache (48_host_protocol.md R330 to R334): a calibration ends only with a SidAmp that
is a number, and leaves the cache to the line that is appended after it; that line is found again. -/

namespace Sys2Proof.Machine

/-! ## The rounded values of a calibration -/

theorem roundScaled_computes (x : Float) (m : Int) : Computes (roundScaled x m) fun _ => True :=
  computes_mono (hostRound_computes _) fun _ _ => trivial

theorem mapM_computes {α β : Type} {f : α → HostM β} (h : ∀ x, Computes (f x) fun _ => True) (xs : List α) :
    Computes (xs.mapM f) fun _ => True := by
  induction xs with
  | nil => exact computes_pure trivial
  | cons x xs ih =>
    rw [List.mapM_cons]
    exact computes_bind (h x) fun _ _ => computes_bind ih fun _ _ => computes_pure trivial

theorem tone_computes (P : HostParams) (sr k : Nat) : Computes (tone P sr k) fun _ => True := roundScaled_computes _ _

theorem refLevel_computes (P : HostParams) (sr : Nat) : Computes (refLevel P sr) fun _ => True :=
  computes_bind (mapM_computes (fun _ => tone_computes P sr _) _) fun _ _ => computes_pure trivial

/-- SIDAMP_V has a value only where SidAmp is a number (R342, log entry 18). -/
theorem sidampV_computes (P : HostParams) (x : BitVec 64) : Computes (sidampV P x) fun _ => f64Value x ≠ none :=
  computes_mono (hostRound_computes _) fun _ h hx => h (by rw [hx]; rfl)

theorem intTrials_next_computes (s : FalsePos Int) (target : Float) :
    Computes (intTrials.next s target) fun _ => True :=
  computes_bind (hostChk_computes _) fun _ _ => computes_mono (hostRound_computes _) fun _ _ => trivial

theorem intTrials_mid_computes (x y : Int) : Computes (intTrials.mid x y) fun _ => True :=
  computes_bind (hostChk_computes _) fun _ _ => computes_mono (hostRound_computes _) fun _ _ => trivial

theorem floatTrials_next_computes (s : FalsePos Float) (target : Float) :
    Computes (floatTrials.next s target) fun _ => True := computes_pure trivial

theorem floatTrials_mid_computes (x y : Float) : Computes (floatTrials.mid x y) fun _ => True := computes_pure trivial

/-! ## The cache during a calibration -/

/-- The cache file is as in `w0`. -/
def SameCache (w0 w : HostWorld) : Prop := w.cache = w0.cache ∧ w.cacheWrites = w0.cacheWrites

/-- The procedure leaves the cache file of `w0` as it is, whether it fails or not. -/
abbrev KeepsCache {α : Type} (w0 : HostWorld) (m : HostM α) (R : α → Prop) : Prop :=
  Keeps (SameCache w0) (fun _ => True) m R

section

variable {α : Type} {R : α → Prop} {w0 : HostWorld}

theorem computes_keepsCache {m : HostM α} (h : Computes m R) : KeepsCache w0 m R :=
  keeps_mono (h _) (fun _ => id) fun _ _ => trivial

theorem access_keepsCache (op : BusOp) : KeepsCache w0 (access op) fun _ => True :=
  keeps_mono (access_keeps fun _ _ hw _ => hw) (fun _ => id) fun _ _ => trivial

theorem accesses_keepsCache (ops : List BusOp) : KeepsCache w0 (accesses ops) fun _ => True :=
  accesses_keeps fun op _ => access_keepsCache op

theorem failOnFault_keepsCache : KeepsCache w0 failOnFault fun _ => True :=
  failOnFault_keeps (fun _ => trivial) (access_keepsCache _)

theorem setReg_keepsCache (r : CfgReg) (v : Int) : KeepsCache w0 (setReg r v) fun _ => True :=
  keeps_bind (computes_keepsCache (hostChk_computes v)) fun _ _ => accesses_keepsCache _

/-- SidAmp is written to the block only where it is a number. -/
theorem setSidAmp_keepsCache (P : HostParams) (x : BitVec 64) :
    KeepsCache w0 (setSidAmp P x) fun _ => f64Value x ≠ none :=
  keeps_bind (computes_keepsCache (sidampV_computes P x)) fun _ hx =>
    keeps_mono (setReg_keepsCache _ _) (fun _ _ => hx) fun _ => id

theorem measureRun_keepsCache (P : HostParams) (sr n k : Nat) : KeepsCache w0 (measureRun P sr n k) fun _ => True := by
  induction n generalizing k with
  | zero => exact keeps_pure trivial
  | succ n ih =>
    exact keeps_bind (computes_keepsCache (tone_computes P sr k)) fun _ _ =>
      keeps_bind (accesses_keepsCache _) fun _ _ => keeps_bind failOnFault_keepsCache fun _ _ =>
        keeps_bind (readRes_keeps (access_keepsCache _)) fun _ _ => keeps_bind (ih (k + 1)) fun _ _ =>
          keeps_pure trivial

theorem measure_keepsCache (P : HostParams) (sr : Nat) : KeepsCache w0 (measure P sr) fun _ => True :=
  keeps_bind (access_keepsCache _) fun _ _ => keeps_bind failOnFault_keepsCache fun _ _ =>
    keeps_bind (measureRun_keepsCache P sr _ _) fun _ _ => keeps_pure trivial

/-- The false-position search does what its measurements and its trial values do (R332). -/
theorem falsePosition_keepsCache {ar : TrialArith α} {f : α → HostM Float} {target : Float}
    (hnext : ∀ s, Computes (ar.next s target) fun _ => True) (hmid : ∀ x y, Computes (ar.mid x y) fun _ => True)
    (hf : ∀ t, KeepsCache w0 (f t) fun _ => True) (n : Nat) (s : FalsePos α) :
    KeepsCache w0 (falsePosition ar f target n s) fun _ => True := by
  induction n generalizing s with
  | zero => exact keeps_throw trivial
  | succ n ih =>
    refine keeps_bind (computes_keepsCache (hnext s)) fun t _ => keeps_bind (hf t) fun ft _ => ?_
    dsimp only
    split
    · split
      · exact computes_keepsCache (hmid _ _)
      · exact ih _
    · exact ih _

theorem falsePositionFrom_keepsCache {ar : TrialArith α} {f : α → HostM Float} {target : Float}
    (hnext : ∀ s, Computes (ar.next s target) fun _ => True) (hmid : ∀ x y, Computes (ar.mid x y) fun _ => True)
    (hf : ∀ t, KeepsCache w0 (f t) fun _ => True) (lo hi : α) (fuel : Nat) :
    KeepsCache w0 (falsePositionFrom ar f target lo hi fuel) fun _ => True :=
  keeps_bind (hf lo) fun _ _ => keeps_bind (hf hi) fun _ _ => falsePosition_keepsCache hnext hmid hf _ _

/-- A calibration that ends has written its SidAmp to the block, so that it is a number. -/
theorem calibrate_keepsCache (P : HostParams) (sr fuel : Nat) :
    KeepsCache w0 (calibrate P sr fuel) fun k => f64Value k.sidAmp ≠ none :=
  keeps_bind (computes_keepsCache (refLevel_computes P sr)) fun _ _ =>
    keeps_bind (setReg_keepsCache _ _) fun _ _ =>
      keeps_bind (falsePositionFrom_keepsCache (floatTrials_next_computes · _) floatTrials_mid_computes
        (fun _ => keeps_bind (setSidAmp_keepsCache P _) fun _ _ => measure_keepsCache P sr) _ _ _) fun _ _ =>
        keeps_bind (setSidAmp_keepsCache P _) fun _ hsid => keeps_bind (setReg_keepsCache _ _) fun _ _ =>
          keeps_bind (falsePositionFrom_keepsCache (intTrials_next_computes · _) intTrials_mid_computes
            (fun _ => keeps_bind (setReg_keepsCache _ _) fun _ _ => measure_keepsCache P sr) _ _ _) fun _ _ =>
            keeps_pure hsid

end

/-! ## The cache, R333 and R334 -/

/-- A line appended for a key that no line had is the one that is found. -/
theorem cacheLookup_append {key : CalKey} {k : Calibration} {line : String} {ls : List String}
    (hmiss : cacheLookup key ls = none) (hline : parseLine line = some (key, k)) :
    cacheLookup key (ls ++ [line]) = some k := by
  induction ls with
  | nil => simp [cacheLookup, hline]
  | cons l ls ih =>
    rw [cacheLookup] at hmiss
    rw [List.cons_append, cacheLookup]
    split at hmiss
    next hl =>
      split at hmiss
      next => cases hmiss
      next hne => simp only [if_neg hne, ih hmiss]
    next hl => simp only [ih hmiss]

theorem run_obtainCalibration_of_hit {P : HostParams} {c : SessionConfig} {fuel : Nat} {w : HostWorld} {k : Calibration}
    (h : cacheLookup c.calKey w.cache = some k) : (obtainCalibration P c fuel).run w = (.ok k, w) := by
  change (match cacheLookup c.calKey w.cache with
    | some k => pure k
    | none => _ : HostM Calibration).run w = _
  rw [h]
  rfl

theorem run_obtainCalibration_of_miss {P : HostParams} {c : SessionConfig} {fuel : Nat} {w : HostWorld}
    (h : cacheLookup c.calKey w.cache = none) : (obtainCalibration P c fuel).run w =
      match (calibrate P c.sr fuel).run w with
      | (.ok k, w') => (.ok k, w'.append (cacheLine c.calKey k))
      | (.error e, w') => (.error e, w') := by
  change (match cacheLookup c.calKey w.cache with
    | some k => pure k
    | none => _ : HostM Calibration).run w = _
  rw [h, run_bind]
  rcases (calibrate P c.sr fuel).run w with ⟨_ | _, _⟩ <;> rfl

theorem append_cache_of_writes {w : HostWorld} (h : w.cacheWrites = true) (line : String) :
    (w.append line).cache = w.cache ++ [line] := by
  rw [HostWorld.append, if_pos h]

/-- Constants that were obtained are in the cache, if it can be written (R333, R334). -/
theorem cacheLookup_of_obtained {P : HostParams} {c : SessionConfig} {fuel : Nat} {w w1 : HostWorld} {k : Calibration}
    (hrun : (obtainCalibration P c fuel).run w = (.ok k, w1)) (hwrites : w.cacheWrites = true) :
    cacheLookup c.calKey w1.cache = some k := by
  cases hlook : cacheLookup c.calKey w.cache with
  | some k' =>
    rw [run_obtainCalibration_of_hit hlook] at hrun
    obtain ⟨hk, rfl⟩ := Prod.mk.inj hrun
    rw [hlook, Except.ok.inj hk]
  | none =>
    rw [run_obtainCalibration_of_miss hlook] at hrun
    rcases hcal : (calibrate P c.sr fuel).run w with ⟨e | k', w'⟩
    · rw [hcal] at hrun
      exact nomatch (Prod.mk.inj hrun).1
    · rw [hcal] at hrun
      obtain ⟨hk, rfl⟩ := Prod.mk.inj hrun
      obtain ⟨⟨hcache, hsame⟩, hfinite⟩ := keeps_ok (calibrate_keepsCache P c.sr fuel) ⟨rfl, rfl⟩ hcal
      obtain rfl := Except.ok.inj hk
      rw [append_cache_of_writes (hsame.trans hwrites), hcache]
      exact cacheLookup_append hlook (parseLine_cacheLine _ hfinite)

/-- Settles O59: constants that were obtained are in the cache, and the next request finds them there. -/
theorem calibrationIdempotent : Obligations.CalibrationIdempotent :=
  ⟨fun _ => readF64_f64Text, fun _ _ _ _ _ _ _ _ hrun hwrites hcache =>
    run_obtainCalibration_of_hit (hcache ▸ cacheLookup_of_obtained hrun hwrites)⟩

end Sys2Proof.Machine
end

section
/-! PROOFS. Recording a fault (60_exceptions.md R360, R362, R365 to R367): what turns FAULT on changes nothing but the
fault record, and a recorded fault stays until STOP or a START that succeeds. -/

namespace Sys2Proof.Machine

/-- Settles O12, by the two cases of taking a fault. -/
theorem faultRecording : Obligations.FaultRecording :=
  ⟨fun _ c d => ⟨fun h => raise_of_no_fault h c d, fun h => raise_of_fault h c d⟩, by decide⟩

section

variable {i : Instr} {s t : State}

/-! ## FAULT turned on, R362 -/

theorem raise_eq_raiseStart (h : s.stat.fault = false) (c : Cause) (d : BitVec 16) :
    s.raise c d = s.raiseStart c d :=
  raise_of_no_fault h c d

/-- A command that turns FAULT on has written the fault record and nothing else. -/
theorem effect_turns_fault_on (h : Effect s i t) (hs : s.stat.fault = false) (ht : t.stat.fault = true) :
    ∃ c d, t = s.raiseStart c d := by
  cases h with
  | fault _ c d => exact ⟨c, d, raise_eq_raiseStart hs c d⟩
  | startFault c d => exact ⟨c, d, rfl⟩
  | _ => simp [hs, Stat.clearFault] at ht

/-- So has any served event that turns FAULT on. -/
theorem served_turns_fault_on (h : Served s t) (hs : s.stat.fault = false) (ht : t.stat.fault = true) :
    ∃ c d, t = s.raiseStart c d := by
  cases h with
  | powerOn => cases ht
  | ran he => exact effect_turns_fault_on he hs ht
  | illegal c d => exact ⟨c, d, raise_eq_raiseStart hs c d⟩
  | _ => simp [hs] at ht

/-- A port write elsewhere than to CMD leaves STAT (20_memory.md R87). -/
theorem writePort_stat {off : Nat} {bytes : List Byte} (hoff : off ≠ offCmd) (h : writePort off bytes s = .next t) :
    t.stat = s.stat := by
  unfold writePort at h
  split_ifs at h <;> cases h <;> rfl

/-- Only a write to CMD turns FAULT on: the other accesses leave STAT, and power-on clears it. -/
theorem serve_turns_fault_on {op : BusOp} (h : serve op s = .next t) (hs : s.stat.fault = false)
    (ht : t.stat.fault = true) : ∃ bytes, op = .write offCmd bytes := by
  cases op with
  | powerOn =>
    cases h
    cases ht
  | read off width =>
    obtain ⟨bs, rfl⟩ := serve_read_eq_next h
    exact nomatch hs.symm.trans ht
  | write off bytes =>
    by_cases hoff : off = offCmd
    · exact ⟨bytes, hoff ▸ rfl⟩
    · rw [writePort_stat hoff (servePort_eq_next h), hs] at ht
      cases ht

end

/-- Settles O13, from the two ways of taking a fault, and from what serves the oldest event. -/
theorem faultsArePrecise : Obligations.FaultsArePrecise := by
  refine ⟨fun i s t h hs ht => ?_, fun s t h hs ht => ?_⟩
  · obtain ⟨c, d, rfl⟩ := effect_turns_fault_on (exec_effect h) hs ht
    rfl
  · cases hb : s.bus with
    | nil =>
      rw [step_of_empty_bus hb] at h
      cases h
      exact nomatch hs.symm.trans ht
    | cons op rest =>
      rw [step_of_bus hb] at h
      obtain ⟨bytes, rfl⟩ := serve_turns_fault_on h hs ht
      obtain ⟨c, d, rfl⟩ := served_turns_fault_on (serve_served h) hs ht
      exact ⟨⟨bytes, rest, rfl⟩, rfl⟩

/-! ## The first fault stays, R365 and R367 -/

section

variable {i : Instr} {s t : State}

theorem withInst_of_fault {α : Type} {of : BitVec 3 → Option α} {inst : BitVec 3}
    {body : α → Host.Outcome State Fault Refusal} (hs : s.stat.fault = true) (hbody : ∀ x, body x = .next s) :
    s.withInst of inst body = .next s := by
  rw [State.withInst]
  split
  · exact hbody _
  · rw [raise_of_fault hs]

/-- An inhibited command does nothing at all while FAULT = 1, BAD_INSTANCE included (40_control.md R130, R369). -/
theorem exec_of_inhibited (hi : inhibited i = true) (hs : s.stat.fault = true) : exec i s = .next s := by
  cases i with
  | lut | dcf | dcfC | dcfU | hpf | hpfC | hpfU =>
    exact withInst_of_fault hs fun _ => finishUnlessFault_of_fault hs _
  | nop | cfgw | cfgr | tblw | tblr | start | stop | rdst | rdsh => cases hi
  | _ => exact finishUnlessFault_of_fault hs _

/-- Of the commands that write CLIPF only START and STOP run while FAULT = 1. -/
theorem writesClip_of_not_inhibited (hi : inhibited i = false) (hstart : i ≠ .start) (hstop : i ≠ .stop) :
    writesClip i = false := by
  cases i with
  | start => exact absurd rfl hstart
  | stop => exact absurd rfl hstop
  | clip | sp | spC => cases hi
  | _ => rfl

/-- A command other than START and STOP takes a fault, or writes at most CLIPF of STAT. -/
theorem effect_stat_cases (h : Effect s i t) (hstart : i ≠ .start) (hstop : i ≠ .stop) :
    (∃ c d, t = s.raise c d) ∨ t.stat = { s.stat with clipf := t.stat.clipf } := by
  cases h with
  | fault _ c d => exact .inl ⟨c, d, rfl⟩
  | startFault | started => exact absurd rfl hstart
  | stopped => exact absurd rfl hstop
  | _ => exact .inr (by simp)

/-- While FAULT = 1 no command but START and STOP changes STAT. -/
theorem exec_stat_of_fault (hs : s.stat.fault = true) (h : exec i s = .next t) (hstart : i ≠ .start)
    (hstop : i ≠ .stop) : t.stat = s.stat := by
  cases hi : inhibited i with
  | true =>
    rw [exec_of_inhibited hi hs] at h
    cases h
    rfl
  | false =>
    have he := exec_effect h
    rcases effect_stat_cases he hstart hstop with ⟨c, d, rfl⟩ | hstat
    · rw [raise_of_fault hs]
    · rw [hstat, effect_clipf he (writesClip_of_not_inhibited hi hstart hstop)]

/-- A START that leaves FAULT clear has passed its checks and started the session (40_control.md R136). -/
theorem start_succeeds_of_no_fault (h : exec .start s = .next t) (ht : t.stat.fault = false) :
    t.stat.started = true ∧ s.cfg.check = .ok () ∧ s.tables.check = .ok () := by
  rcases execStart_eq_next h with ⟨c, d, rfl⟩ | ⟨hcfg, htab, rfl⟩
  · cases ht
  · exact ⟨rfl, hcfg, htab⟩

end

/-- Settles O14: a command other than START and STOP leaves STAT, and with it FAULT. -/
theorem firstFaultStays : Obligations.FirstFaultStays := by
  refine fun i s hs => ⟨fun t h => exec_stat_of_fault hs h, fun hi => exec_of_inhibited hi hs, fun t h ht => ?_⟩
  by_cases hstop : i = .stop
  · exact .inl hstop
  by_cases hstart : i = .start
  · subst hstart
    exact .inr ⟨rfl, start_succeeds_of_no_fault h ht⟩
  · rw [exec_stat_of_fault hs h hstart hstop, hs] at ht
    cases ht

end Sys2Proof.Machine
end

section
/-! PROOFS. No step is stuck (60_exceptions.md R362, R363): from a state with the block's invariant every command
answers a next state, and no event of the port answers a fault of the model. -/

namespace Sys2Proof.Machine

/-! ## START, 40_control.md R136 -/

theorem notStuck_checksFrom (p : Nat → Bool) (c : Cause) (k n : Nat) : NotStuck (checksFrom p c k n) := by
  induction n generalizing k with
  | zero => exact notStuck_demand _ _ _
  | succ n ih => exact notStuck_bind (notStuck_demand _ _ _) fun _ _ => ih (k + 1)

theorem notStuck_tables_check (tb : Tables) : NotStuck tb.check := by
  rw [Tables.check]
  split
  · exact notStuck_ok _
  · exact notStuck_raise _ _

/-- START's checks pass or raise, in every state. -/
theorem exec_start_next (s : State) : ∃ t, exec .start s = .next t := by
  have hchecks : NotStuck (do s.cfg.check; s.tables.check) :=
    notStuck_bind (cfg_check_eq s.cfg ▸ notStuck_checksFrom _ _ _ _) fun _ _ => notStuck_tables_check _
  rw [exec, execStart]
  split
  · exact ⟨_, rfl⟩
  · exact ⟨_, rfl⟩
  · next f hstuck => exact absurd hstuck (hchecks f)

/-! ## The other commands -/

theorem withInst_next {α : Type} {s : State} {of : BitVec 3 → Option α} {inst : BitVec 3}
    {body : α → Host.Outcome State Fault Refusal} (h : ∀ x, ∃ t, body x = .next t) :
    ∃ t, s.withInst of inst body = .next t := by
  rw [State.withInst]
  split
  · exact h _
  · exact ⟨_, rfl⟩

/-- What a command does in a session after its STARTED check is not stuck where its body is not, in a session. -/
theorem notStuck_needStarted {α : Type} {s : State} {body : Except Stop α} (op : BitVec 16)
    (h : s.stat.started = true → NotStuck body) : NotStuck (do s.needStarted op; body) :=
  notStuck_bind (notStuck_demand _ _ _) fun _ hok => h (needStarted_eq_ok_iff.mp hok)

/-- The same for a command of a channel. -/
theorem notStuck_onChannel {α : Type} {s : State} {body : Channel → Except Stop α} (op : BitVec 16) (ch : BitVec 2)
    (h : s.stat.started = true → ∀ c, NotStuck (body c)) :
    NotStuck (do s.needStarted op; let c ← s.needChannel ch; body c) :=
  notStuck_needStarted op fun hs => notStuck_bind (notStuck_needChannel s ch) fun c _ => h hs c

/-- Every command answers a next state: what it divides by is positive, and what it reads is written, in every
session. -/
theorem exec_next_of_inv {s : State} (h : s.Inv) (i : Instr) : ∃ t, exec i s = .next t := by
  have sound : s.stat.started = true → SoundSession s.cfg s.tables := fun hs => (soundSession_of_inv h hs).1
  have notStuck_sp : s.stat.started = true → ∀ b x, NotStuck (spFun s.cfg s.tables b x) := fun hs =>
    notStuck_spFun (sound hs) (soundSession_of_inv h hs).2
  cases i with
  | nop | stop => exact ⟨_, rfl⟩
  | start => exact exec_start_next s
  | cfgw =>
    exact finish_next_of_notStuck <| notStuck_bind (notStuck_needNum _ _) fun _ _ =>
      notStuck_bind (notStuck_demand _ _ _) fun _ _ => notStuck_bind (notStuck_demand _ _ _) fun _ _ => notStuck_ok _
  | cfgr => exact finish_next_of_notStuck <| notStuck_bind (notStuck_needNum _ _) fun _ _ => notStuck_ok _
  | tblw =>
    exact withInst_next fun _ => finish_next_of_notStuck <| notStuck_bind (notStuck_needIndex _ _) fun _ _ =>
      notStuck_bind (notStuck_demand _ _ _) fun _ _ => notStuck_ok _
  | tblr =>
    refine withInst_next fun _ => finish_next_of_notStuck <| notStuck_bind (notStuck_needIndex _ _) fun _ _ => ?_
    split
    · exact notStuck_ok _
    · exact notStuck_raise _ _
  | rdst | rdsh =>
    exact finish_next_of_notStuck <| notStuck_bind (notStuck_needNum _ _) fun _ _ =>
      notStuck_onChannel _ _ fun _ _ => notStuck_ok _
  | discard => exact finishUnlessFault_next_of_notStuck <| notStuck_onChannel _ _ fun _ _ => notStuck_ok _
  | rtoa | rtob => exact finishUnlessFault_next_of_notStuck (notStuck_ok _)
  | mix | unmix =>
    exact finishUnlessFault_next_of_notStuck <| notStuck_needStarted _ fun _ =>
      notStuck_bind (notStuck_chk _) fun _ _ => notStuck_ok _
  | clip => exact finishUnlessFault_next_of_notStuck <| notStuck_needStarted _ fun _ => notStuck_ok _
  | lut =>
    exact withInst_next fun tb => finishUnlessFault_next_of_notStuck <| notStuck_needStarted _ fun hs =>
      notStuck_bind (notStuck_interp _ ((sound hs).step tb) ((sound hs).full tb)) fun _ _ => notStuck_ok _
  | dcf => exact withInst_next fun _ => runCommit_next_of_notStuck fun hs _ => notStuck_fDcf (sound hs) _ _ _
  | dcfC => exact withInst_next fun _ => runCheck_next_of_notStuck fun hs _ => notStuck_fDcf (sound hs) _ _ _
  | hpf => exact withInst_next fun _ => runCommit_next_of_notStuck fun hs _ => notStuck_fHpf (sound hs) _ _ _
  | hpfC => exact withInst_next fun _ => runCheck_next_of_notStuck fun hs _ => notStuck_fHpf (sound hs) _ _ _
  | dcfU | hpfU => exact withInst_next fun _ => runUpdate_next _ _ _ _
  | slf =>
    rw [exec, execSlf]
    exact runCommit_next_of_notStuck fun hs _ => notStuck_fSlf (sound hs) _ _ _
  | slfC =>
    rw [exec, execSlfC]
    exact runCheck_next_of_notStuck fun hs _ => notStuck_fSlf (sound hs) _ _ _
  | env =>
    rw [exec, execEnv]
    exact runCommit_next_of_notStuck fun hs _ => notStuck_envFun_of_sound (sound hs) _ _
  | envC =>
    rw [exec, execEnvC]
    exact runCheck_next_of_notStuck fun hs _ => notStuck_envFun_of_sound (sound hs) _ _
  | slfU | envU | spU => exact runUpdate_next _ _ _ _
  | sp | spC =>
    exact finishUnlessFault_next_of_notStuck <| notStuck_onChannel _ _ fun hs _ =>
      notStuck_bind (notStuck_sp hs _ _) fun _ _ => notStuck_ok _

/-! ## The port -/

section

variable {s : State} {f : Fault}

theorem servePort_ne_fault {off width : Nat} {act : Host.Outcome State Fault Refusal} (h : act ≠ .fault f) :
    servePort off width act ≠ .fault f := by
  rw [servePort]
  split
  · nofun
  · split
    · exact h
    · nofun

theorem readPort_ne_fault (off width : Nat) : readPort off width s ≠ .fault f := by
  unfold readPort
  split_ifs <;> nofun

/-- A word written to CMD is not stuck where no command is. -/
theorem runCommand_ne_fault (h : ∀ i, exec i s ≠ .fault f) (bytes : List Byte) : runCommand bytes s ≠ .fault f := by
  rw [runCommand]
  split
  · exact h _
  · nofun
  · nofun

theorem writePort_ne_fault (h : ∀ i, exec i s ≠ .fault f) (off : Nat) (bytes : List Byte) :
    writePort off bytes s ≠ .fault f := by
  unfold writePort
  split_ifs
  · nofun
  · nofun
  · exact runCommand_ne_fault h bytes
  · nofun

/-- An event is not stuck where no command is. -/
theorem serve_ne_fault (h : ∀ i, exec i s ≠ .fault f) (op : BusOp) : serve op s ≠ .fault f := by
  cases op with
  | powerOn => nofun
  | read off width => exact servePort_ne_fault (readPort_ne_fault off width)
  | write off bytes => exact servePort_ne_fault (writePort_ne_fault h off bytes)

end

theorem exec_ne_fault_of_inv {s : State} (h : s.Inv) (f : Fault) (i : Instr) : exec i s ≠ .fault f := by
  obtain ⟨t, ht⟩ := exec_next_of_inv h i
  rw [ht]
  nofun

/-- Settles O56: the invariant does not speak of the queue, so it holds where the oldest event is served. -/
theorem neverStuck : Obligations.NeverStuck := by
  refine ⟨fun i s h => exec_next_of_inv h i, fun s h f => ?_⟩
  cases hb : s.bus with
  | nil =>
    rw [step_of_empty_bus hb]
    nofun
  | cons op rest =>
    have hrest : State.Inv { s with bus := rest } := inv_congr h rfl rfl rfl rfl rfl
    rw [step_of_bus hb]
    exact serve_ne_fault (exec_ne_fault_of_inv hrest f) op

end Sys2Proof.Machine
end

section
/-! PROOFS. Power-on (70_reset_and_hazards.md R400), the upsampling factor (R404), and a silent side path (R406): every
stage of a silent bank answers a zero input with 0 and leaves the bank, unless a multiplier is 0 and it is stuck. -/

namespace Sys2Proof.Machine

/-- Settles O11: the oldest event is the power-on input, and serving it writes the reset state. -/
theorem powerOnResets : Obligations.PowerOnResets := by
  intro s rest hb
  rw [step_of_bus hb]
  rfl

/-! ## The upsampling factor, R404 -/

theorem factor_of_ups {g : Cfg} (h : g.ups.toNat ≠ 0) : g.factor = g.ups.toNat := by
  rw [factor_eq, if_pos h]

/-- Without a given factor it is 200 kHz divided by the sample rate, rounded up, and 1 at least. -/
theorem factor_eq_ceilDiv {g : Cfg} (h : g.ups.toNat = 0) : g.factor = max 1 (200000 ⌈/⌉ g.sr.toNat) := by
  rw [factor_eq, if_neg (not_not.mpr h), Nat.ceilDiv_eq_add_pred_div]

/-- The automatic factor is a lower bound of exactly the counts of 1 or more that reach 200 kHz: it is the least. -/
theorem factor_le_iff {g : Cfg} (h : g.ups.toNat = 0) (hs : g.sr.toNat ≠ 0) {n : Nat} :
    g.factor ≤ n ↔ 1 ≤ n ∧ 200000 ≤ n * g.sr.toNat := by
  rw [factor_eq_ceilDiv h, max_le_iff, ceilDiv_le_iff_le_mul (Nat.pos_of_ne_zero hs), mul_comm]

/-- Settles O26: the automatic factor is at most itself, so that it reaches 200 kHz, and at most every count that
does; the listed rates are evaluated. -/
theorem upsamplingFactor : Obligations.UpsamplingFactor := by
  refine ⟨fun g => factor_of_ups, fun g h hs => ?_, by decide⟩
  obtain ⟨hone, hrate⟩ := (factor_le_iff h hs).mp le_rfl
  exact ⟨hone, hrate, fun n h1 hn => (factor_le_iff h hs).mpr ⟨h1, hn⟩⟩

/-! ## A computation with one possible value -/

/-- The computation has no other value than `v`, and takes no fault of the block: without `v` it is stuck. -/
def ValueOrStuck {α : Type} (r : Except Stop α) (v : α) : Prop := r = .ok v ∨ ∃ f, r = .error (.stuck f)

section
variable {α β : Type} {r : Except Stop α} {v w : α}

theorem valueOrStuck_ok (v : α) : ValueOrStuck (.ok v) v := .inl rfl

theorem valueOrStuck_bind {f : α → Except Stop β} {u : β} (hr : ValueOrStuck r v) (hf : ValueOrStuck (f v) u) :
    ValueOrStuck (r >>= f) u := by
  rcases hr with rfl | ⟨e, rfl⟩
  · exact hf
  · exact .inr ⟨e, rfl⟩

theorem ValueOrStuck.eq_of_ok (h : ValueOrStuck r v) (hw : r = .ok w) : w = v := by
  rcases h with rfl | ⟨e, rfl⟩
  · exact (Except.ok.inj hw).symm
  · cases hw

theorem ValueOrStuck.ok_of_notStuck (h : ValueOrStuck r v) (hn : NotStuck r) : r = .ok v :=
  h.resolve_right fun ⟨e, he⟩ => hn e he

end

/-! ## Arithmetic on 0 -/

theorem fits_zero : fits 0 := fits_toInt 0

@[simp] theorem chk_zero : chk 0 = .ok 0 := chk_of_fits fits_zero

theorem tdiv_zero_valueOrStuck (m : Int) : ValueOrStuck (tdiv 0 m) 0 := by
  rw [tdiv]
  split
  · exact .inr ⟨_, rfl⟩
  · rw [Int.zero_tdiv, chk_zero]
    exact valueOrStuck_ok 0

theorem fxmul_valueOrStuck {x v : Int} (h : x * v = 0) (m : Int) : ValueOrStuck (fxmul x v m) 0 := by
  rw [fxmul, h]
  exact tdiv_zero_valueOrStuck m

/-! ## The stages at rest, R214 to R219 -/

theorem dcfStep_at_rest (a m : Int) : ValueOrStuck (dcfStep 0 0 0 a m) (0, 0) := by
  simp only [dcfStep, sub_zero, zero_mul, add_zero, chk_zero, except_ok_bind]
  refine valueOrStuck_bind (tdiv_zero_valueOrStuck m) ?_
  simp only [zero_mul, sub_zero, chk_zero, except_ok_bind]
  exact valueOrStuck_ok _

/-- The four fields of a high-pass stage that has heard nothing. -/
def HpfFields.zero : HpfFields := ⟨0, 0, 0, 0⟩

theorem hpfStep_at_rest (a m da dm : Int) : ValueOrStuck (hpfStep .zero 0 a m da dm) (.zero, 0) := by
  simp only [hpfStep, HpfFields.zero, add_zero, sub_zero, zero_mul, chk_zero, except_ok_bind]
  refine valueOrStuck_bind (tdiv_zero_valueOrStuck m) (valueOrStuck_bind (v := (0, 0, 0)) ?_ (valueOrStuck_ok _))
  exact valueOrStuck_bind (dcfStep_at_rest da dm) (valueOrStuck_ok _)

/-- The signal path's fields of the bank are 0 (R406): all but the detector's and CV. -/
def Silent (b : Bank) : Prop := ∀ q, envFields q = false → b.read q = 0

theorem Silent.of_envFields {g : Cfg} {b b' : Bank} (hb : Silent b) (h : BankStep g envFields b b') : Silent b' :=
  fun q hq => (h.frame q hq).trans (hb q hq)

/-- Storing a high-pass stage's own fields leaves the bank. -/
theorem setHpf_hpf (b : Bank) (k : HpfId) : b.setHpf k (b.hpf k) = b := by
  cases k <;> simp only [Bank.setHpf, Bank.hpf, toInt_w64]

theorem setSlf_slf (b : Bank) : b.setSlf b.slf = b := by simp only [Bank.setSlf, Bank.slf, toInt_w64]

section
variable {g : Cfg} {b : Bank} (hb : Silent b)
include hb

theorem Silent.hpf (k : HpfId) : b.hpf k = .zero := by
  have hzero : b.hpf k = Bank.zero.hpf k :=
    hpf_eq_of_read fun f hf => by
      have hsignal : envFields f = false := Bool.eq_false_iff.mpr fun he =>
        nomatch (hpfFields_of_not_signal (signalFields_eq_false_iff.mpr he)).symm.trans hf
      rw [bank_zero_read, hb f hsignal]
  rw [hzero]
  cases k <;> rfl

theorem Silent.slf : b.slf = .zero := by
  have hpi : b.slfPI = 0 := hb .slfPI rfl
  have hpo : b.slfPO = 0 := hb .slfPO rfl
  have hy : b.dcf2Y = 0 := hb .dcf2Y rfl
  have hr : b.dcf2R = 0 := hb .dcf2R rfl
  rw [Bank.slf, hpi, hpo, hy, hr]
  rfl

theorem fHpf_silent (k : HpfId) : ValueOrStuck (fHpf g b k 0) (b, 0) := by
  rw [fHpf, hb.hpf k]
  refine valueOrStuck_bind (hpfStep_at_rest _ _ _ _) ?_
  dsimp only
  rw [← hb.hpf k, setHpf_hpf]
  exact valueOrStuck_ok _

theorem fSlf_silent (a : Int) : ValueOrStuck (fSlf g b 0 a) (b, 0) := by
  rw [fSlf, slfStep, hb.slf]
  refine valueOrStuck_bind (hpfStep_at_rest _ _ _ _) ?_
  dsimp only
  rw [← hb.slf, setSlf_slf]
  exact valueOrStuck_ok _

end

/-- A stage that can only return its own bank and `y` can return nothing else when it is repeated. -/
theorem repeatStage_valueOrStuck {f : Bank → Except Stop (Bank × Int)} {b : Bank} {y : Int}
    (h : ValueOrStuck (f b) (b, y)) : ∀ n, ValueOrStuck (repeatStage f n b) (b, y)
  | 0 => .inr ⟨_, rfl⟩
  | 1 => h
  | n + 2 => valueOrStuck_bind h (repeatStage_valueOrStuck h (n + 1))

/-! ## A silent pass, R282, and a silent side path, R281 -/

section
variable {g : Cfg} {b : Bank} (hb : Silent b)
include hb

theorem spInput_silent : ValueOrStuck (spInput g b 0) (b, 0) := by
  rw [spInput]
  split
  · exact fHpf_silent hb .h0
  · exact valueOrStuck_ok _

theorem spSliding_silent (att alpha : Int) (n : Nat) : ValueOrStuck (spSliding g b 0 att alpha n) (b, 0, 0) := by
  have hslf : ValueOrStuck (repeatStage (fun b => fSlf g b 0 alpha) n b) (b, 0) :=
    repeatStage_valueOrStuck (fSlf_silent hb alpha) n
  have htap := fxmul_valueOrStuck (zero_mul att) g.muxAtt.toInt
  rw [spSliding]
  split
  · exact valueOrStuck_bind htap (valueOrStuck_bind hslf (valueOrStuck_ok _))
  · refine valueOrStuck_bind hslf ?_
    simp only [sub_zero, chk_zero, except_ok_bind]
    exact valueOrStuck_bind htap (valueOrStuck_ok _)

theorem spBranch2_silent : ValueOrStuck (spBranch2 g b 0) (b, 0) := by
  rw [spBranch2]
  split
  · exact fHpf_silent hb .h1
  · exact valueOrStuck_ok _

/-- A pass over a silent bank with a zero input sums to 0 and leaves the bank silent, whatever the detector does. -/
theorem spPass_silent {tb : Tables} {n : Nat} {sum : Int} {b' : Bank} (h : spPass g tb n 0 b = .ok (b', sum)) :
    Silent b' ∧ sum = 0 := by
  obtain ⟨b1, b2, b3, u1, v, att, alpha, oatt, hs, tap, br1, br2, hin, -, -, -, -, hslide, hbr1, hbr2, -, rfl, henv⟩ :=
    spPass_eq_ok h
  obtain ⟨rfl, rfl⟩ := Prod.mk.inj ((spInput_silent hb).eq_of_ok hin)
  obtain ⟨rfl, hrest⟩ := Prod.mk.inj ((spSliding_silent hb att alpha n).eq_of_ok hslide)
  obtain ⟨rfl, rfl⟩ := Prod.mk.inj hrest
  obtain ⟨rfl, rfl⟩ := Prod.mk.inj ((spBranch2_silent hb).eq_of_ok hbr2)
  obtain rfl := (fxmul_valueOrStuck (zero_mul oatt) _).eq_of_ok hbr1
  refine ⟨?_, add_zero 0⟩
  rcases spEnvelope_eq_ok henv with ⟨-, rfl⟩ | ⟨-, _, _, -, hdet⟩
  · exact hb
  · exact hb.of_envFields (envFun_bankStep hdet)

/-- With the FET clamped to ground and table values at voltage 0, no check of a silent pass fails. -/
theorem spPass_silent_of_clamped {tb : Tables} (hg : g.fetgnd = true)
    (htb : ∀ t ∈ [TableId.att, .alpha, .oatt], ∃ v, interp g tb t 0 = .ok v) (n : Nat) :
    ValueOrStuck (spPass g tb n 0 b) (b, 0) := by
  obtain ⟨att, hatt⟩ := htb .att (by decide)
  obtain ⟨alpha, halpha⟩ := htb .alpha (by decide)
  obtain ⟨oatt, hoatt⟩ := htb .oatt (by decide)
  refine valueOrStuck_bind (spInput_silent hb) ?_
  simp only [tableVoltage_of_clamped hg, hatt, halpha, hoatt, except_ok_bind]
  refine valueOrStuck_bind (spSliding_silent hb att alpha n) ?_
  refine valueOrStuck_bind (fxmul_valueOrStuck (zero_mul oatt) _) (valueOrStuck_bind (spBranch2_silent hb) ?_)
  simp only [add_zero, chk_zero, except_ok_bind, spEnvelope, if_pos hg]
  exact valueOrStuck_ok _

/-- R406 for the side path: its scaled input is 0, its passes keep the bank silent, and the sum 0 is not clipped. -/
theorem spFun_silent {tb : Tables} {b' : Bank} {x y : Int} {f : Bool} (hx : x * g.sidampV.toInt = 0)
    (hl : 0 < g.cliplim.toInt) (h : spFun g tb b x = .ok (b', y, f)) : y = 0 ∧ f = false ∧ Silent b' := by
  obtain ⟨u0, sum, hscale, hrun, rfl, rfl⟩ := spFun_eq_ok h
  obtain rfl := (fxmul_valueOrStuck hx _).eq_of_ok hscale
  obtain ⟨hb', rfl⟩ := repeatStage_induction (P := Silent) (Q := (· = 0)) (fun _ _ _ hb => spPass_silent hb) hb hrun
  rw [diodeclip_of_inside (by omega) hl]
  exact ⟨rfl, rfl, hb'⟩

theorem spFun_silent_of_clamped {tb : Tables} {x : Int} (hx : x * g.sidampV.toInt = 0) (hl : 0 < g.cliplim.toInt)
    (hg : g.fetgnd = true) (htb : ∀ t ∈ [TableId.att, .alpha, .oatt], ∃ v, interp g tb t 0 = .ok v) :
    ValueOrStuck (spFun g tb b x) (b, 0, false) := by
  refine valueOrStuck_bind (fxmul_valueOrStuck hx _) ?_
  refine valueOrStuck_bind (repeatStage_valueOrStuck (spPass_silent_of_clamped hb hg htb _) _) ?_
  dsimp only
  rw [diodeclip_of_inside (by omega) hl]
  exact valueOrStuck_ok _

end

/-- Settles O46: a side path that returns is silent; under the invariant it is not stuck, so that with the FET clamped
it returns, and SP and SP.C store the bank it began with. -/
theorem silenceStaysSilent : Obligations.SilenceStaysSilent := by
  refine ⟨fun g tb b b' x y f hx hl hb h => spFun_silent hb ?_ hl h, fun s ch c hinv hr hc hx hg hb htb => ?_⟩
  · rcases hx with hv | hv <;> simp [hv]
  · have hx' : s.opa.toInt * s.cfg.sidampV.toInt = 0 := by rcases hx with hv | hv <;> simp [hv]
    obtain ⟨sound, hn⟩ := soundSession_of_inv hinv hr.1
    have hrun := (spFun_silent_of_clamped hb hx' sound.cliplim hg htb).ok_of_notStuck
      (notStuck_spFun sound hn _ s.opa.toInt)
    exact (sidePathCommands s ch c hr hc).1 _ _ _ hrun

end Sys2Proof.Machine
end
